-- ==== Sys2Proof/Word.lean ====
section
/-! DEFINITION. The fixed-width words of the block (00_scope.md R11). -/

namespace Sys2Proof

/-- `u8` (R11). -/
abbrev Byte := BitVec 8

/-- The 32-bit value of a register access or of a command operand (R24, R100). -/
abbrev Word := BitVec 32

end Sys2Proof
end

