-- ==== Sys2Proof/Config.lean ====
section
/-! DEFINITION. What an implementation fixes: the DeviceState type, the constants of 00_scope.md R9,
the configuration record of its OPEN parameters, and the free values of the model. -/

namespace Sys2Proof

/-- The `mode` of the DeviceState, in the source's order of declaration (10_state.md R22). -/
inductive Mode where
  | auto | cool | heat | fan
  deriving DecidableEq, Repr

/-- The `fan_level` of the DeviceState, in the source's order of declaration (10_state.md R25). The three
illegal register values 5, 6, 7 have no constructor. -/
inductive FanLevel where
  | low | medium | high | auto | off
  deriving DecidableEq, Repr

/-- The DeviceState: `DEV_EN`, `DEV_MODE`, `DEV_TEMP`, `DEV_FAN` (10_state.md R21 to R25). -/
structure DeviceState where
  en   : Bool
  mode : Mode
  temp : Word
  fan  : FanLevel
  deriving DecidableEq, Repr

/-- `FAN_CODE[l]`: the `fan` nibble of each level when enabled (00_scope.md R9). -/
structure FanCodes where
  low    : BitVec 4
  medium : BitVec 4
  high   : BitVec 4
  auto   : BitVec 4
  off    : BitVec 4
  deriving DecidableEq, Repr

/-- `MODE_CODE[m]`: the `command` nibble of each mode when enabled (00_scope.md R9). -/
structure ModeCodes where
  auto : BitVec 4
  cool : BitVec 4
  heat : BitVec 4
  fan  : BitVec 4
  deriving DecidableEq, Repr

/-- The OPEN parameter `CKSUM` (42_config_store.md R192): the source's option (a), the constant 0; its option
(b), the 16-bit additive sum; or any other total function of the bytes, number `k` of the family
`Config.cksumOther`, of which nothing is known. DESIGN CHOICE (log 9), safe. -/
inductive Cksum where
  | zero
  | additive
  | other (k : Nat)
  deriving DecidableEq, Repr

/-- The configuration record: the OPEN parameters of 00_scope.md R9. The legal values are `Config.legal`
(Machine/Ops.lean). -/
structure Config where
  stateOnCode     : BitVec 4
  stateOffCode    : BitVec 4
  fanCode         : FanCodes
  fanOffCode      : BitVec 4
  modeCode        : ModeCodes
  tempOffSentinel : BitVec 4
  stopLowSlots    : Nat
  nSub            : Nat
  pbCap           : Nat
  tUs             : Nat
  hasBlocking     : Bool
  cfgBase         : Nat
  sectorSize      : Nat
  maxItems        : Nat
  cksum           : Cksum
  rstState        : DeviceState
  regBase         : Nat
  deriving DecidableEq, Repr

/-- The reference values of 00_scope.md R9. `CFG_BASE` and `REG_BASE` have none: DESIGN CHOICE 0 (log 2). -/
def Config.reference : Config where
  stateOnCode     := 0xF
  stateOffCode    := 0xB
  fanCode         := { low := 0x9, medium := 0x5, high := 0x3, auto := 0xB, off := 0x7 }
  fanOffCode      := 0x7
  modeCode        := { auto := 0x8, cool := 0x0, heat := 0xC, fan := 0x4 }
  tempOffSentinel := 0xE
  stopLowSlots    := 10
  nSub            := 42
  pbCap           := 256
  tUs             := 550
  hasBlocking     := true
  cfgBase         := 0
  sectorSize      := 4096
  maxItems        := 8
  cksum           := .zero
  rstState        := { en := false, mode := .auto, temp := 24, fan := .auto }
  regBase         := 0

namespace Config

/-! The parameters that the source or a decision fixes (00_scope.md R9). -/

/-- `MAGIC`. -/
def magic : Byte := 0xB2
/-- `TEMP_MIN`, °C. -/
def tempMin : Int := 17
/-- `TEMP_MAX`, °C. -/
def tempMax : Int := 30
/-- `TEMP_FALLBACK`, the nibble of 24 °C. -/
def tempFallback : BitVec 4 := 7
/-- `START_HIGH`, slots. -/
def startHigh : Nat := 8
/-- `START_LOW`, slots. -/
def startLow : Nat := 8
/-- `REPEAT`, passes over the buffer. -/
def repeats : BitVec 2 := 2
/-- `STOP_HIGH_SLOTS` (D17). -/
def stopHighSlots : Nat := 1
/-- `GAP_OFF_US`. -/
def gapOffUs : Nat := 5200
/-- `GAP_ON_US`. -/
def gapOnUs : Nat := 4400
/-- `GAP_OFF2_US`. -/
def gapOff2Us : Nat := 4400
/-- `SIGNATURE` of the main header. -/
def signature : BitVec 16 := 0xAA55
/-- `ERASED_BYTE` (D33). -/
def erasedByte : Byte := 0xFF
/-- `PAD_BYTE` (D34). -/
def padByte : Byte := 0xFF
/-- `CARRIER_HZ_IRQ`: timing only, no rule depends on it (R320, log 16). -/
def carrierHzIrq : Nat := 38000
/-- `TICK_HZ` (R292): timing only. -/
def tickHz : Nat := 2 * carrierHzIrq
/-- `CARRIER_HZ_PWM`: timing only. -/
def carrierHzPwm : Nat := 46000
/-- `PWM_DUTY`, per cent: timing only. -/
def pwmDutyPercent : Nat := 50

/-! The free values: constants with no body, of which nothing can be evaluated or proved. -/

/-- Whether ENV lets draw number `n` of a flash call succeed, where `State.draws` holds no draw for it
(20_memory.md R86, U10; log 3). -/
opaque flashOk (n : Nat) : Bool

/-- Byte `k` of the any-value bytes that belong to draw number `n` (U11, U12, U13, U17; log 4). -/
opaque freeByte (n k : Nat) : Byte

/-- Slot `k` of the any-value PulseBuffer that belongs to draw number `n` (U16; log 4). -/
opaque freeBit (n k : Nat) : Bool

/-- Checksum function number `k` (42_config_store.md R192, U1; log 9). -/
opaque cksumOther (k : Nat) (bytes : List Byte) : BitVec 16

end Config

end Sys2Proof
end

