-- ==== Sys2Proof/Machine/State.lean ====
section
/-! DEFINITION. The state of the block (10_state.md R20), as plain data, and its value after reset (R55). -/

namespace Sys2Proof.Machine

/-- Why a step could stop with a fault: never. "Nothing in the core is fatal" (60_exceptions.md R273), so the type
has no constructor. -/
inductive Fault where
  deriving DecidableEq, Repr

/-- Why the model gives a situation no meaning. -/
inductive Refusal where
  /-- Raised by `exec` alone, for an instruction that has no meaning yet; safe. No arm raises it. -/
  | notModelled (mnemonic : String)
  /-- Raised by a host access of a width other than 32 bits (10_state.md R24, U20); safe. -/
  | accessWidth
  /-- Raised by a host access at an offset that is not a multiple of 4 (10_state.md R24, U20); safe. -/
  | misalignedAccess
  /-- Raised by a host access at an address outside the register space `REG_BASE + 0x000 .. 0x3FF`
  (10_state.md R24, R40); safe (log 11). -/
  | outsideRegisterSpace
  /-- Raised by the flash call of a store command in flight whose offset or size 20_memory.md R75 excludes; safe.
  No run reaches it (log 12). -/
  | badFlashCall
  /-- Raised by every step under a configuration that breaks a constraint of 00_scope.md R10 (U22); safe. -/
  | illegalConfig
  deriving DecidableEq, Repr

/-- A byte memory: cells in rising address order, none equal to what an unlisted address reads as
(`Memory.wf`, Machine/Ops.lean). -/
abbrev Memory := List Host.Cell

/-- What an unlisted address reads as: an erased flash byte (R83). For the flash sector at first power-up and
for `DATA` after reset the spec allows any value: DESIGN CHOICE (log 7, log 8), unsafe. -/
def Memory.unlisted : Byte := Config.erasedByte

/-- `PACKET[0..2]` (10_state.md R26). -/
structure Packet where
  p0 : Byte
  p1 : Byte
  p2 : Byte
  deriving DecidableEq, Repr

/-- `FRAME[0..5]` (10_state.md R27). -/
structure Frame where
  f0 : Byte
  f1 : Byte
  f2 : Byte
  f3 : Byte
  f4 : Byte
  f5 : Byte
  deriving DecidableEq, Repr

/-- An event of the emission log `OUT` (10_state.md R52). -/
inductive Emission where
  /-- A TICK step drove `level`. -/
  | tick (level : Bool)
  /-- A blocking SEND held `PWM_GATE = gate` for `us` microseconds. -/
  | seg (gate : Bool) (us : Nat)
  /-- A SEND found `TIMER_EN = 1`. -/
  | abort
  deriving DecidableEq, Repr

/-- The waveform generator (10_state.md R31 to R37, R50, R52): all the state the TICK agent may touch (R290). -/
structure Generator where
  /-- `PB[0 .. PB_CAP-1]`, true for a high slot (R50). -/
  pb        : List Bool
  /-- `PB_LEN` (R34). -/
  pbLen     : BitVec 12
  /-- `CUR_SLOT` (R31). -/
  curSlot   : BitVec 12
  /-- `CUR_SUB` (R32). -/
  curSub    : BitVec 16
  /-- `REPEAT_CNT` (R33). -/
  repeatCnt : BitVec 2
  /-- `TIMER_EN` (R35). -/
  timerEn   : Bool
  /-- `PIN` (R36). -/
  pin       : Bool
  /-- `PWM_GATE` (R37). -/
  pwmGate   : Bool
  /-- `OUT`, oldest first (R52). -/
  out       : List Emission
  deriving DecidableEq, Repr

/-- One slot of the item table (10_state.md R51). -/
structure Item where
  /-- `ALLOC`. -/
  alloc : Bool
  /-- `ID`. -/
  id    : Byte
  /-- `LEN`. -/
  len   : BitVec 16
  /-- `CKSUM`. -/
  cksum : BitVec 16
  /-- `DATA[0..255]`, keyed by byte index. -/
  data  : Memory
  deriving DecidableEq, Repr

/-- The progress of a store command in flight (10_state.md R54, 20_memory.md R93): the flash call it makes next.
`n` is CFG_WRITE's count, `lim` CFG_READ's limit, `i` the slot, `off` the item's offset in the sector. -/
inductive Job where
  /-- W1 (42_config_store.md R201). -/
  | writeErase (n : Nat)
  /-- W2. -/
  | writeMain (n : Nat)
  /-- W3.i. -/
  | writeHeader (n i off : Nat)
  /-- W4.i. -/
  | writeData (n i off : Nat)
  /-- R1 (R210). -/
  | readMain (lim : Nat)
  /-- R2.i (R211), with `remaining` as it is at the head of the loop. -/
  | readHeader (lim i off : Nat) (remaining : Int)
  /-- R3.i, with the fields of the data header just read. -/
  | readData (lim i off : Nat) (remaining : Int) (id len : Byte) (ck : BitVec 16)
  deriving DecidableEq, Repr

/-- Whether other agents may step inside a host write that issues a store command (20_memory.md R93; log 6). -/
inductive Span where
  /-- The whole command runs with no other agent's step between its flash calls. -/
  | whole
  /-- The command stops before its first flash call and goes on by `flashCall` events. -/
  | split
  deriving DecidableEq, Repr

/-- What an agent does next (00_scope.md R7). Addresses are bus addresses, widths are in bits. -/
inductive Event where
  /-- HOST reads a register (10_state.md R24). -/
  | hostRead (addr width : Nat)
  /-- HOST writes a register; a write to `CMD_OP` issues a command (R24, R45). -/
  | hostWrite (addr width : Nat) (value : Word) (span : Span)
  /-- The carrier timer fires (60_exceptions.md R280). -/
  | tick
  /-- The store command in flight makes its next flash call (R93). -/
  | flashCall
  /-- Reset or loss of power (70_reset_and_hazards.md R300, R305): between two steps (`none`), or inside the next
  flash call of the command in flight, after `torn` of its words were programmed. -/
  | reset (torn : Option Nat)
  deriving DecidableEq, Repr

/-- The state of the block, and the model's own fields `cfg`, `rdata`, `sched`, `draws`, `drawCount`. -/
structure State where
  /-- The configuration record (00_scope.md R9), which no step changes (log 1). -/
  cfg       : Config
  /-- `DEV_EN`, `DEV_MODE`, `DEV_TEMP`, `DEV_FAN` (10_state.md R21 to R25). -/
  dev       : DeviceState
  /-- `PACKET` (R26). -/
  packet    : Packet
  /-- `FRAME` (R27). -/
  frame     : Frame
  /-- The waveform generator (R31 to R37, R50, R52). -/
  gen       : Generator
  /-- `CTRL.BLK` as written; read through `State.blocking` (R41). -/
  ctrlBlk   : Bool
  /-- `STATUS.WR_ERR` (R42). -/
  wrErr     : Bool
  /-- `STATUS.RD_EMPTY` (R42). -/
  rdEmpty   : Bool
  /-- `STATUS.RD_COUNT` (R42). -/
  rdCount   : Byte
  /-- `DIAG` (R43). -/
  diag      : Byte
  /-- `CMD_ARG` (R44). -/
  cmdArg    : Word
  /-- `ITEM_SEL` (R46). -/
  itemSel   : Byte
  /-- `ITEM[0 .. MAX_ITEMS-1]` (R51). -/
  items     : List Item
  /-- `FLASH[0 .. SECTOR_SIZE-1]`, keyed by byte offset from `CFG_BASE` (R53). -/
  flash     : Memory
  /-- The store command in flight, if any (R54, R93). -/
  job       : Option Job
  /-- The value the last `RegRead` returned to the host (log 10). -/
  rdata     : Word
  /-- What the agents do next, oldest first (20_memory.md R87; log 5). -/
  sched     : List Event
  /-- ENV's next draws: whether each flash call succeeds (R86; log 3). -/
  draws     : List Bool
  /-- How many draws ENV has made: the argument of the free values (log 3, log 4). -/
  drawCount : Nat
  deriving DecidableEq, Repr

/-- An item slot after reset (10_state.md R51); `DATA` is any value there: DESIGN CHOICE all unlisted (log 7). -/
def Item.reset : Item where
  alloc := false
  id    := 0
  len   := 0
  cksum := 0
  data  := []

/-- The waveform generator after reset (R31 to R37, R52); `PB` is any value there: DESIGN CHOICE all low (log 7). -/
def Generator.reset (cfg : Config) : Generator where
  pb        := List.replicate cfg.pbCap false
  pbLen     := 0
  curSlot   := 0
  curSub    := 0
  repeatCnt := 0
  timerEn   := false
  pin       := false
  pwmGate   := false
  out       := []

/-- The block with configuration `cfg` after its first power-up (10_state.md R55, 70_reset_and_hazards.md R300). -/
def State.powerUp (cfg : Config) : State where
  cfg       := cfg
  dev       := cfg.rstState
  packet    := { p0 := 0, p1 := 0, p2 := 0 }
  frame     := { f0 := 0, f1 := 0, f2 := 0, f3 := 0, f4 := 0, f5 := 0 }
  gen       := Generator.reset cfg
  ctrlBlk   := false
  wrErr     := false
  rdEmpty   := false
  rdCount   := 0
  diag      := 0
  cmdArg    := 0
  itemSel   := 0
  items     := List.replicate cfg.maxItems Item.reset
  flash     := []
  job       := none
  rdata     := 0
  sched     := []
  draws     := []
  drawCount := 0

/-- The block right after reset, under the reference configuration (log 2). -/
def State.reset : State := State.powerUp Config.reference

end Sys2Proof.Machine
end

