-- ==== Sys2Proof/Machine/Operands.lean ====
section
/-! DEFINITION. How a command reads its operand (30_encoding.md R101, R103), and the ordinals of the two
enumerations (10_state.md R22, R25). -/

namespace Sys2Proof.Machine

/-- Format `OPI`: `sext_32(arg)` (R101). -/
def signedOperand (arg : Word) : Int := arg.toInt

/-- Format `OPU`: `zext_32(arg)` (R101). -/
def countOperand (arg : Word) : Nat := arg.toNat

/-- A count of slots limited to the item table (R103; 42_config_store.md R209, R220). -/
def limitCount (cfg : Config) (arg : Word) : Nat := min (countOperand arg) cfg.maxItems

/-- The ordinal of a mode (10_state.md R22). -/
def modeOrdinal : Mode → BitVec 2
  | .auto => 0
  | .cool => 1
  | .heat => 2
  | .fan => 3

/-- The ordinal of a fan level (R25). -/
def fanOrdinal : FanLevel → BitVec 3
  | .low => 0
  | .medium => 1
  | .high => 2
  | .auto => 3
  | .off => 4

/-- The fan level with ordinal `v`, for `0 ≤ v ≤ 4` (R103; 43_command_interpreter.md R247). -/
def fanOfOrdinal (v : Int) : Option FanLevel :=
  if v = 0 then some .low
  else if v = 1 then some .medium
  else if v = 2 then some .high
  else if v = 3 then some .auto
  else if v = 4 then some .off
  else none

end Sys2Proof.Machine
end

