-- ==== Sys2Proof/Machine/Flags.lean ====
section
/-! DEFINITION. The flags: the sticky bits of `DIAG` (10_state.md R43, 60_exceptions.md R271) and the word
`STATUS` (R42). There are no condition codes (R38). -/

namespace Sys2Proof.Machine

/-- The failure conditions that have a bit (60_exceptions.md R271). -/
inductive DiagBit where
  | unrecCmd | argRange | flashIo | cksumFail | lenMismatch | bounds | wrRefused | rdBusy
  deriving DecidableEq, Repr

/-- The bit number, which is the condition's code (R271). -/
def DiagBit.code : DiagBit → Nat
  | .unrecCmd => 0
  | .argRange => 1
  | .flashIo => 2
  | .cksumFail => 3
  | .lenMismatch => 4
  | .bounds => 5
  | .wrRefused => 6
  | .rdBusy => 7

/-- The byte with that bit alone. -/
def DiagBit.mask (b : DiagBit) : Byte := 1#8 <<< b.code

/-- A host write of `v` to `DIAG`: each bit written 1 is cleared, bits 31:8 are ignored (R43). -/
def clearDiag (diag : Byte) (v : Word) : Byte := diag &&& ~~~(v.setWidth 8)

/-- A one-bit field in a 32-bit word. -/
def flagAt (b : Bool) (k : Nat) : Word := (if b then 1#32 else 0#32) <<< k

/-- The value of `STATUS`; bits 7:4 and 31:16 read 0 (R42). -/
def statusWord (emitting pin wrErr rdEmpty : Bool) (rdCount : Byte) : Word :=
  flagAt emitting 0 ||| flagAt pin 1 ||| flagAt wrErr 2 ||| flagAt rdEmpty 3 ||| (rdCount.setWidth 32 <<< 8)

end Sys2Proof.Machine
end

