-- ==== Sys2Proof/Machine/Ops.lean ====
section
/-! DEFINITION. The named operations that the commands share: the configuration's constraints, byte memories, item
slots, `diag`, ENV's draws, the flash primitives, and the emission log. -/

namespace Sys2Proof.Machine

/-- The constraints of 00_scope.md R9 and R10 and 10_state.md R32 on the OPEN parameters. -/
def legalConfig (c : Config) : Bool :=
  c.nSub % 2 == 0 && decide (2 ≤ c.nSub) && decide (c.nSub < 65536) &&
  decide (16 + 192 + Config.stopHighSlots + c.stopLowSlots ≤ c.pbCap) && decide (c.pbCap ≤ 2048) &&
  c.sectorSize % 4 == 0 && decide (8 ≤ c.sectorSize) && decide (c.sectorSize ≤ 65536) &&
  c.cfgBase % c.sectorSize == 0 && decide (1 ≤ c.maxItems) && decide (c.maxItems ≤ 255) &&
  decide (0 < c.tUs) && c.regBase % 0x400 == 0

/-! ## Byte memories -/

/-- The byte at address `a`. -/
def Memory.read : Memory → Nat → Byte
  | [], _ => Memory.unlisted
  | (k, b) :: rest, a => if k = a then b else Memory.read rest a

/-- Memory with byte `b` at address `a`. -/
def Memory.write : Memory → Nat → Byte → Memory
  | [], a, b => if b = Memory.unlisted then [] else [(a, b)]
  | (k, c) :: rest, a, b =>
    if a < k then
      if b = Memory.unlisted then (k, c) :: rest else (a, b) :: (k, c) :: rest
    else if a = k then
      if b = Memory.unlisted then rest else (a, b) :: rest
    else (k, c) :: Memory.write rest a b

/-- The canonical form: addresses strictly rising, no cell equal to what an unlisted address reads as. -/
def Memory.wf : Memory → Bool
  | [] => true
  | (k, b) :: rest => b != Memory.unlisted && rest.all (fun c => decide (k < c.1)) && Memory.wf rest

/-- Every listed address is below `n`. -/
def Memory.within (m : Memory) (n : Nat) : Bool := m.all (fun c => decide (c.1 < n))

/-- The `n` bytes from address `off` on. -/
def Memory.readBytes (m : Memory) (off n : Nat) : List Byte :=
  (List.range n).map (fun k => m.read (off + k))

/-- Memory with `bytes` from address `off` on. -/
def Memory.writeBytes : Memory → Nat → List Byte → Memory
  | m, _, [] => m
  | m, off, b :: bs => Memory.writeBytes (m.write off b) (off + 1) bs

/-- Memory with every byte below `n` erased (`ERASED_BYTE` is what an unlisted address reads as). -/
def Memory.eraseBelow (m : Memory) (n : Nat) : Memory := m.filter (fun c => decide (n ≤ c.1))

/-- The bytes left by programming `new` over the bytes of `m` at `off`: programming only clears bits (R85). -/
def Memory.programmed (m : Memory) (off : Nat) (new : List Byte) : List Byte :=
  List.zipWith (fun a b => a &&& b) (m.readBytes off new.length) new

/-- The bytes left by a programming call that lost power after `words` words: those words are programmed, the word in
progress is any value (`free`), the rest is unchanged (70_reset_and_hazards.md R305). -/
def Memory.tornBytes (m : Memory) (off : Nat) (new : List Byte) (words : Nat) (free : List Byte) : List Byte :=
  (List.range new.length).map fun q =>
    if q / 4 < words then (m.programmed off new).getD q 0
    else if q / 4 = words then free.getD q 0
    else m.read (off + q)

/-! ## diag and the emission log -/

/-- `diag(BIT)`, the spec's form of raising a condition: the bit is set and nothing else happens (60_exceptions.md R270). -/
def State.raiseDiag (s : State) (b : DiagBit) : State := { s with diag := s.diag ||| b.mask }

/-- `emit(ev)` (00_scope.md R12). -/
def Generator.emit (g : Generator) (e : Emission) : Generator := { g with out := g.out ++ [e] }

/-! ## The item table -/

/-- `ITEM[i]`. Every slot below `MAX_ITEMS` is in the list (`State.inv`); past its end the value is a reset slot (log 14). -/
def State.item (s : State) (i : Nat) : Item := s.items.getD i Item.reset

/-- `ITEM[i] <- it`. -/
def State.putItem (s : State) (i : Nat) (it : Item) : State := { s with items := s.items.set i it }

/-! ## ENV's draws and the flash primitives -/

/-- ENV's draw for the next flash call: whether it succeeds (20_memory.md R86; log 3). -/
def State.callOk (s : State) : Bool :=
  match s.draws with
  | d :: _ => d
  | [] => Config.flashOk s.drawCount

/-- The state after ENV has made one draw. -/
def State.drawn (s : State) : State := { s with draws := s.draws.tail, drawCount := s.drawCount + 1 }

/-- The state after ENV has supplied any-value contents that belong to no flash call (log 4). -/
def State.advanced (s : State) : State := { s with drawCount := s.drawCount + 1 }

/-- The `n` any-value bytes of the next draw (log 4). -/
def State.freeBytes (s : State) (n : Nat) : List Byte := (List.range n).map (Config.freeByte s.drawCount)

/-- `FlashErase()` (20_memory.md R83). -/
def State.flashErase (s : State) : State :=
  if s.callOk then { s.drawn with flash := s.flash.eraseBelow s.cfg.sectorSize }
  else { s.drawn with flash := s.flash.writeBytes 0 (s.freeBytes s.cfg.sectorSize) }.raiseDiag .flashIo

/-- The bytes `FlashRead(off, n)` returns (R84). -/
def State.flashReadBytes (s : State) (off n : Nat) : List Byte :=
  if s.callOk then s.flash.readBytes off n else s.freeBytes n

/-- The state `FlashRead` leaves (R84): `FLASH` is unchanged. -/
def State.flashReadDone (s : State) : State :=
  if s.callOk then s.drawn else s.drawn.raiseDiag .flashIo

/-- `FlashWrite(off, bytes)` (R85). -/
def State.flashWrite (s : State) (off : Nat) (bytes : List Byte) : State :=
  if s.callOk then { s.drawn with flash := s.flash.writeBytes off (s.flash.programmed off bytes) }
  else { s.drawn with flash := s.flash.writeBytes off (s.freeBytes bytes.length) }.raiseDiag .flashIo

/-- `FlashWrite(off, bytes)` cut short by loss of power after `words` words (70_reset_and_hazards.md R305; log 19). -/
def State.flashWriteTorn (s : State) (off : Nat) (bytes : List Byte) (words : Nat) : State :=
  let free := s.freeBytes bytes.length
  if s.callOk then { s.drawn with flash := s.flash.writeBytes off (s.flash.tornBytes off bytes words free) }
  else { s.drawn with flash := s.flash.writeBytes off free }

/-- `FlashErase()` cut short by loss of power: every byte of the sector is any value (R305). -/
def State.flashEraseTorn (s : State) : State :=
  { s.drawn with flash := s.flash.writeBytes 0 (s.freeBytes s.cfg.sectorSize) }

/-- The device address of offset `off` of the sector (10_state.md R53, 20_memory.md R81). -/
def flashAddress (cfg : Config) (off : Nat) : Nat := cfg.cfgBase + off

/-- What 20_memory.md R74 and R75 ask of a flash call at offset `off` of `n` bytes. -/
def flashCallOk (cfg : Config) (off n : Nat) : Bool :=
  off % 4 == 0 && n % 4 == 0 && decide (0 < n) && decide (off + n ≤ cfg.sectorSize)

end Sys2Proof.Machine
end

