-- ==== Sys2Proof/Machine/Encoder.lean ====
section
/-! DEFINITION. The Protocol Encoder (40_protocol_encoder.md) and the command ENCODE. -/

namespace Sys2Proof.Machine

/-- `FAN_CODE[l]` (00_scope.md R9). -/
def fanNibble (c : Config) : FanLevel → BitVec 4
  | .low => c.fanCode.low
  | .medium => c.fanCode.medium
  | .high => c.fanCode.high
  | .auto => c.fanCode.auto
  | .off => c.fanCode.off

/-- `MODE_CODE[m]` (R9). -/
def modeNibble (c : Config) : Mode → BitVec 4
  | .auto => c.modeCode.auto
  | .cool => c.modeCode.cool
  | .heat => c.modeCode.heat
  | .fan => c.modeCode.fan

/-- The temperature nibble when enabled: the offset from 17 °C inside 17..30, compared as signed integers, else the
fallback (40_protocol_encoder.md R132, C15). -/
def tempNibble (temp : Word) : BitVec 4 :=
  if Config.tempMin ≤ temp.toInt ∧ temp.toInt ≤ Config.tempMax then
    BitVec.ofInt 4 (temp.toInt - Config.tempMin)
  else Config.tempFallback

/-- The four nibbles of a packet. -/
structure Nibbles where
  fan     : BitVec 4
  state   : BitVec 4
  temp    : BitVec 4
  command : BitVec 4
  deriving DecidableEq, Repr

/-- The nibbles of a DeviceState (R131, R132 when enabled, R133 when not). -/
def nibblesOf (c : Config) (d : DeviceState) : Nibbles :=
  if d.en then
    { fan := fanNibble c d.fan, state := c.stateOnCode, temp := tempNibble d.temp, command := modeNibble c d.mode }
  else
    { fan := c.fanOffCode, state := c.stateOffCode, temp := c.tempOffSentinel, command := 0 }

/-- A byte from its high and its low nibble, by shift and mask (R134). -/
def packByte (hi lo : BitVec 4) : Byte :=
  ((hi.setWidth 8 &&& 0x0F) <<< 4) ||| (lo.setWidth 8 &&& 0x0F)

/-- `pack(f, st, t, c)` (R134; layout 30_encoding.md R107). -/
def pack (n : Nibbles) : Packet :=
  { p0 := Config.magic, p1 := packByte n.state n.fan, p2 := packByte n.command n.temp }

/-- `frame_of(p)` (R135). -/
def frameOf (p : Packet) : Frame :=
  { f0 := p.p0, f1 := ~~~p.p0, f2 := p.p1, f3 := ~~~p.p1, f4 := p.p2, f5 := ~~~p.p2 }

/-- The packet that `encode` gives for a DeviceState (R130). -/
def encodePacket (c : Config) (d : DeviceState) : Packet := pack (nibblesOf c d)

/-- `(p, fr) = encode(DeviceState); PACKET <- p; FRAME <- fr` (R136). -/
def State.latchFrame (s : State) : State :=
  { s with packet := encodePacket s.cfg s.dev, frame := frameOf (encodePacket s.cfg s.dev) }

/-- ENCODE (R136). -/
def execEncode (s : State) : Host.Outcome State Fault Refusal := .next s.latchFrame

end Sys2Proof.Machine
end

