-- ==== Sys2Proof/Machine/Waveform.lean ====
section
/-! DEFINITION. The Waveform Generator (41_waveform_generator.md): `build`, the command SEND in its two modes, and
the TICK step. -/

namespace Sys2Proof.Machine

/-! ## Building the PulseBuffer -/

/-- The bytes of a frame in index order. -/
def Frame.bytes (f : Frame) : List Byte := [f.f0, f.f1, f.f2, f.f3, f.f4, f.f5]

/-- The bits of a byte in the order they go out, bit 7 first (20_memory.md R73). -/
def byteBits (b : Byte) : List Bool :=
  [b.getLsbD 7, b.getLsbD 6, b.getLsbD 5, b.getLsbD 4, b.getLsbD 3, b.getLsbD 2, b.getLsbD 1, b.getLsbD 0]

/-- The 48 bits of a frame in the order they go out. -/
def Frame.bits (f : Frame) : List Bool := f.bytes.flatMap byteBits

/-- The slots of one bit cell (R150): one high, then one low for a 0 bit, three for a 1 bit. -/
def bitCell (b : Bool) : List Bool := if b then [true, false, false, false] else [true, false]

/-- The slots of the PulseBuffer for a frame (R150, 30_encoding.md R110). -/
def pulseSlots (c : Config) (f : Frame) : List Bool :=
  List.replicate Config.startHigh true ++ List.replicate Config.startLow false ++
  f.bits.flatMap bitCell ++
  List.replicate Config.stopHighSlots true ++ List.replicate c.stopLowSlots false

/-- `build(f)` (R150): the first slots are rewritten, the others keep their values. -/
def Generator.build (c : Config) (f : Frame) (g : Generator) : Generator :=
  { g with
    pb := pulseSlots c f ++ g.pb.drop (pulseSlots c f).length
    pbLen := BitVec.ofNat 12 (pulseSlots c f).length }

/-! ## SEND -/

/-- The first lines of every SEND: log an abort if a transmission was running, disable the timer, drive the pin low
(R155, R170). -/
def Generator.stop (g : Generator) : Generator :=
  { (if g.timerEn then g.emit .abort else g) with timerEn := false, pin := false }

/-- Steps 3 to 6 of the interrupt-driven SEND (R155). -/
def Generator.restart (c : Config) (f : Frame) (g : Generator) : Generator :=
  { g.build c f with curSlot := 0, curSub := 0, repeatCnt := Config.repeats, timerEn := true }

/-- SEND with `CTRL.BLK = 0` (R155). -/
def State.sendInterrupt (s : State) : State :=
  let s1 := { s with gen := s.gen.stop }.latchFrame
  { s1 with gen := s1.gen.restart s1.cfg s1.frame }

/-- The intervals of one bit in blocking mode, as (gate, microseconds) (R170). -/
def bitSegments (c : Config) (b : Bool) : List (Bool × Nat) :=
  [(true, c.tUs), (false, if b then 3 * c.tUs else c.tUs)]

/-- The 48 bits of a frame and the stop bit (R170). -/
def frameSegments (c : Config) (f : Frame) : List (Bool × Nat) :=
  f.bits.flatMap (bitSegments c) ++ [(true, Config.stopHighSlots * c.tUs)]

/-- The intervals of a whole blocking transmission: start condition, frame, gap, the same frame once more (R170, C6). -/
def transmissionSegments (c : Config) (f : Frame) : List (Bool × Nat) :=
  [(true, Config.startHigh * c.tUs), (false, Config.startLow * c.tUs)] ++ frameSegments c f ++
  [(false, Config.gapOffUs), (true, Config.gapOnUs), (false, Config.gapOff2Us)] ++ frameSegments c f

/-- `PWM_GATE <- gate`, held for `us` microseconds (R170, 10_state.md R52). -/
def Generator.emitSegment (g : Generator) (seg : Bool × Nat) : Generator :=
  { g with pwmGate := seg.1 }.emit (.seg seg.1 seg.2)

/-- SEND with `CTRL.BLK = 1` (R170). -/
def State.sendBlocking (s : State) : State :=
  let s1 := { s with gen := s.gen.stop }.latchFrame
  { s1 with gen := { (transmissionSegments s1.cfg s1.frame).foldl Generator.emitSegment s1.gen with pwmGate := false } }

/-- `CTRL.BLK`: hardwired to 0 where there is no blocking mode (10_state.md R41). -/
def State.blocking (s : State) : Bool := s.cfg.hasBlocking && s.ctrlBlk

/-- SEND, in the mode `CTRL.BLK` selects when it starts (R154). -/
def State.send (s : State) : State := if s.blocking then s.sendBlocking else s.sendInterrupt

/-- SEND (R154). -/
def execSend (s : State) : Host.Outcome State Fault Refusal := .next s.send

/-- The level on the physical pin while the PWM carrier is at `carrier` (10_state.md R37). -/
def Generator.physicalPin (g : Generator) (carrier : Bool) : Bool := g.pin || (g.pwmGate && carrier)

/-! ## The TICK step -/

/-- The level a tick drives: high only on an even sub-tick of a high slot (R160). A slot past the end of `PB`, which
no run reaches, counts as low (log 14). -/
def Generator.level (g : Generator) : Bool :=
  g.curSub.toNat % 2 == 0 && g.pb.getD g.curSlot.toNat false

/-- The end of a pass: "the buffer is exhausted" (R160). -/
def Generator.endPass (g : Generator) : Generator :=
  let g1 := { g with repeatCnt := g.repeatCnt - 1 }
  if g1.repeatCnt = 0 then { g1 with timerEn := false, pin := false } else { g1 with curSlot := 0 }

/-- The end of a slot: the sub-tick counter reached `N_SUB` (R160). -/
def Generator.endSlot (g : Generator) : Generator :=
  let g1 := { g with curSub := 0, curSlot := g.curSlot + 1 }
  if g1.curSlot = g1.pbLen then g1.endPass else g1

/-- The TICK step (R160). -/
def Generator.tick (nSub : Nat) (g : Generator) : Generator :=
  let g1 := { { g with pin := g.level }.emit (.tick g.level) with curSub := g.curSub + 1 }
  if g1.curSub.toNat = nSub then g1.endSlot else g1

/-- The carrier timer fires: a TICK step, or nothing while `TIMER_EN = 0` (R161). -/
def State.timerFires (s : State) : State :=
  if s.gen.timerEn then { s with gen := s.gen.tick s.cfg.nSub } else s

end Sys2Proof.Machine
end

