-- ==== Sys2Proof/Machine/Interpreter.lean ====
section
/-! DEFINITION. The Command Interpreter (43_command_interpreter.md): the vocabulary commands and the treatment of
unrecognised opcodes. -/

namespace Sys2Proof.Machine

/-- The trigger: a mutation of the DeviceState, then SEND (R249). -/
def State.mutateAndSend (s : State) (d : DeviceState) : State := { s with dev := d }.send

/-- ON (R241). -/
def execOn (s : State) : Host.Outcome State Fault Refusal := .next (s.mutateAndSend { s.dev with en := true })

/-- OFF (R242). -/
def execOff (s : State) : Host.Outcome State Fault Refusal := .next (s.mutateAndSend { s.dev with en := false })

/-- AUTO (R243): the mode, not the fan level. -/
def execAuto (s : State) : Host.Outcome State Fault Refusal := .next (s.mutateAndSend { s.dev with mode := .auto })

/-- COOL (R244). -/
def execCool (s : State) : Host.Outcome State Fault Refusal := .next (s.mutateAndSend { s.dev with mode := .cool })

/-- HEAT (R245). -/
def execHeat (s : State) : Host.Outcome State Fault Refusal := .next (s.mutateAndSend { s.dev with mode := .heat })

/-- TEMP (R246): every `i32` is stored as it is. -/
def execTemp (arg : Word) (s : State) : Host.Outcome State Fault Refusal :=
  .next (s.mutateAndSend { s.dev with temp := BitVec.ofInt 32 (signedOperand arg) })

/-- FAN_LEVEL (R247): an ordinal 0..4 is stored and sent, any other operand is rejected. -/
def execFanLevel (arg : Word) (s : State) : Host.Outcome State Fault Refusal :=
  match fanOfOrdinal (signedOperand arg) with
  | some l => .next (s.mutateAndSend { s.dev with fan := l })
  | none => .next (s.raiseDiag .argRange)

/-- MOVE (R248): no effect at all. -/
def execMove (s : State) : Host.Outcome State Fault Refusal := .next s

/-- An unrecognised opcode (R250): a diagnostic and nothing else. -/
def execUnrecognised (_op : Byte) (s : State) : Host.Outcome State Fault Refusal := .next (s.raiseDiag .unrecCmd)

end Sys2Proof.Machine
end

