-- ==== Sys2Proof/Machine/Store.lean ====
section
/-! DEFINITION. The Configuration Store (42_config_store.md): helpers, the flash micro-steps of CFG_WRITE and CFG_READ
(20_memory.md R93), and the four store commands. -/

namespace Sys2Proof.Machine

/-! ## Helpers -/

/-- `align_up(n)` (R190). -/
def alignUp (n : Nat) : Nat := (n + 3) - (n + 3) % 4

/-- `item_size(L)` (R191). -/
def itemSize (len : Nat) : Nat := 4 + alignUp len

/-- Flash bytes the first `n` slots of a table occupy: `total` (R200). -/
def imageTotal (items : List Item) (n : Nat) : Nat :=
  ((items.take n).map (fun it => itemSize it.len.toNat)).sum

/-- `CKSUM` (R192). -/
def checksum : Cksum → List Byte → BitVec 16
  | .zero, _ => 0
  | .additive, bytes => bytes.foldl (fun acc b => acc + b.setWidth 16) 0
  | .other k, bytes => Config.cksumOther k bytes

/-- The two bytes of a `u16` field, low byte first (20_memory.md R71). -/
def halfBytes (v : BitVec 16) : List Byte := [v.extractLsb' 0 8, v.extractLsb' 8 8]

/-- The `u16` field with low byte `lo` and high byte `hi` (R71). -/
def halfOf (lo hi : Byte) : BitVec 16 := hi ++ lo

/-- The blob of a slot: `DATA[0 .. LEN-1]`. -/
def Item.blob (it : Item) : List Byte := it.data.readBytes 0 it.len.toNat

/-- The main header of an image of `total` bytes (30_encoding.md R111). -/
def mainHeader (total : Nat) : List Byte := halfBytes Config.signature ++ halfBytes (BitVec.ofNat 16 total)

/-- The data header of a slot (R112). -/
def dataHeader (it : Item) (ck : BitVec 16) : List Byte := [it.id, it.len.setWidth 8] ++ halfBytes ck

/-- The aligned data of a slot: the blob and its padding (R112). -/
def paddedBlob (it : Item) : List Byte :=
  it.blob ++ List.replicate (alignUp it.len.toNat - it.len.toNat) Config.padByte

/-- The bytes a failed item leaves in `DATA`: any value (R213; log 4). -/
def State.freeData (s : State) : Memory := Memory.writeBytes [] 0 (s.freeBytes 256)

/-! ## The flash calls of a command in flight -/

/-- Offset and size in bytes of the flash call a job makes next. -/
def Job.target (s : State) : Job → Nat × Nat
  | .writeErase _ => (0, s.cfg.sectorSize)
  | .writeMain _ => (0, 4)
  | .writeHeader _ _ off => (off, 4)
  | .writeData _ i off => (off + 4, alignUp (s.item i).len.toNat)
  | .readMain _ => (0, 4)
  | .readHeader _ _ off _ => (off, 4)
  | .readData _ _ off _ _ len _ => (off + 4, alignUp len.toNat)

/-- Whether the next flash call of a job is one 20_memory.md R75 gives a meaning. -/
def Job.targetOk (s : State) (j : Job) : Bool := flashCallOk s.cfg (j.target s).1 (j.target s).2

/-- The bytes that the next flash call of a write job programs (R201); no other job programs any. -/
def Job.program (s : State) : Job → List Byte
  | .writeErase _ => []
  | .writeMain n => mainHeader (imageTotal s.items n)
  | .writeHeader _ i _ => dataHeader (s.item i) (checksum s.cfg.cksum (s.item i).blob)
  | .writeData _ i _ => paddedBlob (s.item i)
  | .readMain _ => []
  | .readHeader _ _ _ _ => []
  | .readData _ _ _ _ _ _ _ => []

/-! ## CFG_WRITE -/

/-- The three checks of R200, in its order. -/
def writeAccepted (s : State) (n : Nat) : Bool :=
  decide (n ≤ s.cfg.maxItems) &&
  (s.items.take n).all (fun it => decide (it.len.toNat ≤ 255)) &&
  decide (4 + imageTotal s.items n ≤ s.cfg.sectorSize)

/-- CFG_WRITE refused (R200). -/
def State.refuseWrite (s : State) : State := { s with wrErr := true }.raiseDiag .wrRefused

/-- The end of CFG_WRITE (R201). -/
def State.finishWrite (s : State) : State := { s with wrErr := false, job := none }

/-- CFG_WRITE goes on to item `i`, at offset `off`, or ends (R201). -/
def State.nextWrite (s : State) (n i off : Nat) : State :=
  if i < n then { s with job := some (.writeHeader n i off) } else s.finishWrite

/-- `ITEM[i].CKSUM <- CKSUM(DATA[0 .. L-1])` (R201). -/
def State.latchChecksum (s : State) (i : Nat) : State :=
  s.putItem i { s.item i with cksum := checksum s.cfg.cksum (s.item i).blob }

/-! ## CFG_READ -/

/-- CFG_READ is refused while a slot it may fill holds an unfreed blob (R209). -/
def readBusy (s : State) (lim : Nat) : Bool := (s.items.take lim).any (fun it => it.alloc)

/-- CFG_READ refused (R209). -/
def State.refuseRead (s : State) : State := { s with rdCount := 0, rdEmpty := false }.raiseDiag .rdBusy

/-- `STATUS.RD_COUNT <- i`; the command is over (R211). -/
def State.finishRead (s : State) (i : Nat) : State := { s with rdCount := BitVec.ofNat 8 i, job := none }

/-- The loop ended without an abort: the length check (R215), then the end. -/
def State.closeRead (s : State) (i : Nat) (remaining : Int) : State :=
  if remaining ≠ 0 then (s.raiseDiag .lenMismatch).finishRead i else s.finishRead i

/-- The head of the item loop (R211), with the sector bound of the next header (R212). -/
def State.nextRead (s : State) (lim i off : Nat) (remaining : Int) : State :=
  if 0 < remaining ∧ i < lim then
    if s.cfg.sectorSize < off + 4 then (s.raiseDiag .bounds).finishRead i
    else { s with job := some (.readHeader lim i off remaining) }
  else s.closeRead i remaining

/-- Slot `i` after a checksum mismatch (R213). -/
def State.discardItem (s : State) (i : Nat) (id : Byte) (ck : BitVec 16) : State :=
  { s.advanced with
    items := s.items.set i { alloc := false, id := id, len := 0, cksum := ck, data := s.freeData } }.raiseDiag .cksumFail

/-- Slot `i` filled with a verified item (R214): `DATA[L .. 255]` keeps its old bytes. -/
def State.fillItem (s : State) (i : Nat) (id len : Byte) (ck : BitVec 16) (blob : List Byte) : State :=
  s.putItem i
    { alloc := true, id := id, len := len.setWidth 16, cksum := ck, data := (s.item i).data.writeBytes 0 blob }

/-- The checksum test of an item whose aligned data are `data` (R211, R213, R214). -/
def State.verifyItem (s : State) (lim i off : Nat) (remaining : Int) (id len : Byte) (ck : BitVec 16)
    (data : List Byte) : State :=
  let blob := data.take len.toNat
  if checksum s.cfg.cksum blob = ck then
    (s.fillItem i id len ck blob).nextRead lim (i + 1) (off + itemSize len.toNat)
      (remaining - (itemSize len.toNat : Nat))
  else (s.discardItem i id ck).finishRead i

/-- After the main header `h` (R210). -/
def State.afterMain (s : State) (lim : Nat) (h : List Byte) : State :=
  if halfOf (h.getD 0 0) (h.getD 1 0) = Config.signature then
    { s with rdEmpty := false }.nextRead lim 0 4 ((halfOf (h.getD 2 0) (h.getD 3 0)).toNat : Nat)
  else { s with rdEmpty := true, rdCount := 0, job := none }

/-- After the data header `d` of slot `i` (R211), with the sector bound of the data (R212). -/
def State.afterHeader (s : State) (lim i off : Nat) (remaining : Int) (d : List Byte) : State :=
  let id := d.getD 0 0
  let len := d.getD 1 0
  let ck := halfOf (d.getD 2 0) (d.getD 3 0)
  if s.cfg.sectorSize < off + itemSize len.toNat then (s.raiseDiag .bounds).finishRead i
  else if 0 < alignUp len.toNat then { s with job := some (.readData lim i off remaining id len ck) }
  else s.verifyItem lim i off remaining id len ck []

/-! ## Micro-steps -/

/-- One micro-step: the next flash call of job `j` and the work up to the call after it (20_memory.md R93;
42_config_store.md R201, R210, R211). -/
def State.microStep (s : State) (j : Job) : State :=
  match j with
  | .writeErase n => { s.flashErase with job := some (.writeMain n) }
  | .writeMain n => (s.flashWrite 0 (j.program s)).nextWrite n 0 4
  | .writeHeader n i off =>
    let s1 := (s.latchChecksum i).flashWrite off (j.program s)
    if 0 < alignUp (s.item i).len.toNat then { s1 with job := some (.writeData n i off) }
    else s1.nextWrite n (i + 1) (off + itemSize (s.item i).len.toNat)
  | .writeData n i off =>
    (s.flashWrite (off + 4) (j.program s)).nextWrite n (i + 1) (off + itemSize (s.item i).len.toNat)
  | .readMain lim => s.flashReadDone.afterMain lim (s.flashReadBytes 0 4)
  | .readHeader lim i off remaining =>
    s.flashReadDone.afterHeader lim i off remaining (s.flashReadBytes off 4)
  | .readData lim i off remaining id len ck =>
    s.flashReadDone.verifyItem lim i off remaining id len ck (s.flashReadBytes (off + 4) (alignUp len.toNat))

/-- The command in flight runs on to its end, for at most `fuel` micro-steps. -/
def State.drain : Nat → State → State
  | 0, s => s
  | fuel + 1, s =>
    match s.job with
    | none => s
    | some j => State.drain fuel (s.microStep j)

/-- A bound on the flash calls of one command: two for each slot and two more (R201, R211). -/
def storeFuel (c : Config) : Nat := 2 * c.maxItems + 2

/-! ## The commands -/

/-- CFG_WRITE up to its first flash call. -/
def State.startWrite (s : State) (arg : Word) : State :=
  if writeAccepted s (countOperand arg) then { s with job := some (.writeErase (countOperand arg)) }
  else s.refuseWrite

/-- CFG_WRITE (R200, R201). -/
def execCfgWrite (arg : Word) (s : State) : Host.Outcome State Fault Refusal :=
  if writeAccepted s (countOperand arg) then .next ((s.startWrite arg).drain (storeFuel s.cfg))
  else .next s.refuseWrite

/-- CFG_READ up to its first flash call. -/
def State.startRead (s : State) (arg : Word) : State :=
  if readBusy s (limitCount s.cfg arg) then s.refuseRead
  else { s with job := some (.readMain (limitCount s.cfg arg)) }

/-- CFG_READ (R209 to R215). -/
def execCfgRead (arg : Word) (s : State) : Host.Outcome State Fault Refusal :=
  if readBusy s (limitCount s.cfg arg) then .next s.refuseRead
  else .next ((s.startRead arg).drain (storeFuel s.cfg))

/-- What freeing does to a slot (R220). -/
def Item.freed (it : Item) : Item := { it with alloc := false, len := 0 }

/-- The first `n` slots freed (R220). -/
def freeSlots : Nat → List Item → List Item
  | _, [] => []
  | 0, items => items
  | n + 1, it :: rest => it.freed :: freeSlots n rest

/-- CFG_FREE (R220). -/
def execCfgFree (arg : Word) (s : State) : Host.Outcome State Fault Refusal :=
  .next { s with items := freeSlots (limitCount s.cfg arg) s.items }

/-- CFG_FREE_ALL (R221). -/
def execCfgFreeAll (s : State) : Host.Outcome State Fault Refusal :=
  .next { s with items := freeSlots s.cfg.maxItems s.items }

end Sys2Proof.Machine
end

