-- ==== Sys2Proof/Syntax.lean ====
section
/-! DEFINITION. The commands of the block: one constructor per row of spec/opcode_table.json. -/

namespace Sys2Proof

/-- A command (30_encoding.md R102). Formats (R101): `OP0` commands ignore the operand, so their constructors carry
none; `OPI` and `OPU` commands carry the 32 operand bits. `unrecognised` is the table's default row (R104) and
carries the opcode. -/
inductive Instr where
  /-- 0x01 ON, OP0 (R241). -/
  | on
  /-- 0x02 OFF, OP0 (R242). -/
  | off
  /-- 0x03 AUTO, OP0 (R243). -/
  | auto
  /-- 0x04 COOL, OP0 (R244). -/
  | cool
  /-- 0x05 HEAT, OP0 (R245). -/
  | heat
  /-- 0x06 TEMP, OPI (R246). -/
  | temp (arg : Word)
  /-- 0x07 FAN_LEVEL, OPI (R247). -/
  | fanLevel (arg : Word)
  /-- 0x08 MOVE, OP0 (R248). -/
  | move
  /-- 0x10 ENCODE, OP0 (R136). -/
  | encode
  /-- 0x11 SEND, OP0 (R155, R170). -/
  | send
  /-- 0x20 CFG_WRITE, OPU (R200). -/
  | cfgWrite (arg : Word)
  /-- 0x21 CFG_READ, OPU (R210). -/
  | cfgRead (arg : Word)
  /-- 0x22 CFG_FREE, OPU (R220). -/
  | cfgFree (arg : Word)
  /-- 0x23 CFG_FREE_ALL, OP0 (R221). -/
  | cfgFreeAll
  /-- Any other opcode (R250). -/
  | unrecognised (op : Byte)
  deriving DecidableEq, Repr

end Sys2Proof
end

