-- ==== Sys2Proof/Machine/Dispatch.lean ====
section
/-! DEFINITION. Which meaning each command has (30_encoding.md R102). -/

namespace Sys2Proof.Machine

/-- The effect of one command, run to its end (30_encoding.md R100). -/
def exec (i : Instr) (s : State) : Host.Outcome State Fault Refusal :=
  match i with
  | .on => Sys2Proof.Machine.execOn s
  | .off => Sys2Proof.Machine.execOff s
  | .auto => Sys2Proof.Machine.execAuto s
  | .cool => Sys2Proof.Machine.execCool s
  | .heat => Sys2Proof.Machine.execHeat s
  | .temp arg => Sys2Proof.Machine.execTemp arg s
  | .fanLevel arg => Sys2Proof.Machine.execFanLevel arg s
  | .move => Sys2Proof.Machine.execMove s
  | .encode => Sys2Proof.Machine.execEncode s
  | .send => Sys2Proof.Machine.execSend s
  | .cfgWrite arg => Sys2Proof.Machine.execCfgWrite arg s
  | .cfgRead arg => Sys2Proof.Machine.execCfgRead arg s
  | .cfgFree arg => Sys2Proof.Machine.execCfgFree arg s
  | .cfgFreeAll => Sys2Proof.Machine.execCfgFreeAll s
  | .unrecognised op => Sys2Proof.Machine.execUnrecognised op s

end Sys2Proof.Machine
end

