-- ==== Sys2Proof/WellFormed.lean ====
section
/-! DEFINITION. Which terms of `Instr` a command word can hold. -/

namespace Sys2Proof

/-- The fourteen opcodes of 30_encoding.md R102. -/
def definedOpcodes : List Byte :=
  [0x01, 0x02, 0x03, 0x04, 0x05, 0x06, 0x07, 0x08, 0x10, 0x11, 0x20, 0x21, 0x22, 0x23]

/-- An `unrecognised` command carries one of the 242 undefined opcodes (R104); every other term is well formed. -/
def Instr.wf : Instr → Bool
  | .on => true
  | .off => true
  | .auto => true
  | .cool => true
  | .heat => true
  | .temp _ => true
  | .fanLevel _ => true
  | .move => true
  | .encode => true
  | .send => true
  | .cfgWrite _ => true
  | .cfgRead _ => true
  | .cfgFree _ => true
  | .cfgFreeAll => true
  | .unrecognised op => !definedOpcodes.contains op

end Sys2Proof
end

