-- ==== Sys2Proof/Decode.lean ====
section
/-! DEFINITION. The command word (30_encoding.md R100 to R105): decoder, encoder, and the numbering of
spec/opcode_table.json. -/

namespace Sys2Proof

/-- The value of four bytes, least significant first (R105, 20_memory.md R72). -/
def wordOfBytes (b0 b1 b2 b3 : Byte) : Word := b3 ++ b2 ++ b1 ++ b0

/-- Byte `k` of a word, byte 0 least significant (R72). -/
def byteOfWord (w : Word) (k : Nat) : Byte := w.extractLsb' (8 * k) 8

/-- The command that opcode `op` selects (R102); its operand is `arg` where the format reads one (R101). -/
def decodeCommand (op : Byte) (arg : Word) : Instr :=
  if op = 0x01 then .on
  else if op = 0x02 then .off
  else if op = 0x03 then .auto
  else if op = 0x04 then .cool
  else if op = 0x05 then .heat
  else if op = 0x06 then .temp arg
  else if op = 0x07 then .fanLevel arg
  else if op = 0x08 then .move
  else if op = 0x10 then .encode
  else if op = 0x11 then .send
  else if op = 0x20 then .cfgWrite arg
  else if op = 0x21 then .cfgRead arg
  else if op = 0x22 then .cfgFree arg
  else if op = 0x23 then .cfgFreeAll
  else .unrecognised op

/-- Why a byte stream is no command record. -/
inductive DecodeError where
  /-- Fewer than five bytes (R100: "Every command is exactly 40 bits"). -/
  | truncatedRecord
  deriving DecidableEq, Repr

/-- The first command of a stream of 5-byte records and the rest of the stream (R105). Total: every opcode has a
command (R104), and a stream with fewer than five bytes is rejected by name. -/
def decode : List Byte → Except DecodeError (Instr × List Byte)
  | op :: a0 :: a1 :: a2 :: a3 :: rest => .ok (decodeCommand op (wordOfBytes a0 a1 a2 a3), rest)
  | _ => .error .truncatedRecord

/-- The opcode of a command (R102). -/
def Instr.opcode : Instr → Byte
  | .on => 0x01
  | .off => 0x02
  | .auto => 0x03
  | .cool => 0x04
  | .heat => 0x05
  | .temp _ => 0x06
  | .fanLevel _ => 0x07
  | .move => 0x08
  | .encode => 0x10
  | .send => 0x11
  | .cfgWrite _ => 0x20
  | .cfgRead _ => 0x21
  | .cfgFree _ => 0x22
  | .cfgFreeAll => 0x23
  | .unrecognised op => op

/-- The operand field of a command; the ignored operand of a command without one is encoded as 0 (log 13). -/
def Instr.operand : Instr → Word
  | .on => 0
  | .off => 0
  | .auto => 0
  | .cool => 0
  | .heat => 0
  | .temp arg => arg
  | .fanLevel arg => arg
  | .move => 0
  | .encode => 0
  | .send => 0
  | .cfgWrite arg => arg
  | .cfgRead arg => arg
  | .cfgFree arg => arg
  | .cfgFreeAll => 0
  | .unrecognised _ => 0

/-- The 5-byte record of a command (R105). -/
def encode (i : Instr) : List Byte :=
  [i.opcode, byteOfWord i.operand 0, byteOfWord i.operand 1, byteOfWord i.operand 2, byteOfWord i.operand 3]

/-- The 40-bit command word `op || arg` (R100). -/
def commandWord (i : Instr) : BitVec 40 := i.opcode ++ i.operand

/-- The opcode field `CW[39:32]` of a command word given as a number (R100). -/
def opcodeField (cw : Nat) : Byte := BitVec.ofNat 8 (cw / 2 ^ 32)

/-- The operand field `CW[31:0]` of a command word given as a number (R100). -/
def operandField (cw : Nat) : Word := BitVec.ofNat 32 cw

/-- The stream record (R105) of a command word given as a number. -/
def recordOfWord (cw : Nat) : List Byte :=
  [opcodeField cw, byteOfWord (operandField cw) 0, byteOfWord (operandField cw) 1,
    byteOfWord (operandField cw) 2, byteOfWord (operandField cw) 3]

/-- The low `nbits` bits of a table word, the bits above them 0. -/
def tableWord (nbits w : Nat) : Nat := w % 2 ^ nbits

/-- The command the decoder reads from a table row's word: spec/opcode_table.json numbers a row's bits as the one
40-bit word of R100, bit 0 the least significant bit of `arg`. A word of more than 40 bits is none. -/
def decodeTableWord (nbits w : Nat) : Option Instr :=
  if nbits ≤ 40 then
    match decode (recordOfWord (tableWord nbits w)) with
    | .ok (i, _) => some i
    | .error _ => none
  else none

end Sys2Proof
end

