-- ==== Sys2Proof/Machine/Registers.lean ====
section
/-! DEFINITION. The host register map as a view of the state (10_state.md R24, R40 to R48). -/

namespace Sys2Proof.Machine

/-- A register of the map (R40). `itemData k` and `pbWord k` are word `k` of their windows. -/
inductive Reg where
  | ctrl | status | diag | cmdArg | cmdOp
  | devEn | devMode | devTemp | devFan
  | packet | frameLo | frameHi
  | pbLen | curSlot | curSub | repeatCnt
  | itemSel | itemId | itemLen | itemCksum | itemAlloc
  | itemData (k : Nat)
  | pbWord (k : Nat)
  | reserved
  deriving DecidableEq, Repr

/-- The register at a byte offset that is a multiple of 4 (R40). -/
def regOfOffset (off : Nat) : Reg :=
  if off = 0x000 then .ctrl
  else if off = 0x004 then .status
  else if off = 0x008 then .diag
  else if off = 0x00C then .cmdArg
  else if off = 0x010 then .cmdOp
  else if off = 0x014 then .devEn
  else if off = 0x018 then .devMode
  else if off = 0x01C then .devTemp
  else if off = 0x020 then .devFan
  else if off = 0x024 then .packet
  else if off = 0x028 then .frameLo
  else if off = 0x02C then .frameHi
  else if off = 0x030 then .pbLen
  else if off = 0x034 then .curSlot
  else if off = 0x038 then .curSub
  else if off = 0x03C then .repeatCnt
  else if off = 0x040 then .itemSel
  else if off = 0x044 then .itemId
  else if off = 0x048 then .itemLen
  else if off = 0x04C then .itemCksum
  else if off = 0x050 then .itemAlloc
  else if 0x100 ≤ off ∧ off < 0x200 then .itemData ((off - 0x100) / 4)
  else if 0x200 ≤ off ∧ off < 0x300 then .pbWord ((off - 0x200) / 4)
  else .reserved

/-- Whether `ITEM_SEL` selects a slot of the table (R46). -/
def State.itemSelected (s : State) : Bool := decide (s.itemSel.toNat < s.cfg.maxItems)

/-- The slot that `ITEM_SEL` selects (R46). -/
def State.selectedItem (s : State) : Item := s.item s.itemSel.toNat

/-- A field of the item window: 0 while no slot is selected (R46). -/
def State.itemField (s : State) (f : Item → Word) : Word := if s.itemSelected then f s.selectedItem else 0

/-- A write to the item window: ignored while no slot is selected (R46). -/
def State.writeItemField (s : State) (f : Item → Item) : State :=
  if s.itemSelected then s.putItem s.itemSel.toNat (f s.selectedItem) else s

/-- Word `k` of the data window of a slot (R40, 20_memory.md R72). -/
def dataWord (it : Item) (k : Nat) : Word :=
  wordOfBytes (it.data.read (4 * k)) (it.data.read (4 * k + 1)) (it.data.read (4 * k + 2)) (it.data.read (4 * k + 3))

/-- A slot with word `k` of its data window written: four bytes (R46). -/
def Item.writeDataWord (it : Item) (k : Nat) (v : Word) : Item :=
  { it with data := it.data.writeBytes (4 * k) [byteOfWord v 0, byteOfWord v 1, byteOfWord v 2, byteOfWord v 3] }

/-- Word `k` of the PulseBuffer window: bit `b` is slot `32 k + b`, 0 from `PB_CAP` on (R47). -/
def pulseWord (c : Config) (pb : List Bool) (k : Nat) : Word :=
  BitVec.ofNat 32 ((List.range 32).foldr
    (fun b acc => 2 * acc + (if 32 * k + b < c.pbCap ∧ pb.getD (32 * k + b) false then 1 else 0)) 0)

/-- `RegRead` of a register (R24, R40): narrower registers sit in the low bits. No read has a side effect (R48). -/
def State.readReg (s : State) : Reg → Word
  | .ctrl => flagAt s.blocking 0
  | .status => statusWord s.gen.timerEn s.gen.pin s.wrErr s.rdEmpty s.rdCount
  | .diag => s.diag.setWidth 32
  | .cmdArg => s.cmdArg
  | .cmdOp => 0
  | .devEn => flagAt s.dev.en 0
  | .devMode => (modeOrdinal s.dev.mode).setWidth 32
  | .devTemp => s.dev.temp
  | .devFan => (fanOrdinal s.dev.fan).setWidth 32
  | .packet => wordOfBytes s.packet.p0 s.packet.p1 s.packet.p2 0
  | .frameLo => wordOfBytes s.frame.f0 s.frame.f1 s.frame.f2 s.frame.f3
  | .frameHi => wordOfBytes s.frame.f4 s.frame.f5 0 0
  | .pbLen => s.gen.pbLen.setWidth 32
  | .curSlot => s.gen.curSlot.setWidth 32
  | .curSub => s.gen.curSub.setWidth 32
  | .repeatCnt => s.gen.repeatCnt.setWidth 32
  | .itemSel => s.itemSel.setWidth 32
  | .itemId => s.itemField (fun it => it.id.setWidth 32)
  | .itemLen => s.itemField (fun it => it.len.setWidth 32)
  | .itemCksum => s.itemField (fun it => it.cksum.setWidth 32)
  | .itemAlloc => s.itemField (fun it => flagAt it.alloc 0)
  | .itemData k => s.itemField (fun it => dataWord it k)
  | .pbWord k => pulseWord s.cfg s.gen.pb k
  | .reserved => 0

/-- `RegWrite` of a register (R24, R40): a narrower register keeps the low bits; read-only and reserved registers
ignore writes (R48). The write to `CMD_OP`, which issues a command, is `State.writePort` (Machine/Schedule.lean). -/
def State.writeReg (s : State) (r : Reg) (v : Word) : State :=
  match r with
  | .ctrl => if s.cfg.hasBlocking then { s with ctrlBlk := v.getLsbD 0 } else s
  | .status => s
  | .diag => { s with diag := clearDiag s.diag v }
  | .cmdArg => { s with cmdArg := v }
  | .cmdOp => s
  | .devEn => s
  | .devMode => s
  | .devTemp => s
  | .devFan => s
  | .packet => s
  | .frameLo => s
  | .frameHi => s
  | .pbLen => s
  | .curSlot => s
  | .curSub => s
  | .repeatCnt => s
  | .itemSel => { s with itemSel := v.setWidth 8 }
  | .itemId => s.writeItemField (fun it => { it with id := v.setWidth 8 })
  | .itemLen => s.writeItemField (fun it => { it with len := v.setWidth 16 })
  | .itemCksum => s
  | .itemAlloc => s
  | .itemData k => s.writeItemField (fun it => it.writeDataWord k v)
  | .pbWord _ => s
  | .reserved => s

/-- The size of the register space in bytes (20_memory.md R70). -/
def registerSpace : Nat := 0x400

/-- The register that an access of `width` bits at bus address `addr` reaches, or why it has no meaning (R24; log 11). -/
def decodeAccess (c : Config) (addr width : Nat) : Except Refusal Reg :=
  if width ≠ 32 then .error .accessWidth
  else if addr < c.regBase ∨ c.regBase + registerSpace ≤ addr then .error .outsideRegisterSpace
  else if (addr - c.regBase) % 4 ≠ 0 then .error .misalignedAccess
  else .ok (regOfOffset (addr - c.regBase))

end Sys2Proof.Machine
end

