-- ==== Sys2Proof/Machine/Reset.lean ====
section
/-! DEFINITION. Reset and loss of power (70_reset_and_hazards.md R300 to R307). -/

namespace Sys2Proof.Machine

/-- What loss of power inside the next flash call of job `j`, after `words` of its words, does to `FLASH` (R305).
A read changes nothing (R307). -/
def State.tearCall (s : State) (j : Job) (words : Nat) : State :=
  match j with
  | .writeErase _ => s.flashEraseTorn
  | .writeMain _ => s.flashWriteTorn 0 (j.program s) words
  | .writeHeader _ _ off => s.flashWriteTorn off (j.program s) words
  | .writeData _ _ off => s.flashWriteTorn (off + 4) (j.program s) words
  | .readMain _ => s
  | .readHeader _ _ _ _ => s
  | .readData _ _ _ _ _ _ _ => s

/-- What is left of the command in flight: nothing, or what the interrupted flash call did (R305). -/
def State.interrupted (s : State) (torn : Option Nat) : State :=
  match s.job, torn with
  | some j, some words => s.tearCall j words
  | _, _ => s

/-- The `DATA` of slot `i` after a reset: any value (R304; log 4). -/
def State.resetData (s : State) (i : Nat) : Memory :=
  Memory.writeBytes [] 0 ((List.range 256).map (fun k => Config.freeByte s.drawCount (256 * i + k)))

/-- Every piece of state at its reset value, but `FLASH` (R300, R301, 10_state.md R55); `PB` and `DATA` are any value.
The configuration, the host's read value and the agents' future are not the block's and stay. -/
def State.restart (s : State) : State :=
  { State.powerUp s.cfg with
    gen := { Generator.reset s.cfg with pb := (List.range s.cfg.pbCap).map (Config.freeBit s.drawCount) }
    items := (List.range s.cfg.maxItems).map (fun i => { Item.reset with data := s.resetData i })
    flash := s.flash
    rdata := s.rdata
    sched := s.sched
    draws := s.draws
    drawCount := s.drawCount + 1 }

/-- The reset step of ENV (R300): the command in flight is abandoned where it stands. -/
def State.resetBlock (s : State) (torn : Option Nat) : State := (s.interrupted torn).restart

end Sys2Proof.Machine
end

