-- ==== Sys2Proof/Machine/Schedule.lean ====
section
/-! DEFINITION. The agents (00_scope.md R7): what one event of the schedule does. -/

namespace Sys2Proof.Machine

/-- A command issued with other agents' steps inside it (20_memory.md R93): a store command stops before its first
flash call; every other command is one atomic step (R87). -/
def beginCommand (i : Instr) (s : State) : Host.Outcome State Fault Refusal :=
  match i with
  | .cfgWrite arg => .next (s.startWrite arg)
  | .cfgRead arg => .next (s.startRead arg)
  | i => exec i s

/-- A write of `v` to `CMD_OP` (10_state.md R45): the command is `v[7:0]` with the operand `CMD_ARG`. -/
def State.writePort (s : State) (v : Word) (span : Span) : Host.Outcome State Fault Refusal :=
  match span with
  | .whole => exec (decodeCommand (v.setWidth 8) s.cmdArg) s
  | .split => beginCommand (decodeCommand (v.setWidth 8) s.cmdArg) s

/-- A host read (10_state.md R24). -/
def State.hostReads (s : State) (addr width : Nat) : Host.Outcome State Fault Refusal :=
  match decodeAccess s.cfg addr width with
  | .ok r => .next { s with rdata := s.readReg r }
  | .error e => .refused e

/-- A host write (R24, R45). -/
def State.hostWrites (s : State) (addr width : Nat) (v : Word) (span : Span) : Host.Outcome State Fault Refusal :=
  match decodeAccess s.cfg addr width with
  | .ok .cmdOp => s.writePort v span
  | .ok r => .next (s.writeReg r v)
  | .error e => .refused e

/-- The next flash call of the command in flight; a call that 20_memory.md R75 excludes is refused (log 12). -/
def State.makeCall (s : State) (j : Job) : Host.Outcome State Fault Refusal :=
  if j.targetOk s then .next (s.microStep j) else .refused .badFlashCall

/-- An access of the host: while a command is in flight the host is stalled (10_state.md R45), so the command goes on
and the access waits in the schedule (log 20). -/
def State.hostTurn (s : State) (rest : List Event) (access : State → Host.Outcome State Fault Refusal) :
    Host.Outcome State Fault Refusal :=
  match s.job with
  | some j => s.makeCall j
  | none => access { s with sched := rest }

/-- With no event left the block goes on by itself: the command in flight, then the timer while it is enabled, and
otherwise the block waits for the host (70_reset_and_hazards.md R300; log 5). -/
def State.idleTurn (s : State) : Host.Outcome State Fault Refusal :=
  match s.job with
  | some j => s.makeCall j
  | none => .next s.timerFires

/-- One event of the schedule. -/
def State.turn (s : State) : Host.Outcome State Fault Refusal :=
  match s.sched with
  | [] => s.idleTurn
  | .hostRead addr width :: rest => s.hostTurn rest (fun s => s.hostReads addr width)
  | .hostWrite addr width v span :: rest => s.hostTurn rest (fun s => s.hostWrites addr width v span)
  | .tick :: rest => .next { s with sched := rest }.timerFires
  | .flashCall :: rest =>
    match s.job with
    | some j => { s with sched := rest }.makeCall j
    | none => .next { s with sched := rest }
  | .reset torn :: rest => .next ({ s with sched := rest }.resetBlock torn)

/-- The bus address of `CMD_OP` (10_state.md R40). -/
def commandPort (c : Config) : Nat := c.regBase + 0x010

/-- The host about to issue a command word (30_encoding.md R100): `CMD_ARG` holds the operand, the write of the opcode
to `CMD_OP` comes next, and no command is in flight (log 15). -/
def State.placeCommand (s : State) (cw : Nat) : State :=
  { s with
    cmdArg := operandField cw
    job := none
    sched := .hostWrite (commandPort s.cfg) 32 ((opcodeField cw).setWidth 32) .whole :: s.sched }

end Sys2Proof.Machine
end

