-- ==== Sys2Proof/Machine/Step.lean ====
section
/-! DEFINITION. One step of the block. -/

namespace Sys2Proof.Machine

/-- One step of one agent (00_scope.md R7). A configuration that breaks a constraint has no meaning (R10, U22). -/
def step (s : State) : Host.Outcome State Fault Refusal :=
  if legalConfig s.cfg then s.turn else .refused .illegalConfig

/-- The state in which the next step runs the command of a table word (30_encoding.md R100; log 15). -/
def State.withFetchWord (s : State) (nbits w : Nat) : State := s.placeCommand (tableWord nbits w)

end Sys2Proof.Machine
end

