-- ==== Sys2Proof/Safety.lean ====
section
/-! DEFINITION. What the claims speak of: the invariants of the block, and the spec's own pictures of a transmission
and of a flash image. -/

namespace Sys2Proof.Machine

/-! ## Invariants -/

/-- The sequencer (10_state.md R31 to R37; 41_waveform_generator.md R157): `PB` has its capacity, the counters are in
range, the PWM gate is off between steps, while the timer runs there is a slot to emit and a pass to finish, and while
it does not run the pin is low. -/
def seqInv (c : Config) (g : Generator) : Bool :=
  g.pb.length == c.pbCap && decide (g.pbLen.toNat ≤ c.pbCap) && decide (g.curSlot.toNat ≤ g.pbLen.toNat) &&
  decide (g.curSub.toNat < c.nSub) && decide (g.repeatCnt.toNat ≤ 2) && !g.pwmGate &&
  (if g.timerEn then decide (g.curSlot.toNat < g.pbLen.toNat) && decide (1 ≤ g.repeatCnt.toNat) else !g.pin)

/-- Both byte memories keep their canonical form. -/
def memoriesWf (s : State) : Bool := s.flash.wf && s.items.all (fun it => it.data.wf)

/-- The memories have the sizes the configuration gives them (20_memory.md R70). -/
def memoriesSized (s : State) : Bool :=
  s.flash.within s.cfg.sectorSize && s.items.length == s.cfg.maxItems &&
  s.items.all (fun it => it.data.within 256)

/-- The slots that a CFG_READ in flight has still to fill hold no unfreed blob (42_config_store.md R209). -/
def slotsFree (s : State) (i lim : Nat) : Bool :=
  ((s.items.drop i).take (lim - i)).all (fun it => !it.alloc)

/-- A store command in flight is one that was accepted, at an offset its scan can reach (R201, R211). -/
def jobInv (s : State) : Bool :=
  match s.job with
  | none => true
  | some (.writeErase n) => writeAccepted s n
  | some (.writeMain n) => writeAccepted s n
  | some (.writeHeader n i off) => writeAccepted s n && decide (i < n) && off == 4 + imageTotal s.items i
  | some (.writeData n i off) =>
    writeAccepted s n && decide (i < n) && off == 4 + imageTotal s.items i && decide (0 < (s.item i).len.toNat)
  | some (.readMain lim) => decide (lim ≤ s.cfg.maxItems) && slotsFree s 0 lim
  | some (.readHeader lim i off _) =>
    decide (lim ≤ s.cfg.maxItems) && decide (i < lim) && slotsFree s i lim && off % 4 == 0 &&
    decide (off + 4 ≤ s.cfg.sectorSize)
  | some (.readData lim i off _ _ len _) =>
    decide (lim ≤ s.cfg.maxItems) && decide (i < lim) && slotsFree s i lim && off % 4 == 0 &&
    decide (0 < len.toNat) && decide (off + itemSize len.toNat ≤ s.cfg.sectorSize)

/-- Everything the flash calls rest on. -/
def storeInv (s : State) : Bool := memoriesWf s && memoriesSized s && jobInv s

/-- The encoder's latches: at their reset value, or a packet that begins with the magic byte and its frame
(10_state.md R26, R27). -/
def latchInv (s : State) : Bool :=
  (s.packet == { p0 := 0, p1 := 0, p2 := 0 } && s.frame == { f0 := 0, f1 := 0, f2 := 0, f3 := 0, f4 := 0, f5 := 0 }) ||
  (s.packet.p0 == Config.magic && s.frame == frameOf s.packet)

/-- The invariant of the block. -/
def State.inv (s : State) : Bool := legalConfig s.cfg && seqInv s.cfg s.gen && storeInv s && latchInv s

/-! ## Pictures -/

/-- The slots of one pass (30_encoding.md R110): start condition, the 48 bits each as mark and space, stop marker. -/
def slotsOfBits (bits : List Bool) (stopLow : Nat) : List Bool :=
  List.replicate 8 true ++ List.replicate 8 false ++
  bits.flatMap (fun b => true :: List.replicate (if b then 3 else 1) false) ++
  true :: List.replicate stopLow false

/-- The bits of six bytes as they go out: byte 0 first, bit 7 first (20_memory.md R73). -/
def wireBits (bytes : List Byte) : List Bool :=
  bytes.flatMap (fun b => [7, 6, 5, 4, 3, 2, 1, 0].map (fun k => b.getLsbD k))

/-- The generator right after an interrupt-driven SEND of a frame (41_waveform_generator.md R155). -/
def emissionStarted (c : Config) (g : Generator) (f : Frame) : Generator where
  pb        := slotsOfBits (wireBits f.bytes) c.stopLowSlots ++ g.pb.drop (161 + c.stopLowSlots)
  pbLen     := BitVec.ofNat 12 (161 + c.stopLowSlots)
  curSlot   := 0
  curSub    := 0
  repeatCnt := 2
  timerEn   := true
  pin       := false
  pwmGate   := g.pwmGate
  out       := g.out ++ (if g.timerEn then [.abort] else [])

/-- The ticks of one pass over some slots (41_waveform_generator.md R162, R164): `N_SUB` for each slot, driving 1, 0, 1,
0, ... for a high one and zeros for a low one. -/
def passTicks (nSub : Nat) (slots : List Bool) : List Emission :=
  slots.flatMap (fun high => (List.range nSub).map (fun k => .tick (k % 2 == 0 && high)))

/-- The intervals of 48 bits and the stop bit in blocking mode (R170). -/
def blockingBits (c : Config) (f : Frame) : List Emission :=
  (wireBits f.bytes).flatMap (fun b => [.seg true c.tUs, .seg false (if b then 3 * c.tUs else c.tUs)]) ++
  [.seg true c.tUs]

/-- The intervals of a whole blocking transmission (R170). -/
def blockingEmissions (c : Config) (f : Frame) : List Emission :=
  [.seg true (8 * c.tUs), .seg false (8 * c.tUs)] ++ blockingBits c f ++
  [.seg false 5200, .seg true 4400, .seg false 4400] ++ blockingBits c f

/-- How long an interval of a blocking transmission lasts, in microseconds; a tick and an abort carry no time. -/
def Emission.duration : Emission → Nat
  | .tick _ => 0
  | .seg _ us => us
  | .abort => 0

/-- The generator after a blocking SEND of a frame (R170, R173). -/
def transmissionDone (c : Config) (g : Generator) (f : Frame) : Generator :=
  { g with
    timerEn := false
    pin := false
    pwmGate := false
    out := g.out ++ (if g.timerEn then [.abort] else []) ++ blockingEmissions c f }

/-- `t` is `s` after the DeviceState became `d` and was sent, in the mode `CTRL.BLK` selects; nothing else changed
(43_command_interpreter.md R249). -/
def sentAs (s : State) (d : DeviceState) : State :=
  { s with
    dev := d
    packet := encodePacket s.cfg d
    frame := frameOf (encodePacket s.cfg d)
    gen := if s.cfg.hasBlocking && s.ctrlBlk then transmissionDone s.cfg s.gen (frameOf (encodePacket s.cfg d))
      else emissionStarted s.cfg s.gen (frameOf (encodePacket s.cfg d)) }

/-- The flash bytes of one item (30_encoding.md R112). -/
def itemImage (c : Config) (it : Item) : List Byte :=
  [it.id, it.len.setWidth 8] ++ halfBytes (checksum c.cksum it.blob) ++ it.blob ++
  List.replicate (alignUp it.len.toNat - it.len.toNat) 0xFF

/-- The flash bytes of an image of some items (R111, R112). -/
def flashImage (c : Config) (items : List Item) : List Byte :=
  [0x55, 0xAA] ++ halfBytes (BitVec.ofNat 16 ((items.map (fun it => itemSize it.len.toNat)).sum)) ++
  items.flatMap (itemImage c)

/-- A slot with its checksum field as CFG_WRITE leaves it (42_config_store.md R201). -/
def Item.stamped (c : Config) (it : Item) : Item := { it with cksum := checksum c.cksum it.blob }

/-- How many flash calls CFG_WRITE makes for some items (R201): the erase, the main header, a header for each item and
a data call for each item that is not empty. -/
def writeCalls (items : List Item) : Nat :=
  2 + items.length + (items.filter (fun it => decide (0 < it.len.toNat))).length

/-- ENV lets the next `k` flash calls succeed (20_memory.md R86). -/
def callsSucceed (s : State) (k : Nat) : Bool := decide (k ≤ s.draws.length) && (s.draws.take k).all id

/-- ENV's draw for the flash call after `q` others: whether it succeeds (20_memory.md R86; log 3). -/
def State.drawAt (s : State) (q : Nat) : Bool := s.draws.getD q (Config.flashOk (s.drawCount + q))

/-- What the next `k` flash calls add to `DIAG`: bit `FLASH_IO` when ENV draws a failure for one of them (20_memory.md R83
to R86). -/
def State.ioBits (s : State) (k : Nat) : Byte := if (List.range k).all s.drawAt then 0 else 0x04

/-- Whether the next flash call of a job is a read (42_config_store.md R210, R211). -/
def Job.reads : Job → Bool
  | .writeErase _ => false
  | .writeMain _ => false
  | .writeHeader _ _ _ => false
  | .writeData _ _ _ => false
  | .readMain _ => true
  | .readHeader _ _ _ _ => true
  | .readData _ _ _ _ _ _ _ => true

/-- `t` is `s` after a reset, whatever became of `FLASH`: everything of the block at its reset value (70_reset_and_hazards.md
R300), `PB` and `DATA` any value. What is not the block's stays: the configuration, the host's read value, the rest of the
schedule; ENV's draws go on (log 10, log 19). -/
def afterReset (s t : State) (rest : List Event) : Prop :=
  t = { State.powerUp s.cfg with
    gen := { Generator.reset s.cfg with pb := t.gen.pb }, items := t.items, flash := t.flash,
    rdata := s.rdata, sched := rest, draws := t.draws, drawCount := t.drawCount } ∧
  s.drawCount < t.drawCount ∧ t.gen.pb.length = s.cfg.pbCap ∧ t.items.length = s.cfg.maxItems ∧
  ∀ it ∈ t.items, it.alloc = false ∧ it.id = 0 ∧ it.len = 0 ∧ it.cksum = 0 ∧ it.data.wf = true

/-- A host access stands at the head of the schedule. -/
def hostIsNext (s : State) : Bool :=
  match s.sched with
  | .hostRead _ _ :: _ => true
  | .hostWrite _ _ _ _ :: _ => true
  | _ => false

/-- An access that 10_state.md R24 gives a meaning: 32 bits wide, in the register space, at an offset that is a multiple
of 4. -/
def legalAccess (c : Config) (addr width : Nat) : Bool :=
  width == 32 && decide (c.regBase ≤ addr) && decide (addr < c.regBase + 0x400) && (addr - c.regBase) % 4 == 0

/-- If a host access stands at the head of the schedule, it is one that R24 gives a meaning. -/
def nextAccessLegal (s : State) : Bool :=
  match s.sched with
  | .hostRead addr width :: _ => legalAccess s.cfg addr width
  | .hostWrite addr width _ _ :: _ => legalAccess s.cfg addr width
  | _ => true

/-- A reset stands at the head of the schedule. -/
def resetIsNext (s : State) : Bool :=
  match s.sched with
  | .reset _ :: _ => true
  | _ => false

end Sys2Proof.Machine
end

