-- ==== Sys2Proof/Certificates/Slice0/Obligations.lean ====
section
/-! DEFINITION. The statements about the block, for the provers. Each docstring names the rules it formalises. -/

open Sys2Proof Sys2Proof.Machine Host

/-! ## The command word -/

/-- R100, R105: for every well-formed command, decoding its record gives it back, with every operand at every value,
and leaves the rest of the stream. -/
def Obligations.DecodeOfEncodeIsIdentity : Prop :=
  ∀ (i : Instr) (rest : List Byte), i.wf = true → decode (encode i ++ rest) = .ok (i, rest)

/-- R100 to R102, R105: every five bytes decode to a well-formed command, whose record is the opcode and, for the five
commands that read one, the operand; where the operand is ignored the record holds 0 (log 13). -/
def Obligations.EncodeOfDecodeKeepsTheRecord : Prop :=
  ∀ (op a0 a1 a2 a3 : Byte) (rest : List Byte), ∃ i : Instr,
    decode (op :: a0 :: a1 :: a2 :: a3 :: rest) = .ok (i, rest) ∧ i.wf = true ∧
    encode i = if op ∈ [0x06, 0x07, 0x20, 0x21, 0x22] then [op, a0, a1, a2, a3] else [op, 0, 0, 0, 0]

/-- R102: the opcode map, on words written out from the table. -/
def Obligations.TableWordsDecodeToTheirRows : Prop :=
  decodeTableWord 40 0x0100000000 = some .on ∧
  decodeTableWord 40 0x0200000000 = some .off ∧
  decodeTableWord 40 0x0300000000 = some .auto ∧
  decodeTableWord 40 0x0400000000 = some .cool ∧
  decodeTableWord 40 0x0500000000 = some .heat ∧
  decodeTableWord 40 0x0600000013 = some (.temp 19) ∧
  decodeTableWord 40 0x07FFFFFFFF = some (.fanLevel 0xFFFFFFFF) ∧
  decodeTableWord 40 0x0812345678 = some .move ∧
  decodeTableWord 40 0x1000000000 = some .encode ∧
  decodeTableWord 40 0x1100000000 = some .send ∧
  decodeTableWord 40 0x2000000002 = some (.cfgWrite 2) ∧
  decodeTableWord 40 0x2100000008 = some (.cfgRead 8) ∧
  decodeTableWord 40 0x2200000001 = some (.cfgFree 1) ∧
  decodeTableWord 40 0x2300000000 = some .cfgFreeAll ∧
  decodeTableWord 40 0x7F00000000 = some (.unrecognised 0x7F)

/-- R104, R250: an opcode outside the table, and only such a one, decodes to an unrecognised command; it changes
nothing but `DIAG.UNREC_CMD`, which it sets. -/
def Obligations.UndefinedOpcodesOnlySetADiagnostic : Prop :=
  (∀ (op : Byte) (arg : Word), decodeCommand op arg = .unrecognised op ↔
    ¬ (0x01 ≤ op.toNat ∧ op.toNat ≤ 0x08 ∨ op = 0x10 ∨ op = 0x11 ∨ 0x20 ≤ op.toNat ∧ op.toNat ≤ 0x23)) ∧
  ∀ (op : Byte) (s : State), exec (.unrecognised op) s = .next { s with diag := s.diag ||| 0x01 }

/-! ## Steps and the host -/

/-- R45, R100: a write of `v` to `CMD_OP` runs, to completion, the command with opcode `v[7:0]` and the operand that
`CMD_ARG` holds; the step around it only takes the access from the schedule. -/
def Obligations.StepRunsTheIssuedCommand : Prop :=
  ∀ (s : State) (v : Word) (rest : List Event),
    legalConfig s.cfg = true → s.job = none →
    s.sched = .hostWrite (s.cfg.regBase + 0x010) 32 v .whole :: rest →
    step s = exec (decodeCommand (v.setWidth 8) s.cmdArg) { s with sched := rest }

/-- R100: writing `arg` to `CMD_ARG` and then `op` to `CMD_OP` issues the command word `op || arg`. -/
def Obligations.OperandThenOpcodeIssuesTheCommand : Prop :=
  ∀ (s : State) (op : Byte) (arg : Word) (rest : List Event),
    legalConfig s.cfg = true → s.job = none →
    s.sched = .hostWrite (s.cfg.regBase + 0x00C) 32 arg .whole ::
      .hostWrite (s.cfg.regBase + 0x010) 32 (op.setWidth 32) .whole :: rest →
    core.run 2 s = exec (decodeCommand op arg) { s with cmdArg := arg, sched := rest }

/-- R45, R93: while a store command is in flight the host makes no access: the step is the command's next flash call, the
waiting access stays at the head of the schedule (log 20), and nothing outside the Configuration Store changes. -/
def Obligations.HostStallsWhileACommandRuns : Prop :=
  ∀ (s : State) (j : Job),
    legalConfig s.cfg = true → s.job = some j → j.targetOk s = true → hostIsNext s = true →
    step s = .next (s.microStep j) ∧
    s.microStep j = { s with
      flash := (s.microStep j).flash, items := (s.microStep j).items, diag := (s.microStep j).diag,
      wrErr := (s.microStep j).wrErr, rdEmpty := (s.microStep j).rdEmpty, rdCount := (s.microStep j).rdCount,
      job := (s.microStep j).job, draws := s.draws.drop 1, drawCount := (s.microStep j).drawCount }

/-- R10: the constraints between the parameters, and a configuration that breaks one has no meaning. -/
def Obligations.IllegalConfigurationIsRefused : Prop :=
  (∀ c : Config, legalConfig c = true ↔
    (c.nSub % 2 = 0 ∧ 2 ≤ c.nSub ∧ c.nSub < 65536 ∧ 209 + c.stopLowSlots ≤ c.pbCap ∧ c.pbCap ≤ 2048 ∧
      c.sectorSize % 4 = 0 ∧ 8 ≤ c.sectorSize ∧ c.sectorSize ≤ 65536 ∧ c.cfgBase % c.sectorSize = 0 ∧
      1 ≤ c.maxItems ∧ c.maxItems ≤ 255 ∧ 0 < c.tUs ∧ c.regBase % 0x400 = 0)) ∧
  ∀ s : State, legalConfig s.cfg = false → step s = .refused .illegalConfig

/-- R24: an access of another width than 32 bits, or at an offset in the register space that is not a multiple of 4, is
refused. The model's choices (log 11): a 32-bit access outside the register space, aligned or not, is refused too, and the
name of a doubly wrong access follows the order width, space, alignment. -/
def Obligations.NarrowOrMisalignedAccessIsRefused : Prop :=
  ∀ (s : State) (addr width : Nat) (v : Word) (span : Span) (rest : List Event),
    legalConfig s.cfg = true → s.job = none →
    (s.sched = .hostRead addr width :: rest ∨ s.sched = .hostWrite addr width v span :: rest) →
    (width ≠ 32 → step s = .refused .accessWidth) ∧
    (width = 32 → addr < s.cfg.regBase ∨ s.cfg.regBase + 0x400 ≤ addr → step s = .refused .outsideRegisterSpace) ∧
    (width = 32 → s.cfg.regBase ≤ addr → addr < s.cfg.regBase + 0x400 → (addr - s.cfg.regBase) % 4 ≠ 0 →
      step s = .refused .misalignedAccess)

/-- R24, R40, R48, R77: a host read at an offset returns the register that the map puts there and changes nothing: the
only difference is the value the host got. -/
def Obligations.ReadsReturnTheRegisterAndChangeNothing : Prop :=
  ([0x000, 0x004, 0x008, 0x00C, 0x010, 0x014, 0x018, 0x01C, 0x020, 0x024, 0x028, 0x02C, 0x030, 0x034, 0x038, 0x03C,
      0x040, 0x044, 0x048, 0x04C, 0x050].map regOfOffset =
    [.ctrl, .status, .diag, .cmdArg, .cmdOp, .devEn, .devMode, .devTemp, .devFan, .packet, .frameLo, .frameHi, .pbLen,
      .curSlot, .curSub, .repeatCnt, .itemSel, .itemId, .itemLen, .itemCksum, .itemAlloc]) ∧
  (∀ k : Nat, k < 64 → regOfOffset (0x100 + 4 * k) = .itemData k ∧ regOfOffset (0x200 + 4 * k) = .pbWord k) ∧
  (∀ off : Nat, (0x050 < off ∧ off < 0x100 ∨ 0x300 ≤ off) → regOfOffset off = .reserved) ∧
  ∀ (s : State) (off : Nat) (rest : List Event),
    legalConfig s.cfg = true → s.job = none → off < 0x400 → off % 4 = 0 →
    s.sched = .hostRead (s.cfg.regBase + off) 32 :: rest →
    step s = .next { s with rdata := s.readReg (regOfOffset off), sched := rest }

/-- R22, R25, R40 to R48: what the host reads of every register: `STATUS`, `PACKET`, `FRAME_LO`, `FRAME_HI`, the two
windows bit by bit, the narrow registers as numbers, `DEV_MODE` and `DEV_FAN` as the ordinals of the declarations, the item
registers as the fields of the selected slot or 0 where none is selected. -/
def Obligations.RegisterReadValues : Prop :=
  ∀ (s : State) (k w : Nat), k < 32 →
    ((s.readReg .status).getLsbD k =
      if k = 0 then s.gen.timerEn else if k = 1 then s.gen.pin else if k = 2 then s.wrErr
      else if k = 3 then s.rdEmpty else if 8 ≤ k ∧ k < 16 then s.rdCount.getLsbD (k - 8) else false) ∧
    ((s.readReg .packet).getLsbD k =
      if k < 8 then s.packet.p0.getLsbD k else if k < 16 then s.packet.p1.getLsbD (k - 8)
      else if k < 24 then s.packet.p2.getLsbD (k - 16) else false) ∧
    ((s.readReg .frameLo).getLsbD k =
      if k < 8 then s.frame.f0.getLsbD k else if k < 16 then s.frame.f1.getLsbD (k - 8)
      else if k < 24 then s.frame.f2.getLsbD (k - 16) else s.frame.f3.getLsbD (k - 24)) ∧
    ((s.readReg .frameHi).getLsbD k =
      if k < 8 then s.frame.f4.getLsbD k else if k < 16 then s.frame.f5.getLsbD (k - 8) else false) ∧
    ((s.readReg (.pbWord w)).getLsbD k = (decide (32 * w + k < s.cfg.pbCap) && s.gen.pb.getD (32 * w + k) false)) ∧
    (s.readReg .diag).toNat = s.diag.toNat ∧ (s.readReg .pbLen).toNat = s.gen.pbLen.toNat ∧
    (s.readReg .curSlot).toNat = s.gen.curSlot.toNat ∧ (s.readReg .curSub).toNat = s.gen.curSub.toNat ∧
    (s.readReg .repeatCnt).toNat = s.gen.repeatCnt.toNat ∧ (s.readReg .itemSel).toNat = s.itemSel.toNat ∧
    (s.readReg .ctrl).toNat = (s.cfg.hasBlocking && s.ctrlBlk).toNat ∧ (s.readReg .devEn).toNat = s.dev.en.toNat ∧
    s.readReg .devMode = (if s.dev.mode = .auto then 0 else if s.dev.mode = .cool then 1
      else if s.dev.mode = .heat then 2 else 3) ∧
    s.readReg .devFan = (if s.dev.fan = .low then 0 else if s.dev.fan = .medium then 1
      else if s.dev.fan = .high then 2 else if s.dev.fan = .auto then 3 else 4) ∧
    s.readReg .cmdArg = s.cmdArg ∧ s.readReg .devTemp = s.dev.temp ∧ s.readReg .cmdOp = 0 ∧ s.readReg .reserved = 0 ∧
    (s.itemSel.toNat < s.cfg.maxItems →
      (s.readReg .itemId).toNat = (s.item s.itemSel.toNat).id.toNat ∧
      (s.readReg .itemLen).toNat = (s.item s.itemSel.toNat).len.toNat ∧
      (s.readReg .itemCksum).toNat = (s.item s.itemSel.toNat).cksum.toNat ∧
      (s.readReg .itemAlloc).toNat = (s.item s.itemSel.toNat).alloc.toNat ∧
      (s.readReg (.itemData w)).getLsbD k = ((s.item s.itemSel.toNat).data.read (4 * w + k / 8)).getLsbD (k % 8)) ∧
    (s.cfg.maxItems ≤ s.itemSel.toNat →
      s.readReg .itemId = 0 ∧ s.readReg .itemLen = 0 ∧ s.readReg .itemCksum = 0 ∧ s.readReg .itemAlloc = 0 ∧
      s.readReg (.itemData w) = 0)

/-- R40, R48: a write to a read-only or reserved offset changes nothing. -/
def Obligations.ReadOnlyAndReservedWritesAreIgnored : Prop :=
  ∀ (s : State) (off : Nat) (v : Word) (span : Span) (rest : List Event),
    legalConfig s.cfg = true → s.job = none → off % 4 = 0 →
    (off = 0x004 ∨ 0x014 ≤ off ∧ off ≤ 0x03C ∨ 0x04C ≤ off ∧ off < 0x100 ∨ 0x200 ≤ off ∧ off < 0x400) →
    s.sched = .hostWrite (s.cfg.regBase + off) 32 v span :: rest →
    step s = .next { s with sched := rest }

/-- R43: a write to `DIAG` clears the bits written 1 and leaves the others; nothing else changes. -/
def Obligations.DiagIsWriteOneToClear : Prop :=
  ∀ (s : State) (v : Word) (span : Span) (rest : List Event),
    legalConfig s.cfg = true → s.job = none →
    s.sched = .hostWrite (s.cfg.regBase + 0x008) 32 v span :: rest →
    ∃ d : Byte, step s = .next { s with diag := d, sched := rest } ∧
      ∀ k : Nat, k < 8 → d.getLsbD k = (s.diag.getLsbD k && !v.getLsbD k)

/-- R46: `ITEM_SEL` takes the low byte written; with a slot of the table selected the item registers are that slot's
fields, `ITEM_ID` and `ITEM_LEN` written and all of them read; with none selected they read 0 and ignore writes. -/
def Obligations.ItemRegistersAreTheSelectedSlot : Prop :=
  ∀ (s : State) (off k b : Nat) (v : Word) (span : Span) (rest : List Event),
    legalConfig s.cfg = true → s.job = none → b < 32 →
    s.sched = .hostWrite (s.cfg.regBase + off) 32 v span :: rest →
    (off = 0x040 → step s = .next { s with itemSel := v.setWidth 8, sched := rest }) ∧
    (s.cfg.maxItems ≤ s.itemSel.toNat →
      s.readReg .itemId = 0 ∧ s.readReg .itemLen = 0 ∧ s.readReg .itemCksum = 0 ∧ s.readReg .itemAlloc = 0 ∧
      s.readReg (.itemData k) = 0 ∧ (off = 0x044 ∨ off = 0x048 → step s = .next { s with sched := rest })) ∧
    (s.itemSel.toNat < s.cfg.maxItems →
      (s.readReg .itemId).toNat = (s.item s.itemSel.toNat).id.toNat ∧
      (s.readReg .itemLen).toNat = (s.item s.itemSel.toNat).len.toNat ∧
      (s.readReg .itemCksum).toNat = (s.item s.itemSel.toNat).cksum.toNat ∧
      (s.readReg .itemAlloc).toNat = (s.item s.itemSel.toNat).alloc.toNat ∧
      (s.readReg (.itemData k)).getLsbD b = ((s.item s.itemSel.toNat).data.read (4 * k + b / 8)).getLsbD (b % 8) ∧
      (off = 0x044 → step s = .next { s with
        items := s.items.set s.itemSel.toNat { s.item s.itemSel.toNat with id := v.setWidth 8 }, sched := rest }) ∧
      (off = 0x048 → step s = .next { s with
        items := s.items.set s.itemSel.toNat { s.item s.itemSel.toNat with len := v.setWidth 16 }, sched := rest }))

/-- R46: with a slot selected, a 32-bit write to word `k` of the data window writes four bytes of that slot's `DATA`,
low byte first, and nothing else; with none selected it is ignored. -/
def Obligations.DataWindowWritesFourBytes : Prop :=
  ∀ (s : State) (k : Nat) (v : Word) (span : Span) (rest : List Event),
    legalConfig s.cfg = true → memoriesWf s = true → memoriesSized s = true → s.job = none → k < 64 →
    s.sched = .hostWrite (s.cfg.regBase + 0x100 + 4 * k) 32 v span :: rest →
    (s.cfg.maxItems ≤ s.itemSel.toNat → step s = .next { s with sched := rest }) ∧
    (s.itemSel.toNat < s.cfg.maxItems →
      ∃ m : Memory,
        step s = .next { s with
          items := s.items.set s.itemSel.toNat { s.item s.itemSel.toNat with data := m }, sched := rest } ∧
        ∀ a : Nat, m.read a =
          if a = 4 * k then v.extractLsb' 0 8
          else if a = 4 * k + 1 then v.extractLsb' 8 8
          else if a = 4 * k + 2 then v.extractLsb' 16 8
          else if a = 4 * k + 3 then v.extractLsb' 24 8
          else (s.item s.itemSel.toNat).data.read a)

/-- R41: `CTRL.BLK` is bit 0 of the value written where there is a blocking mode; it is hardwired to 0 where there is
none, so that SEND then always runs in the interrupt-driven mode. -/
def Obligations.ControlBitIsHardwiredWithoutBlockingMode : Prop :=
  ∀ (s : State) (v : Word) (span : Span) (rest : List Event),
    legalConfig s.cfg = true → s.job = none →
    s.sched = .hostWrite s.cfg.regBase 32 v span :: rest →
    (s.cfg.hasBlocking = true → step s = .next { s with ctrlBlk := v.getLsbD 0, sched := rest }) ∧
    (s.cfg.hasBlocking = false → step s = .next { s with sched := rest } ∧ s.readReg .ctrl = 0 ∧
      ∃ t : State, exec .send s = .next t ∧ t.gen.timerEn = true)

/-! ## Reset and power -/

/-- R55, R300: every piece of state after power-up with a configuration, at the values the spec gives. -/
def Obligations.ResetValuesOfTheSpec : Prop :=
  ∀ c : Config,
    (State.powerUp c).dev = c.rstState ∧
    (State.powerUp c).packet = ⟨0, 0, 0⟩ ∧ (State.powerUp c).frame = ⟨0, 0, 0, 0, 0, 0⟩ ∧
    (State.powerUp c).gen.pbLen = 0 ∧ (State.powerUp c).gen.curSlot = 0 ∧ (State.powerUp c).gen.curSub = 0 ∧
    (State.powerUp c).gen.repeatCnt = 0 ∧ (State.powerUp c).gen.timerEn = false ∧
    (State.powerUp c).gen.pin = false ∧ (State.powerUp c).gen.pwmGate = false ∧ (State.powerUp c).gen.out = [] ∧
    (State.powerUp c).ctrlBlk = false ∧ (State.powerUp c).readReg .status = 0 ∧ (State.powerUp c).diag = 0 ∧
    (State.powerUp c).cmdArg = 0 ∧ (State.powerUp c).itemSel = 0 ∧ (State.powerUp c).job = none ∧
    ∀ i : Nat, i < c.maxItems → ((State.powerUp c).item i).alloc = false ∧ ((State.powerUp c).item i).id = 0 ∧
      ((State.powerUp c).item i).len = 0 ∧ ((State.powerUp c).item i).cksum = 0

/-- The state after reset under the reference configuration meets the block's invariant (the configuration and the
contents of `PB`, `DATA` and `FLASH` in it are the model's choices, log 2, log 7, log 8). -/
def Obligations.ResetMeetsTheInvariant : Prop := State.inv State.reset = true

/-- R300 to R302, R304, R305, R307: a reset puts everything of the block at its reset value but `FLASH`, and abandons a
store command in flight. `FLASH` stays as it is where no command is in flight, where the reset falls between two flash
calls, and where it falls inside a read; inside the erase every byte of the sector becomes any value (a free value). What
the model keeps beside the block, the host's last read value, the schedule and ENV's draws, goes on (log 10, log 19). -/
def Obligations.ResetClearsEverythingButFlash : Prop :=
  ∀ (s : State) (torn : Option Nat) (rest : List Event),
    legalConfig s.cfg = true → s.sched = .reset torn :: rest →
    ∃ t : State, step s = .next t ∧ afterReset s t rest ∧
      (s.job = none ∨ torn = none ∨ (∃ j : Job, s.job = some j ∧ j.reads = true) →
        t.flash = s.flash ∧ t.draws = s.draws) ∧
      (∀ n words : Nat, s.job = some (.writeErase n) → torn = some words →
        t.draws = s.draws.drop 1 ∧
        (memoriesWf s = true → ∀ a : Nat,
          t.flash.read a = if a < s.cfg.sectorSize then Config.freeByte s.drawCount a else s.flash.read a))

/-- R300, R305: power lost inside a write call of CFG_WRITE after `words` of its words: those words hold the programmed
value, the word in progress any value (a free value), the words after it and every byte outside the call's target what they
held; everything of the block but `FLASH` is at its reset value. Where ENV also draws a failure for the call its whole
target is a free value, and what the model keeps beside the block goes on (the model's choices, log 19). -/
def Obligations.PowerLossTearsAWriteByWords : Prop :=
  ∀ (s : State) (j : Job) (words : Nat) (rest : List Event),
    legalConfig s.cfg = true → memoriesWf s = true → s.job = some j → j.program s ≠ [] →
    s.sched = .reset (some words) :: rest →
    ∃ t : State, step s = .next t ∧ afterReset s t rest ∧ t.draws = s.draws.drop 1 ∧
      ∀ a : Nat,
        (a < (j.target s).1 ∨ (j.target s).1 + (j.program s).length ≤ a → t.flash.read a = s.flash.read a) ∧
        ∀ q : Nat, q < (j.program s).length → a = (j.target s).1 + q →
          (s.drawAt 0 = true → q / 4 < words → t.flash.read a = s.flash.read a &&& (j.program s).getD q 0) ∧
          (s.drawAt 0 = true → q / 4 = words → t.flash.read a = Config.freeByte s.drawCount q) ∧
          (s.drawAt 0 = true → words < q / 4 → t.flash.read a = s.flash.read a) ∧
          (s.drawAt 0 = false → t.flash.read a = Config.freeByte s.drawCount q)

/-! ## The Protocol Encoder -/

/-- R131, R132, R134, R135, R136: ENCODE with `DEV_EN` = 1 latches the packet of the magic byte, state and fan nibble,
command and temperature nibble, and the frame of each byte with its complement; the temperature nibble is the offset
from 17 °C inside 17..30 and 7 outside; nothing else changes. -/
def Obligations.EncodeLatchesTheEnabledPacket : Prop :=
  ∀ s : State, s.dev.en = true →
    ∃ t : BitVec 4,
      (17 ≤ s.dev.temp.toInt → s.dev.temp.toInt ≤ 30 → (t.toNat : Int) = s.dev.temp.toInt - 17) ∧
      ((s.dev.temp.toInt < 17 ∨ 30 < s.dev.temp.toInt) → t = 7) ∧
      exec .encode s = .next { s with
        packet := ⟨0xB2, s.cfg.stateOnCode ++ fanNibble s.cfg s.dev.fan, modeNibble s.cfg s.dev.mode ++ t⟩
        frame := ⟨0xB2, 0x4D,
          s.cfg.stateOnCode ++ fanNibble s.cfg s.dev.fan, ~~~(s.cfg.stateOnCode ++ fanNibble s.cfg s.dev.fan),
          modeNibble s.cfg s.dev.mode ++ t, ~~~(modeNibble s.cfg s.dev.mode ++ t)⟩ }

/-- R133, R134, R135, R136: ENCODE with `DEV_EN` = 0 latches the off pattern, whatever mode, temperature and fan hold;
nothing else changes. -/
def Obligations.EncodeLatchesTheOffPattern : Prop :=
  ∀ s : State, s.dev.en = false →
    exec .encode s = .next { s with
      packet := ⟨0xB2, s.cfg.stateOffCode ++ s.cfg.fanOffCode, 0#4 ++ s.cfg.tempOffSentinel⟩
      frame := ⟨0xB2, 0x4D,
        s.cfg.stateOffCode ++ s.cfg.fanOffCode, ~~~(s.cfg.stateOffCode ++ s.cfg.fanOffCode),
        0#4 ++ s.cfg.tempOffSentinel, ~~~(0#4 ++ s.cfg.tempOffSentinel)⟩ }

/-- R109, R137: every frame the encoder makes begins B2 4D, each second byte is the complement of the byte before it,
which is a packet byte, and of its 48 bits 24 are ones. -/
def Obligations.FramesCarryTwentyFourOnes : Prop :=
  ∀ (c : Config) (d : DeviceState),
    (encodePacket c d).p0 = 0xB2 ∧
    (frameOf (encodePacket c d)).f0 = 0xB2 ∧ (frameOf (encodePacket c d)).f1 = 0x4D ∧
    (frameOf (encodePacket c d)).f2 = (encodePacket c d).p1 ∧ (frameOf (encodePacket c d)).f4 = (encodePacket c d).p2 ∧
    (frameOf (encodePacket c d)).f3 = ~~~(frameOf (encodePacket c d)).f2 ∧
    (frameOf (encodePacket c d)).f5 = ~~~(frameOf (encodePacket c d)).f4 ∧
    (wireBits (frameOf (encodePacket c d)).bytes).length = 48 ∧
    ((wireBits (frameOf (encodePacket c d)).bytes).filter id).length = 24

/-! ## The Waveform Generator -/

/-- R110, R150, R151, R153: for any six bytes `build` writes the start condition, the bit cells most significant bit
first and the stop marker, and keeps the slots after them; with `o` one bits among the 48 that is 16 + 2 (48 - o) + 4 o +
the stop slots, 57 of them high, which fits the capacity of every legal configuration. -/
def Obligations.BuildWritesThePulseCode : Prop :=
  ∀ (c : Config) (f : Frame) (g : Generator),
    g.build c f = { g with
      pb := slotsOfBits (wireBits f.bytes) c.stopLowSlots ++
        g.pb.drop (slotsOfBits (wireBits f.bytes) c.stopLowSlots).length
      pbLen := BitVec.ofNat 12 (slotsOfBits (wireBits f.bytes) c.stopLowSlots).length } ∧
    (slotsOfBits (wireBits f.bytes) c.stopLowSlots).length =
      16 + 2 * (48 - ((wireBits f.bytes).filter id).length) + 4 * ((wireBits f.bytes).filter id).length +
        1 + c.stopLowSlots ∧
    ((slotsOfBits (wireBits f.bytes) c.stopLowSlots).filter id).length = 57 ∧
    (legalConfig c = true → (slotsOfBits (wireBits f.bytes) c.stopLowSlots).length ≤ c.pbCap)

/-- R152, R155, R156: SEND in the interrupt-driven mode encodes the DeviceState, rewrites the buffer (161 +
STOP_LOW_SLOTS slots), resets the indices, sets the repeat count and starts the timer with the pin low, logging an
abort if a transmission was running; nothing else changes. -/
def Obligations.SendStartsAnEmission : Prop :=
  ∀ s : State, (s.cfg.hasBlocking && s.ctrlBlk) = false →
    exec .send s = .next { s with
      packet := encodePacket s.cfg s.dev
      frame := frameOf (encodePacket s.cfg s.dev)
      gen := emissionStarted s.cfg s.gen (frameOf (encodePacket s.cfg s.dev)) }

/-- R170, R171, R173: SEND in blocking mode stops a running emission, encodes the DeviceState and emits the intervals
of the whole transmission in order; it leaves the timer and the gate off and does not touch the buffer, its length or
the indices; nothing else changes. -/
def Obligations.BlockingSendEmitsItsIntervals : Prop :=
  ∀ s : State, (s.cfg.hasBlocking && s.ctrlBlk) = true →
    exec .send s = .next { s with
      packet := encodePacket s.cfg s.dev
      frame := frameOf (encodePacket s.cfg s.dev)
      gen := transmissionDone s.cfg s.gen (frameOf (encodePacket s.cfg s.dev)) }

/-- R172, R176: a blocking transmission of an encoder frame has 199 intervals that last 306 T + 14000 µs. -/
def Obligations.BlockingTransmissionLasts306Units : Prop :=
  ∀ (c : Config) (d : DeviceState),
    (blockingEmissions c (frameOf (encodePacket c d))).length = 199 ∧
    ((blockingEmissions c (frameOf (encodePacket c d))).map Emission.duration).sum = 306 * c.tUs + 14000

/-- R160, R161, R290: a firing of the timer does nothing while `TIMER_EN` = 0; otherwise it is a TICK step: inside a
slot, at the end of a slot, at the end of a pass that is not the last, and at the end of the last pass. Each touches the
generator alone. -/
def Obligations.TickStepByItsCases : Prop :=
  ∀ (s : State) (rest : List Event) (level : Bool),
    legalConfig s.cfg = true → s.sched = .tick :: rest →
    level = (s.gen.curSub.toNat % 2 == 0 && s.gen.pb.getD s.gen.curSlot.toNat false) →
    (s.gen.timerEn = false → step s = .next { s with sched := rest }) ∧
    (s.gen.timerEn = true → s.gen.curSub.toNat + 1 < s.cfg.nSub →
      step s = .next { s with sched := rest, gen := { s.gen with
        pin := level, out := s.gen.out ++ [.tick level], curSub := s.gen.curSub + 1 } }) ∧
    (s.gen.timerEn = true → s.gen.curSub.toNat + 1 = s.cfg.nSub → s.gen.curSlot.toNat + 1 < s.gen.pbLen.toNat →
      step s = .next { s with sched := rest, gen := { s.gen with
        pin := level, out := s.gen.out ++ [.tick level], curSub := 0, curSlot := s.gen.curSlot + 1 } }) ∧
    (s.gen.timerEn = true → s.gen.curSub.toNat + 1 = s.cfg.nSub → s.gen.curSlot.toNat + 1 = s.gen.pbLen.toNat →
      s.gen.repeatCnt = 2 →
      step s = .next { s with sched := rest, gen := { s.gen with
        pin := level, out := s.gen.out ++ [.tick level], curSub := 0, curSlot := 0, repeatCnt := 1 } }) ∧
    (s.gen.timerEn = true → s.gen.curSub.toNat + 1 = s.cfg.nSub → s.gen.curSlot.toNat + 1 = s.gen.pbLen.toNat →
      s.gen.repeatCnt = 1 →
      step s = .next { s with sched := rest, gen := { s.gen with
        pin := false, out := s.gen.out ++ [.tick level], curSub := 0, curSlot := s.gen.pbLen, repeatCnt := 0,
        timerEn := false } })

/-- R162: a slot that is not the last lasts exactly `N_SUB` ticks, which drive 1, 0, 1, 0, ... for a high slot and
zeros for a low one. -/
def Obligations.SlotLastsSubTicks : Prop :=
  ∀ (c : Config) (g : Generator),
    legalConfig c = true → g.curSub = 0 → g.curSlot.toNat + 1 < g.pbLen.toNat →
    (Generator.tick c.nSub)^[c.nSub] g = { g with
      curSlot := g.curSlot + 1
      pin := false
      out := g.out ++ (List.range c.nSub).map (fun k => .tick (k % 2 == 0 && g.pb.getD g.curSlot.toNat false)) }

/-- R162, R164: from the state an interrupt-driven SEND leaves, with the host silent, the transmission takes exactly
2 × PB_LEN × N_SUB TICK steps: the timer runs before each of them; the first PB_LEN × N_SUB emit the slots of `PB` and leave
the second pass to begin at slot 0 with `REPEAT_CNT` = 1; the others emit the same slots once more and leave the block in
IDLE with `CUR_SLOT` = `PB_LEN`, `CUR_SUB` = 0, `REPEAT_CNT` = 0 and the pin low, and no further step changes anything.
(That the timer fires by itself while the host is silent is the model's choice, log 5.) -/
def Obligations.WholeTransmissionTakesItsTicks : Prop :=
  ∀ s t : State,
    legalConfig s.cfg = true → seqInv s.cfg s.gen = true → (s.cfg.hasBlocking && s.ctrlBlk) = false →
    s.job = none → s.sched = [] → exec .send s = .next t →
    (∀ k : Nat, k < 2 * t.gen.pbLen.toNat * t.cfg.nSub → ∃ u : State, core.run k t = .next u ∧
      u.gen.timerEn = true) ∧
    (∃ u : State, core.run (t.gen.pbLen.toNat * t.cfg.nSub) t = .next u ∧
      u.gen.repeatCnt = 1 ∧ u.gen.curSlot = 0 ∧ u.gen.curSub = 0 ∧
      u.gen.out = t.gen.out ++ passTicks t.cfg.nSub (t.gen.pb.take t.gen.pbLen.toNat)) ∧
    ∃ u : State, core.run (2 * t.gen.pbLen.toNat * t.cfg.nSub) t = .next u ∧
      u = { t with gen := { t.gen with
        curSlot := t.gen.pbLen, curSub := 0, repeatCnt := 0, timerEn := false, pin := false
        out := t.gen.out ++ passTicks t.cfg.nSub (t.gen.pb.take t.gen.pbLen.toNat) ++
          passTicks t.cfg.nSub (t.gen.pb.take t.gen.pbLen.toNat) } } ∧
      u.gen.out.length = t.gen.out.length + 2 * t.gen.pbLen.toNat * t.cfg.nSub ∧ step u = .next u

/-! ## The Command Interpreter -/

/-- R241 to R246, R249: ON and OFF write `DEV_EN`, AUTO, COOL and HEAT write `DEV_MODE`, TEMP stores all 32 operand
bits, in range or not, as `DEV_TEMP`; each then sends the DeviceState and changes nothing else. -/
def Obligations.VocabularyCommandsMutateAndSend : Prop :=
  ∀ (s : State) (v : Word),
    exec .on s = .next (sentAs s { s.dev with en := true }) ∧
    exec .off s = .next (sentAs s { s.dev with en := false }) ∧
    exec .auto s = .next (sentAs s { s.dev with mode := .auto }) ∧
    exec .cool s = .next (sentAs s { s.dev with mode := .cool }) ∧
    exec .heat s = .next (sentAs s { s.dev with mode := .heat }) ∧
    exec (.temp v) s = .next (sentAs s { s.dev with temp := v })

/-- R247, R249: FAN_LEVEL with an operand 0..4, read as a signed integer, stores the level with that ordinal and sends;
with any other it sets `DIAG.ARG_RANGE` and does nothing else. -/
def Obligations.FanLevelStoresOrRejects : Prop :=
  ∀ (s : State) (v : Word),
    (0 ≤ v.toInt → v.toInt ≤ 4 → ∃ l : FanLevel, ((fanOrdinal l).toNat : Int) = v.toInt ∧
      exec (.fanLevel v) s = .next (sentAs s { s.dev with fan := l })) ∧
    ((v.toInt < 0 ∨ 4 < v.toInt) → exec (.fanLevel v) s = .next { s with diag := s.diag ||| 0x02 })

/-- R248: MOVE changes nothing at all. -/
def Obligations.MoveChangesNothing : Prop := ∀ s : State, exec .move s = .next s

/-- R251: `temp 19`, `on`, `cool`, one after the other from any state, leave (1, COOL, 19, the fan level there was), a packet
whose last byte is the COOL code and the nibble 2, and a frame that carries that byte and its complement; where `CTRL.BLK` is
0 each starts a transmission. With the reference codes and `RST_STATE`: the packets of the off pattern, of (1, AUTO, 19,
AUTO) and `B2 FB 02`, and the frame `B2 4D FB 04 02 FD`. -/
def Obligations.EndToEndScenario : Prop :=
  ∀ s : State, ∃ t₁ t₂ t₃ : State,
    exec (.temp 19) s = .next t₁ ∧ exec .on t₁ = .next t₂ ∧ exec .cool t₂ = .next t₃ ∧
    t₃.dev = { en := true, mode := .cool, temp := 19, fan := s.dev.fan } ∧
    t₃.packet.p2 = s.cfg.modeCode.cool ++ 2#4 ∧
    t₃.frame.f4 = s.cfg.modeCode.cool ++ 2#4 ∧ t₃.frame.f5 = ~~~(s.cfg.modeCode.cool ++ 2#4) ∧
    (s.ctrlBlk = false → t₁.gen.timerEn = true ∧ t₂.gen.timerEn = true ∧ t₃.gen.timerEn = true) ∧
    (s.cfg = Config.reference → s.dev = Config.reference.rstState →
      t₁.packet = ⟨0xB2, 0xB7, 0x0E⟩ ∧ t₂.packet = encodePacket s.cfg ⟨true, .auto, 19, .auto⟩ ∧
      t₃.packet = ⟨0xB2, 0xFB, 0x02⟩ ∧ t₃.frame = ⟨0xB2, 0x4D, 0xFB, 0x04, 0x02, 0xFD⟩)

/-- R303: no command selects the mode FAN. -/
def Obligations.NoCommandSelectsModeFan : Prop :=
  ∀ (i : Instr) (s t : State), exec i s = .next t → t.dev.mode = .fan → s.dev.mode = .fan

/-- R28: the DeviceState changes only by a command written to `CMD_OP`, one of the seven that write it, or by reset. -/
def Obligations.DeviceStateIsOwnedByTheInterpreter : Prop :=
  ∀ s t : State, step s = .next t → t.dev ≠ s.dev →
    resetIsNext s = true ∨
    ∃ (v : Word) (span : Span) (rest : List Event),
      s.sched = .hostWrite (s.cfg.regBase + 0x010) 32 v span :: rest ∧
      1 ≤ (v.setWidth 8).toNat ∧ (v.setWidth 8).toNat ≤ 7

/-! ## The Configuration Store -/

/-- R190: `align_up(n)` is the least multiple of 4 that is at least `n`. -/
def Obligations.AlignUpIsTheLeastMultiple : Prop :=
  ∀ n : Nat, alignUp n % 4 = 0 ∧ n ≤ alignUp n ∧ ∀ m : Nat, m % 4 = 0 → n ≤ m → alignUp n ≤ m

/-- R200: CFG_WRITE with too many items, an item that is too long, or an image that does not fit the sector is refused:
`STATUS.WR_ERR`, `DIAG.WR_REFUSED`, nothing else. -/
def Obligations.CfgWriteRefusesWhatCannotBeStored : Prop :=
  ∀ (s : State) (arg : Word),
    (s.cfg.maxItems < arg.toNat ∨ (∃ it ∈ s.items.take arg.toNat, 255 < it.len.toNat) ∨
      s.cfg.sectorSize < 4 + ((s.items.take arg.toNat).map (fun it => itemSize it.len.toNat)).sum) →
    exec (.cfgWrite arg) s = .next { s with wrErr := true, diag := s.diag ||| 0x40 }

/-- R200, R201, R203, R204: a CFG_WRITE that passes the three checks of R200, and whose flash calls all succeed, leaves the
image in the sector and the rest of it erased, stamps the checksum fields of its slots, clears `STATUS.WR_ERR`, makes one
flash call for the erase, the main header, each data header and each blob that is not empty, and changes nothing else. -/
def Obligations.CfgWriteLeavesTheImage : Prop :=
  ∀ (s : State) (arg : Word),
    legalConfig s.cfg = true → storeInv s = true → s.job = none →
    arg.toNat ≤ s.cfg.maxItems → (∀ it ∈ s.items.take arg.toNat, it.len.toNat ≤ 255) →
    4 + ((s.items.take arg.toNat).map (fun it => itemSize it.len.toNat)).sum ≤ s.cfg.sectorSize →
    callsSucceed s (writeCalls (s.items.take arg.toNat)) = true →
    ∃ t : State, exec (.cfgWrite arg) s = .next t ∧
      t = { s with
        flash := t.flash
        items := (s.items.take arg.toNat).map (Item.stamped s.cfg) ++ s.items.drop arg.toNat
        wrErr := false
        draws := s.draws.drop (writeCalls (s.items.take arg.toNat))
        drawCount := s.drawCount + writeCalls (s.items.take arg.toNat) } ∧
      ∀ a : Nat, t.flash.read a = (flashImage s.cfg (s.items.take arg.toNat)).getD a 0xFF

/-- R83, R85, R86, R200, R201: a CFG_WRITE that passes the three checks of R200 completes whatever ENV draws, with
`STATUS.WR_ERR` = 0 and all its flash calls made; it changes `FLASH`, the checksum fields of its slots, and `DIAG.FLASH_IO`,
which it sets exactly when ENV draws a failure for one of its calls, and nothing else. -/
def Obligations.CfgWriteAlwaysCompletes : Prop :=
  ∀ (s : State) (arg : Word),
    legalConfig s.cfg = true → storeInv s = true → s.job = none →
    arg.toNat ≤ s.cfg.maxItems → (∀ it ∈ s.items.take arg.toNat, it.len.toNat ≤ 255) →
    4 + ((s.items.take arg.toNat).map (fun it => itemSize it.len.toNat)).sum ≤ s.cfg.sectorSize →
    ∃ t : State, exec (.cfgWrite arg) s = .next t ∧
      t = { s with
        flash := t.flash
        items := (s.items.take arg.toNat).map (Item.stamped s.cfg) ++ s.items.drop arg.toNat
        wrErr := false
        diag := s.diag ||| s.ioBits (writeCalls (s.items.take arg.toNat))
        draws := s.draws.drop (writeCalls (s.items.take arg.toNat))
        drawCount := s.drawCount + writeCalls (s.items.take arg.toNat) }

/-- R209: CFG_READ over a slot that holds an unfreed blob is refused: `DIAG.RD_BUSY`, `RD_COUNT` = 0, `RD_EMPTY` = 0,
nothing else. -/
def Obligations.CfgReadRefusesUnfreedSlots : Prop :=
  ∀ (s : State) (arg : Word),
    (∃ it ∈ s.items.take (min arg.toNat s.cfg.maxItems), it.alloc = true) →
    exec (.cfgRead arg) s = .next { s with rdCount := 0, rdEmpty := false, diag := s.diag ||| 0x80 }

/-- R210, R215, R216: CFG_READ of a sector without the signature finds an empty store: `RD_EMPTY` = 1, `RD_COUNT` = 0, one
flash call, no diagnostic bit, no slot touched. With the signature, and no item declared or a limit of 0, it reads the main
header alone: `RD_EMPTY` = 0, `RD_COUNT` = 0, and `DIAG.LEN_MISMATCH` exactly when the declared length is not 0. -/
def Obligations.CfgReadFindsAnEmptyStore : Prop :=
  ∀ (s : State) (arg : Word) (declared : BitVec 16),
    s.job = none → (∀ it ∈ s.items.take (min arg.toNat s.cfg.maxItems), it.alloc = false) →
    callsSucceed s 1 = true → declared = halfOf (s.flash.read 2) (s.flash.read 3) →
    (¬ (s.flash.read 0 = 0x55 ∧ s.flash.read 1 = 0xAA) →
      exec (.cfgRead arg) s = .next { s with
        rdEmpty := true, rdCount := 0, draws := s.draws.drop 1, drawCount := s.drawCount + 1 }) ∧
    (s.flash.read 0 = 0x55 ∧ s.flash.read 1 = 0xAA → declared = 0 ∨ min arg.toNat s.cfg.maxItems = 0 →
      exec (.cfgRead arg) s = .next { s with
        rdEmpty := false, rdCount := 0, diag := s.diag ||| (if declared = 0 then 0 else 0x10)
        draws := s.draws.drop 1, drawCount := s.drawCount + 1 })

/-- R84, R86, R211, R213 to R216, R307: a CFG_READ that is not refused completes whatever ENV draws: it fills at most
`lim` slots, which are the allocated ones among those it may fill, leaves every slot from `lim` on and the flash as
they were, makes `k` flash calls, at most 1 + 2 × `lim`, and changes nothing but the item table, `STATUS` and `DIAG`. There
it sets `FLASH_IO` exactly when ENV draws a failure for one of the `k` calls, and at most one of `CKSUM_FAIL`,
`LEN_MISMATCH` and `BOUNDS`. (The count of draws advances once more for the data of a discarded item, log 4.) -/
def Obligations.CfgReadAlwaysCompletes : Prop :=
  ∀ (s : State) (arg : Word),
    legalConfig s.cfg = true → storeInv s = true → s.job = none →
    (∀ it ∈ s.items.take (min arg.toNat s.cfg.maxItems), it.alloc = false) →
    ∃ (t : State) (k : Nat) (ended : Byte), exec (.cfgRead arg) s = .next t ∧
      t = { s with
        items := t.items, rdEmpty := t.rdEmpty, rdCount := t.rdCount, diag := s.diag ||| s.ioBits k ||| ended
        draws := s.draws.drop k, drawCount := s.drawCount + k + (if ended = 0x08 then 1 else 0) } ∧
      1 ≤ k ∧ k ≤ 1 + 2 * min arg.toNat s.cfg.maxItems ∧ ended ∈ [0x00, 0x08, 0x10, 0x20] ∧
      t.rdCount.toNat ≤ min arg.toNat s.cfg.maxItems ∧
      (∀ i : Nat, i < min arg.toNat s.cfg.maxItems → (t.item i).alloc = decide (i < t.rdCount.toNat)) ∧
      ∀ i : Nat, min arg.toNat s.cfg.maxItems ≤ i → t.item i = s.item i

/-- R213: at the data header of an item that fits the sector, with the checksum of its data not the stored one and no
failed call, the read takes one flash call, or two when the item is not empty, and ends: the slot gets the identifier,
length 0, the stored checksum and no blob, `DIAG.CKSUM_FAIL` is set, `RD_COUNT` is the number of items before it, and no
other slot changes. -/
def Obligations.ChecksumMismatchStopsTheRead : Prop :=
  ∀ (s : State) (lim i off calls : Nat) (remaining : Int) (id len : Byte) (ck : BitVec 16),
    legalConfig s.cfg = true → storeInv s = true → s.job = some (.readHeader lim i off remaining) → s.sched = [] →
    s.flash.read off = id → s.flash.read (off + 1) = len →
    halfOf (s.flash.read (off + 2)) (s.flash.read (off + 3)) = ck →
    off + 4 + alignUp len.toNat ≤ s.cfg.sectorSize →
    calls = (if len = 0 then 1 else 2) → callsSucceed s calls = true →
    checksum s.cfg.cksum (s.flash.readBytes (off + 4) len.toNat) ≠ ck →
    ∃ (t : State) (m : Memory), core.run calls s = .next t ∧
      t = { s with
        items := s.items.set i { alloc := false, id := id, len := 0, cksum := ck, data := m }
        diag := s.diag ||| 0x08
        rdCount := BitVec.ofNat 8 i
        job := none
        draws := s.draws.drop calls
        drawCount := t.drawCount }

/-- R211, R212, R214, R215: at a data header, with no failed call. An item that would pass the end of the sector is not
read: `DIAG.BOUNDS`, the slot unchanged, `RD_COUNT` the number of items before it, the read over. An item that fits, with
the checksum of its data the stored one, takes one flash call, or two when it is not empty, and fills its slot: allocated,
with its identifier, length, checksum and bytes; the bytes of `DATA` past its length keep their values and no other slot
changes. Then the loop goes on with the next header; or, where that header would pass the end of the sector, the read ends
with `DIAG.BOUNDS`; or, with no declared byte left or the limit reached, it ends, with `DIAG.LEN_MISMATCH` exactly when
the declared length and the bytes read disagree. -/
def Obligations.VerifiedItemFillsItsSlot : Prop :=
  ∀ (s : State) (lim i off calls : Nat) (remaining left : Int) (id len : Byte) (ck : BitVec 16),
    legalConfig s.cfg = true → storeInv s = true → s.job = some (.readHeader lim i off remaining) → s.sched = [] →
    s.flash.read off = id → s.flash.read (off + 1) = len →
    halfOf (s.flash.read (off + 2)) (s.flash.read (off + 3)) = ck →
    calls = (if len = 0 then 1 else 2) → left = remaining - (4 + alignUp len.toNat : Nat) →
    (s.cfg.sectorSize < off + 4 + alignUp len.toNat → callsSucceed s 1 = true →
      core.run 1 s = .next { s with
        diag := s.diag ||| 0x20, rdCount := BitVec.ofNat 8 i, job := none
        draws := s.draws.drop 1, drawCount := s.drawCount + 1 }) ∧
    (off + 4 + alignUp len.toNat ≤ s.cfg.sectorSize → callsSucceed s calls = true →
      checksum s.cfg.cksum (s.flash.readBytes (off + 4) len.toNat) = ck →
      ∃ (t : State) (m : Memory), core.run calls s = .next t ∧
        t = { s with
          items := s.items.set i { alloc := true, id := id, len := len.setWidth 16, cksum := ck, data := m }
          diag := t.diag, rdCount := t.rdCount, job := t.job
          draws := s.draws.drop calls, drawCount := s.drawCount + calls } ∧
        (∀ k : Nat, m.read k = if k < len.toNat then s.flash.read (off + 4 + k) else (s.item i).data.read k) ∧
        (0 < left → i + 1 < lim → off + 4 + alignUp len.toNat + 4 ≤ s.cfg.sectorSize →
          t.job = some (.readHeader lim (i + 1) (off + 4 + alignUp len.toNat) left) ∧
          t.rdCount = s.rdCount ∧ t.diag = s.diag) ∧
        (0 < left → i + 1 < lim → s.cfg.sectorSize < off + 4 + alignUp len.toNat + 4 →
          t.job = none ∧ t.rdCount = BitVec.ofNat 8 (i + 1) ∧ t.diag = s.diag ||| 0x20) ∧
        (left ≤ 0 ∨ lim ≤ i + 1 →
          t.job = none ∧ t.rdCount = BitVec.ofNat 8 (i + 1) ∧
          t.diag = s.diag ||| (if left = 0 then 0 else 0x10)))

/-- R223: configuration round trip. From a state with no unfreed blob, an accepted CFG_WRITE of `n` items followed by a
CFG_READ of at least `n`, with no failed flash call, gives back every item's identifier, length and bytes, allocated,
with `RD_COUNT` = n, `RD_EMPTY` = 0 and no diagnostic bit set by either. -/
def Obligations.ConfigurationRoundTrip : Prop :=
  ∀ (s t : State) (n m : Word),
    legalConfig s.cfg = true → storeInv s = true → s.job = none →
    (∀ it ∈ s.items, it.alloc = false) → writeAccepted s n.toNat = true → n.toNat ≤ m.toNat →
    callsSucceed s (4 * n.toNat + 3) = true →
    exec (.cfgWrite n) s = .next t →
    ∃ u : State, exec (.cfgRead m) t = .next u ∧
      u.rdCount.toNat = n.toNat ∧ u.rdEmpty = false ∧ u.diag = s.diag ∧
      ∀ i : Nat, i < n.toNat →
        (u.item i).alloc = true ∧ (u.item i).id = (s.item i).id ∧ (u.item i).len = (s.item i).len ∧
        (u.item i).blob = (s.item i).blob

/-- R220, R221: CFG_FREE clears `ALLOC` and `LEN` of the first min(n, MAX_ITEMS) slots and CFG_FREE_ALL of every slot;
`ID`, `CKSUM` and `DATA`, the other slots and everything else keep their values. -/
def Obligations.FreeClearsAllocAndLength : Prop :=
  ∀ (s : State) (arg : Word),
    memoriesSized s = true →
    exec (.cfgFree arg) s = .next { s with
      items := (s.items.take arg.toNat).map (fun it => { it with alloc := false, len := 0 }) ++
        s.items.drop arg.toNat } ∧
    exec .cfgFreeAll s = .next { s with
      items := s.items.map (fun it => { it with alloc := false, len := 0 }) }

/-- R222: no command but CFG_FREE, for a slot it names, and CFG_FREE_ALL takes a blob from its owner. -/
def Obligations.BlobsAreFreedOnlyByTheirOwner : Prop :=
  ∀ (i : Instr) (s t : State) (k : Nat),
    legalConfig s.cfg = true → storeInv s = true → s.job = none → exec i s = .next t →
    (s.item k).alloc = true → (t.item k).alloc = false →
    i = .cfgFreeAll ∨ ∃ n : Word, i = .cfgFree n ∧ k < n.toNat

/-- R70, R307: no command but CFG_WRITE changes the flash sector. -/
def Obligations.OnlyCfgWriteChangesFlash : Prop :=
  ∀ (i : Instr) (s t : State), s.job = none → exec i s = .next t → t.flash ≠ s.flash → ∃ n : Word, i = .cfgWrite n

/-- R93: a TICK step and a flash call of a store command commute. -/
def Obligations.TicksCommuteWithFlashCalls : Prop :=
  ∀ (s : State) (j : Job), (s.microStep j).timerFires = s.timerFires.microStep j

/-- R93: a store command issued with other agents' steps allowed between its flash calls, and then left alone, ends in
the state the whole command leaves. -/
def Obligations.SplitCommandEndsLikeTheWhole : Prop :=
  ∀ (s t : State) (v : Word),
    s.inv = true → s.job = none → s.sched = [.hostWrite (s.cfg.regBase + 0x010) 32 v .split] →
    exec (decodeCommand (v.setWidth 8) s.cmdArg) { s with sched := [] } = .next t →
    ∃ k : Nat, k ≤ 2 * s.cfg.maxItems + 3 ∧ core.run k s = .next t

/-! ## The whole machine -/

/-- R24, R75, R273: under the invariant a step stops only on a host access that R24 gives no meaning: with a command in
flight, or with no such access at the head of the schedule, it answers a next state. -/
def Obligations.StepsStopOnlyOnBadAccesses : Prop :=
  ∀ s : State, s.inv = true → (nextAccessLegal s = true ∨ s.job.isSome = true) → ∃ t : State, step s = .next t

/-- R75: under the invariant the next flash call of a command in flight has an offset and a size that are multiples
of 4 and lies in the sector. -/
def Obligations.FlashCallsAreAlignedAndInside : Prop :=
  ∀ (s : State) (j : Job), s.inv = true → s.job = some j →
    (j.target s).1 % 4 = 0 ∧ (j.target s).2 % 4 = 0 ∧ 0 < (j.target s).2 ∧
    (j.target s).1 + (j.target s).2 ≤ s.cfg.sectorSize

/-- R157, R31 to R37: every step keeps the sequencer's invariant, the PWM gate off between steps and the pin low in
IDLE among it. -/
def Obligations.StepKeepsTheSequencerInvariant : Prop :=
  ∀ s t : State, seqInv s.cfg s.gen = true → step s = .next t → seqInv t.cfg t.gen = true

/-- Every step keeps the canonical form of the flash sector and of every slot's data (the model's memories, log 8). -/
def Obligations.StepKeepsTheMemoriesCanonical : Prop :=
  ∀ s t : State, memoriesWf s = true → step s = .next t → memoriesWf t = true

/-- R20, R51, R53, R75, R201, R211: every step keeps the sizes of the memories and the place of a store command in
flight. -/
def Obligations.StepKeepsTheStoreInvariant : Prop :=
  ∀ s t : State, storeInv s = true → step s = .next t → storeInv t = true

/-- R26, R27: every step keeps the latches at their reset value, or a packet that begins with B2 and its frame; and
right after ENCODE or SEND it is the second. -/
def Obligations.StepKeepsTheLatchInvariant : Prop :=
  (∀ s t : State, latchInv s = true → step s = .next t → latchInv t = true) ∧
  ∀ (i : Instr) (s t : State), i = .encode ∨ i = .send → exec i s = .next t →
    t.packet.p0 = 0xB2 ∧ t.frame = ⟨t.packet.p0, ~~~t.packet.p0, t.packet.p1, ~~~t.packet.p1, t.packet.p2, ~~~t.packet.p2⟩

/-- R9, R52: no step changes the configuration, and no step but a reset takes anything from the emission log. -/
def Obligations.LogOnlyGrows : Prop :=
  ∀ s t : State, step s = .next t → t.cfg = s.cfg ∧ (resetIsNext s = false → s.gen.out <+: t.gen.out)

/-- R270: no command clears a diagnostic bit. -/
def Obligations.DiagnosticsAreSticky : Prop :=
  ∀ (i : Instr) (s t : State) (k : Nat), exec i s = .next t → s.diag.getLsbD k = true → t.diag.getLsbD k = true

/-- R43, R270: no bit of `DIAG` changes what a command does: with any other `DIAG` it leaves the same state but for
`DIAG`, to which it adds the same bits. -/
def Obligations.DiagnosticsInfluenceNothing : Prop :=
  ∀ (i : Instr) (s t : State) (d : Byte), exec i s = .next t →
    ∃ (t' : State) (added : Byte), exec i { s with diag := d } = .next t' ∧
      t.diag = s.diag ||| added ∧ t' = { t with diag := d ||| added }
end

