-- ==== Sys2Proof/Laws/Decode.lean ====
section
/-! SUPPORT. Words and their bytes, bit by bit, and what an accepted host access is. -/

namespace Sys2Proof

/-- The bits of a byte of a word. -/
@[simp] theorem getLsbD_byteOfWord (w : Word) (k b : Nat) :
    (byteOfWord w k).getLsbD b = (decide (b < 8) && w.getLsbD (8 * k + b)) := by
  simp [byteOfWord]

/-- The bits of a word made of four bytes. -/
theorem getLsbD_wordOfBytes (b0 b1 b2 b3 : Byte) (k : Nat) :
    (wordOfBytes b0 b1 b2 b3).getLsbD k =
      if k < 8 then b0.getLsbD k else if k < 16 then b1.getLsbD (k - 8) else if k < 24 then b2.getLsbD (k - 16)
      else b3.getLsbD (k - 24) := by
  unfold wordOfBytes
  simp only [BitVec.getLsbD_append]
  by_cases h1 : k < 8
  · simp [h1]
  · by_cases h2 : k < 16
    · simp [h1, h2, show k - 8 < 8 by omega]
    · by_cases h3 : k < 24
      · simp [h1, h2, h3, show ¬ k - 8 < 8 by omega, show k - 8 - 8 = k - 16 by omega, show k - 16 < 8 by omega]
      · simp [h1, h2, h3, show ¬ k - 8 < 8 by omega, show ¬ k - 8 - 8 < 8 by omega,
          show k - 8 - 8 - 8 = k - 24 by omega]

/-- A word is made of its bytes (30_encoding.md R105). -/
@[simp] theorem wordOfBytes_byteOfWord (w : Word) :
    wordOfBytes (byteOfWord w 0) (byteOfWord w 1) (byteOfWord w 2) (byteOfWord w 3) = w := by
  refine BitVec.eq_of_getLsbD_eq fun k hk => ?_
  simp only [getLsbD_wordOfBytes, getLsbD_byteOfWord]
  by_cases h1 : k < 8
  · simp [h1]
  · by_cases h2 : k < 16
    · simp [h1, h2, show k - 8 < 8 by omega, show 8 + (k - 8) = k by omega]
    · by_cases h3 : k < 24
      · simp [h1, h2, h3, show k - 16 < 8 by omega, show 16 + (k - 16) = k by omega]
      · simp [h1, h2, h3, show k - 24 < 8 by omega, show 24 + (k - 24) = k by omega]

/-- The bytes of a word made of four bytes. -/
theorem byteOfWord_wordOfBytes (b0 b1 b2 b3 : Byte) :
    byteOfWord (wordOfBytes b0 b1 b2 b3) 0 = b0 ∧ byteOfWord (wordOfBytes b0 b1 b2 b3) 1 = b1 ∧
    byteOfWord (wordOfBytes b0 b1 b2 b3) 2 = b2 ∧ byteOfWord (wordOfBytes b0 b1 b2 b3) 3 = b3 := by
  refine ⟨?_, ?_, ?_, ?_⟩ <;> refine BitVec.eq_of_getLsbD_eq fun k hk => ?_ <;>
    simp only [getLsbD_byteOfWord, getLsbD_wordOfBytes, hk]
  · simp [hk]
  · simp [show ¬ 8 * 1 + k < 8 by omega, show 8 * 1 + k < 16 by omega]
  · simp [show ¬ 8 * 2 + k < 8 by omega, show ¬ 8 * 2 + k < 16 by omega, show 8 * 2 + k < 24 by omega]
  · simp [show ¬ 8 * 3 + k < 8 by omega, show ¬ 8 * 3 + k < 16 by omega, show ¬ 8 * 3 + k < 24 by omega]

namespace Machine

/-- An access that is accepted reaches the register that the map puts at its offset. -/
theorem decodeAccess_of_offset (c : Config) {off : Nat} (h : off < 0x400) (h4 : off % 4 = 0) :
    decodeAccess c (c.regBase + off) 32 = .ok (regOfOffset off) := by
  simp [decodeAccess, registerSpace, h, h4]

end Machine

end Sys2Proof
end

