-- ==== Sys2Proof/Laws/Memory.lean ====
section
/-! SUPPORT. Byte memories: a read after a write, and that every operation keeps the canonical form and the bound. -/

namespace Sys2Proof.Machine

@[simp] theorem Memory.read_nil (a : Nat) : Memory.read [] a = Memory.unlisted := rfl

/-- The canonical form of a memory with a first cell, in parts. -/
theorem Memory.wf_cons {k : Nat} {b : Byte} {rest : Memory} :
    Memory.wf ((k, b) :: rest) = true ↔
      b ≠ Memory.unlisted ∧ (∀ c ∈ rest, k < c.1) ∧ Memory.wf rest = true := by
  simp [Memory.wf, and_assoc]

/-- An address that no cell has reads as unlisted. -/
theorem Memory.read_of_unlisted {m : Memory} {a : Nat} (h : ∀ c ∈ m, c.1 ≠ a) : m.read a = Memory.unlisted := by
  induction m with
  | nil => rfl
  | cons c rest ih =>
    have hc : c.1 ≠ a := h c (by simp)
    simpa [Memory.read, hc] using ih (fun d hd => h d (by simp [hd]))

/-- A read after a write. -/
theorem Memory.read_write {m : Memory} (h : m.wf = true) (a : Nat) (b : Byte) (x : Nat) :
    (m.write a b).read x = if x = a then b else m.read x := by
  induction m with
  | nil =>
    by_cases hb : b = Memory.unlisted <;> by_cases hx : x = a <;>
      simp [Memory.write, Memory.read, hb, hx]
    exact fun h => absurd h.symm hx
  | cons c rest ih =>
    obtain ⟨k, v⟩ := c
    obtain ⟨hv, hlt, hrest⟩ := Memory.wf_cons.mp h
    simp only [Memory.write]
    split
    · rename_i hak
      split
      · rename_i hb
        by_cases hx : x = a
        · subst hx
          have : Memory.read ((k, v) :: rest) x = Memory.unlisted := by
            refine Memory.read_of_unlisted fun c hc => ?_
            rcases List.mem_cons.mp hc with rfl | hc
            · simp; omega
            · have := hlt c hc; omega
          simp [this, hb]
        · simp [hx]
      · by_cases hx : x = a
        · simp [Memory.read, hx]
        · have : ¬ a = x := fun e => hx e.symm
          simp [Memory.read, hx, this]
    · split
      · rename_i hak
        subst hak
        split
        · rename_i hb
          by_cases hx : x = a
          · subst hx
            have : Memory.read rest x = Memory.unlisted :=
              Memory.read_of_unlisted fun c hc => by have := hlt c hc; omega
            simp [this, hb]
          · have : ¬ a = x := fun e => hx e.symm
            simp [Memory.read, hx, this]
        · by_cases hx : x = a
          · simp [Memory.read, hx]
          · have : ¬ a = x := fun e => hx e.symm
            simp [Memory.read, hx, this]
      · by_cases hkx : k = x
        · subst hkx
          have : ¬ k = a := by omega
          simp [Memory.read, this]
        · simp [Memory.read, hkx, ih hrest]

/-- The cells of a written memory. -/
theorem Memory.mem_write {m : Memory} {a : Nat} {b : Byte} {c : Host.Cell} (h : c ∈ m.write a b) :
    c.1 = a ∨ c ∈ m := by
  induction m with
  | nil =>
    simp only [Memory.write] at h
    split at h <;> simp_all
  | cons d rest ih =>
    obtain ⟨k, v⟩ := d
    simp only [Memory.write] at h
    split at h
    · split at h
      · exact .inr h
      · rcases List.mem_cons.mp h with rfl | h
        · exact .inl rfl
        · exact .inr h
    · split at h
      · split at h
        · exact .inr (List.mem_cons_of_mem _ h)
        · rcases List.mem_cons.mp h with rfl | h
          · exact .inl rfl
          · exact .inr (List.mem_cons_of_mem _ h)
      · rcases List.mem_cons.mp h with rfl | h
        · exact .inr (by simp)
        · rcases ih h with h | h
          · exact .inl h
          · exact .inr (List.mem_cons_of_mem _ h)

/-- A write keeps the canonical form. -/
theorem Memory.write_wf {m : Memory} (h : m.wf = true) (a : Nat) (b : Byte) : (m.write a b).wf = true := by
  induction m with
  | nil => by_cases hb : b = Memory.unlisted <;> simp [Memory.write, Memory.wf, hb]
  | cons c rest ih =>
    obtain ⟨k, v⟩ := c
    obtain ⟨hv, hlt, hrest⟩ := Memory.wf_cons.mp h
    simp only [Memory.write]
    split
    · rename_i hak
      split
      · exact h
      · rename_i hb
        refine Memory.wf_cons.mpr ⟨hb, fun c hc => ?_, h⟩
        rcases List.mem_cons.mp hc with rfl | hc
        · exact hak
        · have := hlt c hc; omega
    · split
      · split
        · exact hrest
        · rename_i hak hb
          exact Memory.wf_cons.mpr ⟨hb, fun c hc => hak ▸ hlt c hc, hrest⟩
      · refine Memory.wf_cons.mpr ⟨hv, fun c hc => ?_, ih hrest⟩
        rcases Memory.mem_write hc with h1 | h1
        · omega
        · exact hlt c h1

/-- A write inside the bound keeps it. -/
theorem Memory.write_within {m : Memory} {n a : Nat} (h : m.within n = true) (ha : a < n) (b : Byte) :
    (m.write a b).within n = true := by
  simp only [Memory.within, List.all_eq_true, decide_eq_true_eq] at *
  intro c hc
  rcases Memory.mem_write hc with h1 | h1
  · omega
  · exact h c h1

/-- Writing several bytes keeps the canonical form. -/
theorem Memory.writeBytes_wf {m : Memory} (h : m.wf = true) (off : Nat) (bs : List Byte) :
    (m.writeBytes off bs).wf = true := by
  induction bs generalizing m off with
  | nil => exact h
  | cons b bs ih => exact ih (Memory.write_wf h off b) (off + 1)

/-- Writing several bytes inside the bound keeps it. -/
theorem Memory.writeBytes_within {m : Memory} {n off : Nat} {bs : List Byte} (h : m.within n = true)
    (hb : off + bs.length ≤ n) : (m.writeBytes off bs).within n = true := by
  induction bs generalizing m off with
  | nil => exact h
  | cons b bs ih =>
    simp only [List.length_cons] at hb
    exact ih (Memory.write_within h (by omega) b) (by omega)

/-- A read after a write of several bytes. -/
theorem Memory.read_writeBytes {m : Memory} (h : m.wf = true) (off : Nat) (bs : List Byte) (x : Nat) :
    (m.writeBytes off bs).read x =
      if off ≤ x ∧ x < off + bs.length then bs.getD (x - off) 0 else m.read x := by
  induction bs generalizing m off with
  | nil =>
    have : ¬ (off ≤ x ∧ x < off + 0) := by omega
    simp only [Memory.writeBytes, List.length_nil, this, if_false]
  | cons b bs ih =>
    simp only [Memory.writeBytes, ih (Memory.write_wf h off b), Memory.read_write h, List.length_cons]
    by_cases hx : x = off
    · subst hx
      simp
    · by_cases hin : off + 1 ≤ x ∧ x < off + 1 + bs.length
      · have h2 : off ≤ x ∧ x < off + (bs.length + 1) := by omega
        have h3 : x - off = (x - (off + 1)) + 1 := by omega
        simp only [hin, h2, and_self, if_true, h3, List.getD_cons_succ]
      · have h2 : ¬ (off ≤ x ∧ x < off + (bs.length + 1)) := by omega
        simp only [hin, h2, hx, if_false]

/-- An erased memory. -/
theorem Memory.read_eraseBelow (m : Memory) (n x : Nat) :
    (m.eraseBelow n).read x = if x < n then Memory.unlisted else m.read x := by
  induction m with
  | nil => simp [Memory.eraseBelow]
  | cons c rest ih =>
    obtain ⟨k, v⟩ := c
    simp only [Memory.eraseBelow] at ih
    by_cases hk : n ≤ k
    · by_cases hkx : k = x
      · subst hkx
        have : ¬ k < n := by omega
        simp [Memory.eraseBelow, Memory.read, hk, this]
      · simp [Memory.eraseBelow, Memory.read, hk, hkx, ih]
    · by_cases hkx : k = x
      · subst hkx
        have : k < n := by omega
        simp [Memory.eraseBelow, hk, ih, this]
      · simp [Memory.eraseBelow, Memory.read, hk, hkx, ih]

/-- Erasing keeps the canonical form. -/
theorem Memory.eraseBelow_wf {m : Memory} (h : m.wf = true) (n : Nat) : (m.eraseBelow n).wf = true := by
  induction m with
  | nil => rfl
  | cons c rest ih =>
    obtain ⟨k, v⟩ := c
    obtain ⟨hv, hlt, hrest⟩ := Memory.wf_cons.mp h
    have hr := ih hrest
    simp only [Memory.eraseBelow] at hr ⊢
    by_cases hk : n ≤ k
    · simp only [List.filter_cons, hk, decide_true, if_true]
      exact Memory.wf_cons.mpr ⟨hv, fun c hc => hlt c (List.mem_filter.mp hc).1, hr⟩
    · simpa [List.filter_cons, hk] using hr

/-- Erasing keeps the bound. -/
theorem Memory.eraseBelow_within {m : Memory} {n k : Nat} (h : m.within k = true) :
    (m.eraseBelow n).within k = true := by
  simp only [Memory.within, Memory.eraseBelow, List.all_eq_true, decide_eq_true_eq, List.mem_filter] at *
  exact fun c hc => h c hc.1

/-- A memory in canonical form and inside the bound is empty once erased. -/
theorem Memory.eraseBelow_eq_nil {m : Memory} {n : Nat} (h : m.within n = true) : m.eraseBelow n = [] := by
  simp only [Memory.within, Memory.eraseBelow, List.all_eq_true, decide_eq_true_eq, List.filter_eq_nil_iff] at *
  intro c hc
  have := h c hc
  omega

@[simp] theorem Memory.length_readBytes (m : Memory) (off n : Nat) : (m.readBytes off n).length = n := by
  simp [Memory.readBytes]

/-- One byte of several read. -/
theorem Memory.getD_readBytes {m : Memory} {off n k : Nat} (h : k < n) (d : Byte) :
    (m.readBytes off n).getD k d = m.read (off + k) := by
  simp [Memory.readBytes, List.getD_eq_getElem?_getD, h]

@[simp] theorem Memory.length_programmed (m : Memory) (off : Nat) (new : List Byte) :
    (m.programmed off new).length = new.length := by
  simp [Memory.programmed]

@[simp] theorem Memory.length_tornBytes (m : Memory) (off : Nat) (new : List Byte) (w : Nat) (free : List Byte) :
    (m.tornBytes off new w free).length = new.length := by
  simp [Memory.tornBytes]

/-- Programming only clears bits (20_memory.md R85). -/
theorem Memory.getD_programmed {m : Memory} {off k : Nat} {new : List Byte} (h : k < new.length) :
    (m.programmed off new).getD k 0 = m.read (off + k) &&& new.getD k 0 := by
  simp [Memory.programmed, Memory.readBytes, List.getD_eq_getElem?_getD, h]

/-- Over erased bytes programming stores the new bytes (R85). -/
theorem Memory.programmed_erased {m : Memory} {off : Nat} {new : List Byte}
    (h : ∀ k < new.length, m.read (off + k) = Memory.unlisted) : m.programmed off new = new := by
  refine List.ext_getElem (by simp) fun k h1 h2 => ?_
  have h3 := Memory.getD_programmed (m := m) (off := off) h2
  rw [h k h2, show Memory.unlisted = BitVec.allOnes 8 from rfl, BitVec.allOnes_and] at h3
  simpa [List.getD_eq_getElem?_getD, h1, h2] using h3

/-- Two memories in canonical form that read alike are equal. -/
theorem Memory.ext_read {m₁ m₂ : Memory} (h₁ : m₁.wf = true) (h₂ : m₂.wf = true)
    (h : ∀ a, m₁.read a = m₂.read a) : m₁ = m₂ := by
  induction m₁ generalizing m₂ with
  | nil =>
    cases m₂ with
    | nil => rfl
    | cons c rest =>
      obtain ⟨k, v⟩ := c
      have hv := (Memory.wf_cons.mp h₂).1
      have := h k
      simp [Memory.read] at this
      exact absurd this.symm hv
  | cons c rest ih =>
    obtain ⟨k, v⟩ := c
    obtain ⟨hv, hlt, hrest⟩ := Memory.wf_cons.mp h₁
    cases m₂ with
    | nil =>
      have := h k
      simp [Memory.read] at this
      exact absurd this hv
    | cons d rest' =>
      obtain ⟨k', v'⟩ := d
      obtain ⟨hv', hlt', hrest'⟩ := Memory.wf_cons.mp h₂
      have below : ∀ {r : Memory} {x y : Nat}, (∀ c ∈ r, y < c.1) → x ≤ y → r.read x = Memory.unlisted :=
        fun hr hxy => Memory.read_of_unlisted fun c hc => by have := hr c hc; omega
      have hk : k = k' := by
        rcases Nat.lt_trichotomy k k' with hlt1 | he | hgt
        · have := h k
          have hne : ¬ k' = k := by omega
          simp only [Memory.read, if_true, hne, if_false] at this
          exact absurd (this.trans (below hlt' (by omega))) hv
        · exact he
        · have := h k'
          have hne : ¬ k = k' := by omega
          simp only [Memory.read, if_true, hne, if_false] at this
          exact absurd (this.symm.trans (below hlt (by omega))) hv'
      subst hk
      have hvv : v = v' := by simpa [Memory.read] using h k
      subst hvv
      refine congrArg _ (ih hrest hrest' fun a => ?_)
      by_cases ha : k = a
      · subst ha
        rw [below hlt (Nat.le_refl k), below hlt' (Nat.le_refl k)]
      · have := h a
        simpa [Memory.read, ha] using this

end Sys2Proof.Machine
end

