-- ==== Sys2Proof/Laws/PerInstr.lean ====
section
/-! SUPPORT. For every command: the form of its record (30_encoding.md R100, R105). -/

namespace Sys2Proof.Laws.RecordForm

/-- A command's record is five bytes long, begins with its opcode, and holds the operand it carries. -/
def Statement (i : Instr) : Prop :=
  (encode i).length = 5 ∧ (encode i).head? = some i.opcode ∧
  ∀ b0 b1 b2 b3 : Byte, (encode i).tail = [b0, b1, b2, b3] → wordOfBytes b0 b1 b2 b3 = i.operand

theorem of_encode (i : Instr) : Statement i := by
  refine ⟨rfl, rfl, fun b0 b1 b2 b3 h => ?_⟩
  simp only [encode, List.tail_cons, List.cons.injEq, and_true] at h
  obtain ⟨rfl, rfl, rfl, rfl⟩ := h
  exact wordOfBytes_byteOfWord _

theorem on : Statement .on := of_encode _
theorem off : Statement .off := of_encode _
theorem auto : Statement .auto := of_encode _
theorem cool : Statement .cool := of_encode _
theorem heat : Statement .heat := of_encode _
theorem temp (arg : Word) : Statement (.temp arg) := of_encode _
theorem fanLevel (arg : Word) : Statement (.fanLevel arg) := of_encode _
theorem move : Statement .move := of_encode _
theorem encode : Statement .encode := of_encode _
theorem send : Statement .send := of_encode _
theorem cfgWrite (arg : Word) : Statement (.cfgWrite arg) := of_encode _
theorem cfgRead (arg : Word) : Statement (.cfgRead arg) := of_encode _
theorem cfgFree (arg : Word) : Statement (.cfgFree arg) := of_encode _
theorem cfgFreeAll : Statement .cfgFreeAll := of_encode _
theorem unrecognised (op : Byte) : Statement (.unrecognised op) := of_encode _

end Sys2Proof.Laws.RecordForm
end

