-- ==== Sys2Proof/Laws/State.lean ====
section
/-! SUPPORT. One lemma per field of the state for each named update of the state. -/

namespace Sys2Proof.Machine

variable (s : State)

@[simp] theorem State.raiseDiag_cfg (b : DiagBit) : (s.raiseDiag b).cfg = s.cfg := rfl
@[simp] theorem State.raiseDiag_dev (b : DiagBit) : (s.raiseDiag b).dev = s.dev := rfl
@[simp] theorem State.raiseDiag_packet (b : DiagBit) : (s.raiseDiag b).packet = s.packet := rfl
@[simp] theorem State.raiseDiag_frame (b : DiagBit) : (s.raiseDiag b).frame = s.frame := rfl
@[simp] theorem State.raiseDiag_gen (b : DiagBit) : (s.raiseDiag b).gen = s.gen := rfl
@[simp] theorem State.raiseDiag_ctrlBlk (b : DiagBit) : (s.raiseDiag b).ctrlBlk = s.ctrlBlk := rfl
@[simp] theorem State.raiseDiag_wrErr (b : DiagBit) : (s.raiseDiag b).wrErr = s.wrErr := rfl
@[simp] theorem State.raiseDiag_rdEmpty (b : DiagBit) : (s.raiseDiag b).rdEmpty = s.rdEmpty := rfl
@[simp] theorem State.raiseDiag_rdCount (b : DiagBit) : (s.raiseDiag b).rdCount = s.rdCount := rfl
@[simp] theorem State.raiseDiag_diag (b : DiagBit) : (s.raiseDiag b).diag = s.diag ||| b.mask := rfl
@[simp] theorem State.raiseDiag_cmdArg (b : DiagBit) : (s.raiseDiag b).cmdArg = s.cmdArg := rfl
@[simp] theorem State.raiseDiag_itemSel (b : DiagBit) : (s.raiseDiag b).itemSel = s.itemSel := rfl
@[simp] theorem State.raiseDiag_items (b : DiagBit) : (s.raiseDiag b).items = s.items := rfl
@[simp] theorem State.raiseDiag_flash (b : DiagBit) : (s.raiseDiag b).flash = s.flash := rfl
@[simp] theorem State.raiseDiag_job (b : DiagBit) : (s.raiseDiag b).job = s.job := rfl
@[simp] theorem State.raiseDiag_rdata (b : DiagBit) : (s.raiseDiag b).rdata = s.rdata := rfl
@[simp] theorem State.raiseDiag_sched (b : DiagBit) : (s.raiseDiag b).sched = s.sched := rfl
@[simp] theorem State.raiseDiag_draws (b : DiagBit) : (s.raiseDiag b).draws = s.draws := rfl
@[simp] theorem State.raiseDiag_drawCount (b : DiagBit) : (s.raiseDiag b).drawCount = s.drawCount := rfl

@[simp] theorem State.drawn_cfg : s.drawn.cfg = s.cfg := rfl
@[simp] theorem State.drawn_dev : s.drawn.dev = s.dev := rfl
@[simp] theorem State.drawn_packet : s.drawn.packet = s.packet := rfl
@[simp] theorem State.drawn_frame : s.drawn.frame = s.frame := rfl
@[simp] theorem State.drawn_gen : s.drawn.gen = s.gen := rfl
@[simp] theorem State.drawn_ctrlBlk : s.drawn.ctrlBlk = s.ctrlBlk := rfl
@[simp] theorem State.drawn_wrErr : s.drawn.wrErr = s.wrErr := rfl
@[simp] theorem State.drawn_rdEmpty : s.drawn.rdEmpty = s.rdEmpty := rfl
@[simp] theorem State.drawn_rdCount : s.drawn.rdCount = s.rdCount := rfl
@[simp] theorem State.drawn_diag : s.drawn.diag = s.diag := rfl
@[simp] theorem State.drawn_cmdArg : s.drawn.cmdArg = s.cmdArg := rfl
@[simp] theorem State.drawn_itemSel : s.drawn.itemSel = s.itemSel := rfl
@[simp] theorem State.drawn_items : s.drawn.items = s.items := rfl
@[simp] theorem State.drawn_flash : s.drawn.flash = s.flash := rfl
@[simp] theorem State.drawn_job : s.drawn.job = s.job := rfl
@[simp] theorem State.drawn_rdata : s.drawn.rdata = s.rdata := rfl
@[simp] theorem State.drawn_sched : s.drawn.sched = s.sched := rfl
@[simp] theorem State.drawn_draws : s.drawn.draws = s.draws.tail := rfl
@[simp] theorem State.drawn_drawCount : s.drawn.drawCount = s.drawCount + 1 := rfl

@[simp] theorem State.advanced_cfg : s.advanced.cfg = s.cfg := rfl
@[simp] theorem State.advanced_dev : s.advanced.dev = s.dev := rfl
@[simp] theorem State.advanced_packet : s.advanced.packet = s.packet := rfl
@[simp] theorem State.advanced_frame : s.advanced.frame = s.frame := rfl
@[simp] theorem State.advanced_gen : s.advanced.gen = s.gen := rfl
@[simp] theorem State.advanced_ctrlBlk : s.advanced.ctrlBlk = s.ctrlBlk := rfl
@[simp] theorem State.advanced_wrErr : s.advanced.wrErr = s.wrErr := rfl
@[simp] theorem State.advanced_rdEmpty : s.advanced.rdEmpty = s.rdEmpty := rfl
@[simp] theorem State.advanced_rdCount : s.advanced.rdCount = s.rdCount := rfl
@[simp] theorem State.advanced_diag : s.advanced.diag = s.diag := rfl
@[simp] theorem State.advanced_cmdArg : s.advanced.cmdArg = s.cmdArg := rfl
@[simp] theorem State.advanced_itemSel : s.advanced.itemSel = s.itemSel := rfl
@[simp] theorem State.advanced_items : s.advanced.items = s.items := rfl
@[simp] theorem State.advanced_flash : s.advanced.flash = s.flash := rfl
@[simp] theorem State.advanced_job : s.advanced.job = s.job := rfl
@[simp] theorem State.advanced_rdata : s.advanced.rdata = s.rdata := rfl
@[simp] theorem State.advanced_sched : s.advanced.sched = s.sched := rfl
@[simp] theorem State.advanced_draws : s.advanced.draws = s.draws := rfl
@[simp] theorem State.advanced_drawCount : s.advanced.drawCount = s.drawCount + 1 := rfl

@[simp] theorem State.putItem_cfg (i : Nat) (it : Item) : (s.putItem i it).cfg = s.cfg := rfl
@[simp] theorem State.putItem_dev (i : Nat) (it : Item) : (s.putItem i it).dev = s.dev := rfl
@[simp] theorem State.putItem_packet (i : Nat) (it : Item) : (s.putItem i it).packet = s.packet := rfl
@[simp] theorem State.putItem_frame (i : Nat) (it : Item) : (s.putItem i it).frame = s.frame := rfl
@[simp] theorem State.putItem_gen (i : Nat) (it : Item) : (s.putItem i it).gen = s.gen := rfl
@[simp] theorem State.putItem_ctrlBlk (i : Nat) (it : Item) : (s.putItem i it).ctrlBlk = s.ctrlBlk := rfl
@[simp] theorem State.putItem_wrErr (i : Nat) (it : Item) : (s.putItem i it).wrErr = s.wrErr := rfl
@[simp] theorem State.putItem_rdEmpty (i : Nat) (it : Item) : (s.putItem i it).rdEmpty = s.rdEmpty := rfl
@[simp] theorem State.putItem_rdCount (i : Nat) (it : Item) : (s.putItem i it).rdCount = s.rdCount := rfl
@[simp] theorem State.putItem_diag (i : Nat) (it : Item) : (s.putItem i it).diag = s.diag := rfl
@[simp] theorem State.putItem_cmdArg (i : Nat) (it : Item) : (s.putItem i it).cmdArg = s.cmdArg := rfl
@[simp] theorem State.putItem_itemSel (i : Nat) (it : Item) : (s.putItem i it).itemSel = s.itemSel := rfl
@[simp] theorem State.putItem_items (i : Nat) (it : Item) : (s.putItem i it).items = s.items.set i it := rfl
@[simp] theorem State.putItem_flash (i : Nat) (it : Item) : (s.putItem i it).flash = s.flash := rfl
@[simp] theorem State.putItem_job (i : Nat) (it : Item) : (s.putItem i it).job = s.job := rfl
@[simp] theorem State.putItem_rdata (i : Nat) (it : Item) : (s.putItem i it).rdata = s.rdata := rfl
@[simp] theorem State.putItem_sched (i : Nat) (it : Item) : (s.putItem i it).sched = s.sched := rfl
@[simp] theorem State.putItem_draws (i : Nat) (it : Item) : (s.putItem i it).draws = s.draws := rfl
@[simp] theorem State.putItem_drawCount (i : Nat) (it : Item) : (s.putItem i it).drawCount = s.drawCount := rfl

@[simp] theorem State.latchFrame_cfg : s.latchFrame.cfg = s.cfg := rfl
@[simp] theorem State.latchFrame_dev : s.latchFrame.dev = s.dev := rfl
@[simp] theorem State.latchFrame_packet : s.latchFrame.packet = encodePacket s.cfg s.dev := rfl
@[simp] theorem State.latchFrame_frame : s.latchFrame.frame = frameOf (encodePacket s.cfg s.dev) := rfl
@[simp] theorem State.latchFrame_gen : s.latchFrame.gen = s.gen := rfl
@[simp] theorem State.latchFrame_ctrlBlk : s.latchFrame.ctrlBlk = s.ctrlBlk := rfl
@[simp] theorem State.latchFrame_wrErr : s.latchFrame.wrErr = s.wrErr := rfl
@[simp] theorem State.latchFrame_rdEmpty : s.latchFrame.rdEmpty = s.rdEmpty := rfl
@[simp] theorem State.latchFrame_rdCount : s.latchFrame.rdCount = s.rdCount := rfl
@[simp] theorem State.latchFrame_diag : s.latchFrame.diag = s.diag := rfl
@[simp] theorem State.latchFrame_cmdArg : s.latchFrame.cmdArg = s.cmdArg := rfl
@[simp] theorem State.latchFrame_itemSel : s.latchFrame.itemSel = s.itemSel := rfl
@[simp] theorem State.latchFrame_items : s.latchFrame.items = s.items := rfl
@[simp] theorem State.latchFrame_flash : s.latchFrame.flash = s.flash := rfl
@[simp] theorem State.latchFrame_job : s.latchFrame.job = s.job := rfl
@[simp] theorem State.latchFrame_rdata : s.latchFrame.rdata = s.rdata := rfl
@[simp] theorem State.latchFrame_sched : s.latchFrame.sched = s.sched := rfl
@[simp] theorem State.latchFrame_draws : s.latchFrame.draws = s.draws := rfl
@[simp] theorem State.latchFrame_drawCount : s.latchFrame.drawCount = s.drawCount := rfl

@[simp] theorem State.latchChecksum_cfg (i : Nat) : (s.latchChecksum i).cfg = s.cfg := rfl
@[simp] theorem State.latchChecksum_dev (i : Nat) : (s.latchChecksum i).dev = s.dev := rfl
@[simp] theorem State.latchChecksum_packet (i : Nat) : (s.latchChecksum i).packet = s.packet := rfl
@[simp] theorem State.latchChecksum_frame (i : Nat) : (s.latchChecksum i).frame = s.frame := rfl
@[simp] theorem State.latchChecksum_gen (i : Nat) : (s.latchChecksum i).gen = s.gen := rfl
@[simp] theorem State.latchChecksum_ctrlBlk (i : Nat) : (s.latchChecksum i).ctrlBlk = s.ctrlBlk := rfl
@[simp] theorem State.latchChecksum_wrErr (i : Nat) : (s.latchChecksum i).wrErr = s.wrErr := rfl
@[simp] theorem State.latchChecksum_rdEmpty (i : Nat) : (s.latchChecksum i).rdEmpty = s.rdEmpty := rfl
@[simp] theorem State.latchChecksum_rdCount (i : Nat) : (s.latchChecksum i).rdCount = s.rdCount := rfl
@[simp] theorem State.latchChecksum_diag (i : Nat) : (s.latchChecksum i).diag = s.diag := rfl
@[simp] theorem State.latchChecksum_cmdArg (i : Nat) : (s.latchChecksum i).cmdArg = s.cmdArg := rfl
@[simp] theorem State.latchChecksum_itemSel (i : Nat) : (s.latchChecksum i).itemSel = s.itemSel := rfl
@[simp] theorem State.latchChecksum_items (i : Nat) :
    (s.latchChecksum i).items = s.items.set i { s.item i with cksum := checksum s.cfg.cksum (s.item i).blob } := rfl
@[simp] theorem State.latchChecksum_flash (i : Nat) : (s.latchChecksum i).flash = s.flash := rfl
@[simp] theorem State.latchChecksum_job (i : Nat) : (s.latchChecksum i).job = s.job := rfl
@[simp] theorem State.latchChecksum_rdata (i : Nat) : (s.latchChecksum i).rdata = s.rdata := rfl
@[simp] theorem State.latchChecksum_sched (i : Nat) : (s.latchChecksum i).sched = s.sched := rfl
@[simp] theorem State.latchChecksum_draws (i : Nat) : (s.latchChecksum i).draws = s.draws := rfl
@[simp] theorem State.latchChecksum_drawCount (i : Nat) : (s.latchChecksum i).drawCount = s.drawCount := rfl

@[simp] theorem State.finishWrite_cfg : s.finishWrite.cfg = s.cfg := rfl
@[simp] theorem State.finishWrite_dev : s.finishWrite.dev = s.dev := rfl
@[simp] theorem State.finishWrite_packet : s.finishWrite.packet = s.packet := rfl
@[simp] theorem State.finishWrite_frame : s.finishWrite.frame = s.frame := rfl
@[simp] theorem State.finishWrite_gen : s.finishWrite.gen = s.gen := rfl
@[simp] theorem State.finishWrite_ctrlBlk : s.finishWrite.ctrlBlk = s.ctrlBlk := rfl
@[simp] theorem State.finishWrite_wrErr : s.finishWrite.wrErr = false := rfl
@[simp] theorem State.finishWrite_rdEmpty : s.finishWrite.rdEmpty = s.rdEmpty := rfl
@[simp] theorem State.finishWrite_rdCount : s.finishWrite.rdCount = s.rdCount := rfl
@[simp] theorem State.finishWrite_diag : s.finishWrite.diag = s.diag := rfl
@[simp] theorem State.finishWrite_cmdArg : s.finishWrite.cmdArg = s.cmdArg := rfl
@[simp] theorem State.finishWrite_itemSel : s.finishWrite.itemSel = s.itemSel := rfl
@[simp] theorem State.finishWrite_items : s.finishWrite.items = s.items := rfl
@[simp] theorem State.finishWrite_flash : s.finishWrite.flash = s.flash := rfl
@[simp] theorem State.finishWrite_job : s.finishWrite.job = none := rfl
@[simp] theorem State.finishWrite_rdata : s.finishWrite.rdata = s.rdata := rfl
@[simp] theorem State.finishWrite_sched : s.finishWrite.sched = s.sched := rfl
@[simp] theorem State.finishWrite_draws : s.finishWrite.draws = s.draws := rfl
@[simp] theorem State.finishWrite_drawCount : s.finishWrite.drawCount = s.drawCount := rfl

@[simp] theorem State.finishRead_cfg (i : Nat) : (s.finishRead i).cfg = s.cfg := rfl
@[simp] theorem State.finishRead_dev (i : Nat) : (s.finishRead i).dev = s.dev := rfl
@[simp] theorem State.finishRead_packet (i : Nat) : (s.finishRead i).packet = s.packet := rfl
@[simp] theorem State.finishRead_frame (i : Nat) : (s.finishRead i).frame = s.frame := rfl
@[simp] theorem State.finishRead_gen (i : Nat) : (s.finishRead i).gen = s.gen := rfl
@[simp] theorem State.finishRead_ctrlBlk (i : Nat) : (s.finishRead i).ctrlBlk = s.ctrlBlk := rfl
@[simp] theorem State.finishRead_wrErr (i : Nat) : (s.finishRead i).wrErr = s.wrErr := rfl
@[simp] theorem State.finishRead_rdEmpty (i : Nat) : (s.finishRead i).rdEmpty = s.rdEmpty := rfl
@[simp] theorem State.finishRead_rdCount (i : Nat) : (s.finishRead i).rdCount = BitVec.ofNat 8 i := rfl
@[simp] theorem State.finishRead_diag (i : Nat) : (s.finishRead i).diag = s.diag := rfl
@[simp] theorem State.finishRead_cmdArg (i : Nat) : (s.finishRead i).cmdArg = s.cmdArg := rfl
@[simp] theorem State.finishRead_itemSel (i : Nat) : (s.finishRead i).itemSel = s.itemSel := rfl
@[simp] theorem State.finishRead_items (i : Nat) : (s.finishRead i).items = s.items := rfl
@[simp] theorem State.finishRead_flash (i : Nat) : (s.finishRead i).flash = s.flash := rfl
@[simp] theorem State.finishRead_job (i : Nat) : (s.finishRead i).job = none := rfl
@[simp] theorem State.finishRead_rdata (i : Nat) : (s.finishRead i).rdata = s.rdata := rfl
@[simp] theorem State.finishRead_sched (i : Nat) : (s.finishRead i).sched = s.sched := rfl
@[simp] theorem State.finishRead_draws (i : Nat) : (s.finishRead i).draws = s.draws := rfl
@[simp] theorem State.finishRead_drawCount (i : Nat) : (s.finishRead i).drawCount = s.drawCount := rfl

@[simp] theorem State.discardItem_cfg (i : Nat) (id : Byte) (ck : BitVec 16) :
    (s.discardItem i id ck).cfg = s.cfg := rfl
@[simp] theorem State.discardItem_dev (i : Nat) (id : Byte) (ck : BitVec 16) :
    (s.discardItem i id ck).dev = s.dev := rfl
@[simp] theorem State.discardItem_packet (i : Nat) (id : Byte) (ck : BitVec 16) :
    (s.discardItem i id ck).packet = s.packet := rfl
@[simp] theorem State.discardItem_frame (i : Nat) (id : Byte) (ck : BitVec 16) :
    (s.discardItem i id ck).frame = s.frame := rfl
@[simp] theorem State.discardItem_gen (i : Nat) (id : Byte) (ck : BitVec 16) :
    (s.discardItem i id ck).gen = s.gen := rfl
@[simp] theorem State.discardItem_ctrlBlk (i : Nat) (id : Byte) (ck : BitVec 16) :
    (s.discardItem i id ck).ctrlBlk = s.ctrlBlk := rfl
@[simp] theorem State.discardItem_wrErr (i : Nat) (id : Byte) (ck : BitVec 16) :
    (s.discardItem i id ck).wrErr = s.wrErr := rfl
@[simp] theorem State.discardItem_rdEmpty (i : Nat) (id : Byte) (ck : BitVec 16) :
    (s.discardItem i id ck).rdEmpty = s.rdEmpty := rfl
@[simp] theorem State.discardItem_rdCount (i : Nat) (id : Byte) (ck : BitVec 16) :
    (s.discardItem i id ck).rdCount = s.rdCount := rfl
@[simp] theorem State.discardItem_diag (i : Nat) (id : Byte) (ck : BitVec 16) :
    (s.discardItem i id ck).diag = s.diag ||| DiagBit.cksumFail.mask := rfl
@[simp] theorem State.discardItem_cmdArg (i : Nat) (id : Byte) (ck : BitVec 16) :
    (s.discardItem i id ck).cmdArg = s.cmdArg := rfl
@[simp] theorem State.discardItem_itemSel (i : Nat) (id : Byte) (ck : BitVec 16) :
    (s.discardItem i id ck).itemSel = s.itemSel := rfl
@[simp] theorem State.discardItem_items (i : Nat) (id : Byte) (ck : BitVec 16) :
    (s.discardItem i id ck).items = s.items.set i { alloc := false, id := id, len := 0, cksum := ck, data := s.freeData } := rfl
@[simp] theorem State.discardItem_flash (i : Nat) (id : Byte) (ck : BitVec 16) :
    (s.discardItem i id ck).flash = s.flash := rfl
@[simp] theorem State.discardItem_job (i : Nat) (id : Byte) (ck : BitVec 16) :
    (s.discardItem i id ck).job = s.job := rfl
@[simp] theorem State.discardItem_rdata (i : Nat) (id : Byte) (ck : BitVec 16) :
    (s.discardItem i id ck).rdata = s.rdata := rfl
@[simp] theorem State.discardItem_sched (i : Nat) (id : Byte) (ck : BitVec 16) :
    (s.discardItem i id ck).sched = s.sched := rfl
@[simp] theorem State.discardItem_draws (i : Nat) (id : Byte) (ck : BitVec 16) :
    (s.discardItem i id ck).draws = s.draws := rfl
@[simp] theorem State.discardItem_drawCount (i : Nat) (id : Byte) (ck : BitVec 16) :
    (s.discardItem i id ck).drawCount = s.drawCount + 1 := rfl

@[simp] theorem State.fillItem_cfg (i : Nat) (id len : Byte) (ck : BitVec 16) (blob : List Byte) :
    (s.fillItem i id len ck blob).cfg = s.cfg := rfl
@[simp] theorem State.fillItem_dev (i : Nat) (id len : Byte) (ck : BitVec 16) (blob : List Byte) :
    (s.fillItem i id len ck blob).dev = s.dev := rfl
@[simp] theorem State.fillItem_packet (i : Nat) (id len : Byte) (ck : BitVec 16) (blob : List Byte) :
    (s.fillItem i id len ck blob).packet = s.packet := rfl
@[simp] theorem State.fillItem_frame (i : Nat) (id len : Byte) (ck : BitVec 16) (blob : List Byte) :
    (s.fillItem i id len ck blob).frame = s.frame := rfl
@[simp] theorem State.fillItem_gen (i : Nat) (id len : Byte) (ck : BitVec 16) (blob : List Byte) :
    (s.fillItem i id len ck blob).gen = s.gen := rfl
@[simp] theorem State.fillItem_ctrlBlk (i : Nat) (id len : Byte) (ck : BitVec 16) (blob : List Byte) :
    (s.fillItem i id len ck blob).ctrlBlk = s.ctrlBlk := rfl
@[simp] theorem State.fillItem_wrErr (i : Nat) (id len : Byte) (ck : BitVec 16) (blob : List Byte) :
    (s.fillItem i id len ck blob).wrErr = s.wrErr := rfl
@[simp] theorem State.fillItem_rdEmpty (i : Nat) (id len : Byte) (ck : BitVec 16) (blob : List Byte) :
    (s.fillItem i id len ck blob).rdEmpty = s.rdEmpty := rfl
@[simp] theorem State.fillItem_rdCount (i : Nat) (id len : Byte) (ck : BitVec 16) (blob : List Byte) :
    (s.fillItem i id len ck blob).rdCount = s.rdCount := rfl
@[simp] theorem State.fillItem_diag (i : Nat) (id len : Byte) (ck : BitVec 16) (blob : List Byte) :
    (s.fillItem i id len ck blob).diag = s.diag := rfl
@[simp] theorem State.fillItem_cmdArg (i : Nat) (id len : Byte) (ck : BitVec 16) (blob : List Byte) :
    (s.fillItem i id len ck blob).cmdArg = s.cmdArg := rfl
@[simp] theorem State.fillItem_itemSel (i : Nat) (id len : Byte) (ck : BitVec 16) (blob : List Byte) :
    (s.fillItem i id len ck blob).itemSel = s.itemSel := rfl
@[simp] theorem State.fillItem_items (i : Nat) (id len : Byte) (ck : BitVec 16) (blob : List Byte) :
    (s.fillItem i id len ck blob).items = s.items.set i
      { alloc := true, id := id, len := len.setWidth 16, cksum := ck, data := (s.item i).data.writeBytes 0 blob } := rfl
@[simp] theorem State.fillItem_flash (i : Nat) (id len : Byte) (ck : BitVec 16) (blob : List Byte) :
    (s.fillItem i id len ck blob).flash = s.flash := rfl
@[simp] theorem State.fillItem_job (i : Nat) (id len : Byte) (ck : BitVec 16) (blob : List Byte) :
    (s.fillItem i id len ck blob).job = s.job := rfl
@[simp] theorem State.fillItem_rdata (i : Nat) (id len : Byte) (ck : BitVec 16) (blob : List Byte) :
    (s.fillItem i id len ck blob).rdata = s.rdata := rfl
@[simp] theorem State.fillItem_sched (i : Nat) (id len : Byte) (ck : BitVec 16) (blob : List Byte) :
    (s.fillItem i id len ck blob).sched = s.sched := rfl
@[simp] theorem State.fillItem_draws (i : Nat) (id len : Byte) (ck : BitVec 16) (blob : List Byte) :
    (s.fillItem i id len ck blob).draws = s.draws := rfl
@[simp] theorem State.fillItem_drawCount (i : Nat) (id len : Byte) (ck : BitVec 16) (blob : List Byte) :
    (s.fillItem i id len ck blob).drawCount = s.drawCount := rfl

@[simp] theorem State.refuseWrite_cfg : s.refuseWrite.cfg = s.cfg := rfl
@[simp] theorem State.refuseWrite_dev : s.refuseWrite.dev = s.dev := rfl
@[simp] theorem State.refuseWrite_packet : s.refuseWrite.packet = s.packet := rfl
@[simp] theorem State.refuseWrite_frame : s.refuseWrite.frame = s.frame := rfl
@[simp] theorem State.refuseWrite_gen : s.refuseWrite.gen = s.gen := rfl
@[simp] theorem State.refuseWrite_ctrlBlk : s.refuseWrite.ctrlBlk = s.ctrlBlk := rfl
@[simp] theorem State.refuseWrite_wrErr : s.refuseWrite.wrErr = true := rfl
@[simp] theorem State.refuseWrite_rdEmpty : s.refuseWrite.rdEmpty = s.rdEmpty := rfl
@[simp] theorem State.refuseWrite_rdCount : s.refuseWrite.rdCount = s.rdCount := rfl
@[simp] theorem State.refuseWrite_diag : s.refuseWrite.diag = s.diag ||| DiagBit.wrRefused.mask := rfl
@[simp] theorem State.refuseWrite_cmdArg : s.refuseWrite.cmdArg = s.cmdArg := rfl
@[simp] theorem State.refuseWrite_itemSel : s.refuseWrite.itemSel = s.itemSel := rfl
@[simp] theorem State.refuseWrite_items : s.refuseWrite.items = s.items := rfl
@[simp] theorem State.refuseWrite_flash : s.refuseWrite.flash = s.flash := rfl
@[simp] theorem State.refuseWrite_job : s.refuseWrite.job = s.job := rfl
@[simp] theorem State.refuseWrite_rdata : s.refuseWrite.rdata = s.rdata := rfl
@[simp] theorem State.refuseWrite_sched : s.refuseWrite.sched = s.sched := rfl
@[simp] theorem State.refuseWrite_draws : s.refuseWrite.draws = s.draws := rfl
@[simp] theorem State.refuseWrite_drawCount : s.refuseWrite.drawCount = s.drawCount := rfl

@[simp] theorem State.refuseRead_cfg : s.refuseRead.cfg = s.cfg := rfl
@[simp] theorem State.refuseRead_dev : s.refuseRead.dev = s.dev := rfl
@[simp] theorem State.refuseRead_packet : s.refuseRead.packet = s.packet := rfl
@[simp] theorem State.refuseRead_frame : s.refuseRead.frame = s.frame := rfl
@[simp] theorem State.refuseRead_gen : s.refuseRead.gen = s.gen := rfl
@[simp] theorem State.refuseRead_ctrlBlk : s.refuseRead.ctrlBlk = s.ctrlBlk := rfl
@[simp] theorem State.refuseRead_wrErr : s.refuseRead.wrErr = s.wrErr := rfl
@[simp] theorem State.refuseRead_rdEmpty : s.refuseRead.rdEmpty = false := rfl
@[simp] theorem State.refuseRead_rdCount : s.refuseRead.rdCount = 0 := rfl
@[simp] theorem State.refuseRead_diag : s.refuseRead.diag = s.diag ||| DiagBit.rdBusy.mask := rfl
@[simp] theorem State.refuseRead_cmdArg : s.refuseRead.cmdArg = s.cmdArg := rfl
@[simp] theorem State.refuseRead_itemSel : s.refuseRead.itemSel = s.itemSel := rfl
@[simp] theorem State.refuseRead_items : s.refuseRead.items = s.items := rfl
@[simp] theorem State.refuseRead_flash : s.refuseRead.flash = s.flash := rfl
@[simp] theorem State.refuseRead_job : s.refuseRead.job = s.job := rfl
@[simp] theorem State.refuseRead_rdata : s.refuseRead.rdata = s.rdata := rfl
@[simp] theorem State.refuseRead_sched : s.refuseRead.sched = s.sched := rfl
@[simp] theorem State.refuseRead_draws : s.refuseRead.draws = s.draws := rfl
@[simp] theorem State.refuseRead_drawCount : s.refuseRead.drawCount = s.drawCount := rfl

variable (g : Generator)

@[simp] theorem Generator.emit_pb (e : Emission) : (g.emit e).pb = g.pb := rfl
@[simp] theorem Generator.emit_pbLen (e : Emission) : (g.emit e).pbLen = g.pbLen := rfl
@[simp] theorem Generator.emit_curSlot (e : Emission) : (g.emit e).curSlot = g.curSlot := rfl
@[simp] theorem Generator.emit_curSub (e : Emission) : (g.emit e).curSub = g.curSub := rfl
@[simp] theorem Generator.emit_repeatCnt (e : Emission) : (g.emit e).repeatCnt = g.repeatCnt := rfl
@[simp] theorem Generator.emit_timerEn (e : Emission) : (g.emit e).timerEn = g.timerEn := rfl
@[simp] theorem Generator.emit_pin (e : Emission) : (g.emit e).pin = g.pin := rfl
@[simp] theorem Generator.emit_pwmGate (e : Emission) : (g.emit e).pwmGate = g.pwmGate := rfl
@[simp] theorem Generator.emit_out (e : Emission) : (g.emit e).out = g.out ++ [e] := rfl

@[simp] theorem Generator.stop_pb : g.stop.pb = g.pb := by cases h : g.timerEn <;> simp [Generator.stop, h]
@[simp] theorem Generator.stop_pbLen : g.stop.pbLen = g.pbLen := by cases h : g.timerEn <;> simp [Generator.stop, h]
@[simp] theorem Generator.stop_curSlot :
    g.stop.curSlot = g.curSlot := by cases h : g.timerEn <;> simp [Generator.stop, h]
@[simp] theorem Generator.stop_curSub :
    g.stop.curSub = g.curSub := by cases h : g.timerEn <;> simp [Generator.stop, h]
@[simp] theorem Generator.stop_repeatCnt :
    g.stop.repeatCnt = g.repeatCnt := by cases h : g.timerEn <;> simp [Generator.stop, h]
@[simp] theorem Generator.stop_timerEn : g.stop.timerEn = false := by cases h : g.timerEn <;> simp [Generator.stop, h]
@[simp] theorem Generator.stop_pin : g.stop.pin = false := by cases h : g.timerEn <;> simp [Generator.stop, h]
@[simp] theorem Generator.stop_pwmGate :
    g.stop.pwmGate = g.pwmGate := by cases h : g.timerEn <;> simp [Generator.stop, h]
@[simp] theorem Generator.stop_out :
    g.stop.out = g.out ++ (if g.timerEn then [.abort] else []) := by cases h : g.timerEn <;> simp [Generator.stop, h]

@[simp] theorem Generator.emitSegment_pb (seg : Bool × Nat) : (g.emitSegment seg).pb = g.pb := rfl
@[simp] theorem Generator.emitSegment_pbLen (seg : Bool × Nat) : (g.emitSegment seg).pbLen = g.pbLen := rfl
@[simp] theorem Generator.emitSegment_curSlot (seg : Bool × Nat) : (g.emitSegment seg).curSlot = g.curSlot := rfl
@[simp] theorem Generator.emitSegment_curSub (seg : Bool × Nat) : (g.emitSegment seg).curSub = g.curSub := rfl
@[simp] theorem Generator.emitSegment_repeatCnt (seg : Bool × Nat) :
    (g.emitSegment seg).repeatCnt = g.repeatCnt := rfl
@[simp] theorem Generator.emitSegment_timerEn (seg : Bool × Nat) : (g.emitSegment seg).timerEn = g.timerEn := rfl
@[simp] theorem Generator.emitSegment_pin (seg : Bool × Nat) : (g.emitSegment seg).pin = g.pin := rfl
@[simp] theorem Generator.emitSegment_pwmGate (seg : Bool × Nat) : (g.emitSegment seg).pwmGate = seg.1 := rfl
@[simp] theorem Generator.emitSegment_out (seg : Bool × Nat) :
    (g.emitSegment seg).out = g.out ++ [.seg seg.1 seg.2] := rfl

@[simp] theorem Generator.build_pb (c : Config) (f : Frame) :
    (Generator.build c f g).pb = pulseSlots c f ++ g.pb.drop (pulseSlots c f).length := rfl
@[simp] theorem Generator.build_pbLen (c : Config) (f : Frame) :
    (Generator.build c f g).pbLen = BitVec.ofNat 12 (pulseSlots c f).length := rfl
@[simp] theorem Generator.build_curSlot (c : Config) (f : Frame) : (Generator.build c f g).curSlot = g.curSlot := rfl
@[simp] theorem Generator.build_curSub (c : Config) (f : Frame) : (Generator.build c f g).curSub = g.curSub := rfl
@[simp] theorem Generator.build_repeatCnt (c : Config) (f : Frame) :
    (Generator.build c f g).repeatCnt = g.repeatCnt := rfl
@[simp] theorem Generator.build_timerEn (c : Config) (f : Frame) : (Generator.build c f g).timerEn = g.timerEn := rfl
@[simp] theorem Generator.build_pin (c : Config) (f : Frame) : (Generator.build c f g).pin = g.pin := rfl
@[simp] theorem Generator.build_pwmGate (c : Config) (f : Frame) : (Generator.build c f g).pwmGate = g.pwmGate := rfl
@[simp] theorem Generator.build_out (c : Config) (f : Frame) : (Generator.build c f g).out = g.out := rfl

@[simp] theorem Generator.restart_pb (c : Config) (f : Frame) :
    (Generator.restart c f g).pb = pulseSlots c f ++ g.pb.drop (pulseSlots c f).length := rfl
@[simp] theorem Generator.restart_pbLen (c : Config) (f : Frame) :
    (Generator.restart c f g).pbLen = BitVec.ofNat 12 (pulseSlots c f).length := rfl
@[simp] theorem Generator.restart_curSlot (c : Config) (f : Frame) : (Generator.restart c f g).curSlot = 0 := rfl
@[simp] theorem Generator.restart_curSub (c : Config) (f : Frame) : (Generator.restart c f g).curSub = 0 := rfl
@[simp] theorem Generator.restart_repeatCnt (c : Config) (f : Frame) :
    (Generator.restart c f g).repeatCnt = Config.repeats := rfl
@[simp] theorem Generator.restart_timerEn (c : Config) (f : Frame) : (Generator.restart c f g).timerEn = true := rfl
@[simp] theorem Generator.restart_pin (c : Config) (f : Frame) : (Generator.restart c f g).pin = g.pin := rfl
@[simp] theorem Generator.restart_pwmGate (c : Config) (f : Frame) :
    (Generator.restart c f g).pwmGate = g.pwmGate := rfl
@[simp] theorem Generator.restart_out (c : Config) (f : Frame) : (Generator.restart c f g).out = g.out := rfl

end Sys2Proof.Machine
end

