-- ==== Sys2Proof/Laws/Store.lean ====
section
/-! SUPPORT. The Configuration Store: arithmetic of its layout, what each flash call does, and what a micro-step can
touch at all. -/

namespace Sys2Proof.Machine

/-! ## Layout arithmetic -/

theorem alignUp_mod (n : Nat) : alignUp n % 4 = 0 := by unfold alignUp; omega

theorem le_alignUp (n : Nat) : n ≤ alignUp n := by unfold alignUp; omega

theorem alignUp_le (n : Nat) : alignUp n ≤ n + 3 := by unfold alignUp; omega

theorem alignUp_pos {n : Nat} : 0 < alignUp n ↔ 0 < n := by unfold alignUp; omega

theorem itemSize_mod (n : Nat) : itemSize n % 4 = 0 := by have := alignUp_mod n; unfold itemSize; omega

/-- One more slot in an image. -/
theorem imageTotal_succ {items : List Item} {n : Nat} (h : n < items.length) :
    imageTotal items (n + 1) = imageTotal items n + itemSize (items.getD n Item.reset).len.toNat := by
  have h1 : items.getD n Item.reset = items[n] := by simp [List.getD_eq_getElem?_getD, h]
  unfold imageTotal
  rw [h1, List.take_succ_eq_append_getElem h, List.map_append, List.sum_append]
  simp

theorem imageTotal_mod (items : List Item) (n : Nat) : imageTotal items n % 4 = 0 := by
  unfold imageTotal
  induction items.take n with
  | nil => rfl
  | cons it rest ih =>
    have := itemSize_mod it.len.toNat
    simp only [List.map_cons, List.sum_cons]
    omega

/-- More slots take at least as much room. -/
theorem imageTotal_mono (items : List Item) {i n : Nat} (h : i ≤ n) : imageTotal items i ≤ imageTotal items n := by
  unfold imageTotal
  have h1 : items.take n = items.take i ++ (items.take n).drop i := by
    conv_lhs => rw [← List.take_append_drop i (items.take n)]
    rw [List.take_take, Nat.min_eq_left h]
  rw [h1]
  simp

/-! ## Draws and flash calls -/

/-- ENV lets the next call succeed (20_memory.md R86). -/
theorem State.callOk_of_callsSucceed {s : State} {k : Nat} (h : callsSucceed s (k + 1) = true) : s.callOk = true := by
  unfold callsSucceed at h
  unfold State.callOk
  cases hd : s.draws with
  | nil => simp [hd] at h
  | cons d ds => simpa [hd] using (by simpa [hd] using h : _ ∧ d = true ∧ _).2.1

/-- After one call that was let succeed the later ones still are. -/
theorem callsSucceed_tail {s t : State} {k : Nat} (h : callsSucceed s (k + 1) = true) (ht : t.draws = s.draws.tail) :
    callsSucceed t k = true := by
  unfold callsSucceed at *
  cases hd : s.draws with
  | nil => simp [hd] at h
  | cons d ds =>
    simp only [hd, List.tail_cons] at ht
    simp only [hd, List.length_cons, List.take_succ_cons, List.all_cons, Bool.and_eq_true, decide_eq_true_eq] at h
    simp only [ht, Bool.and_eq_true, decide_eq_true_eq]
    exact ⟨by omega, h.2.2⟩

theorem State.flashErase_of_ok {s : State} (h : s.callOk = true) :
    s.flashErase = { s.drawn with flash := s.flash.eraseBelow s.cfg.sectorSize } := by
  simp [State.flashErase, h]

theorem State.flashWrite_of_ok {s : State} (h : s.callOk = true) (off : Nat) (bs : List Byte) :
    s.flashWrite off bs = { s.drawn with flash := s.flash.writeBytes off (s.flash.programmed off bs) } := by
  simp [State.flashWrite, h]

theorem State.flashReadDone_of_ok {s : State} (h : s.callOk = true) : s.flashReadDone = s.drawn := by
  simp [State.flashReadDone, h]

theorem State.flashReadBytes_of_ok {s : State} (h : s.callOk = true) (off n : Nat) :
    s.flashReadBytes off n = s.flash.readBytes off n := by
  simp [State.flashReadBytes, h]

@[simp] theorem State.length_freeBytes (s : State) (n : Nat) : (s.freeBytes n).length = n := by
  simp [State.freeBytes]

@[simp] theorem State.length_flashReadBytes (s : State) (off n : Nat) : (s.flashReadBytes off n).length = n := by
  unfold State.flashReadBytes
  split <;> simp

@[simp] theorem State.drawAt_zero (s : State) : s.drawAt 0 = s.callOk := by
  unfold State.drawAt State.callOk
  cases s.draws <;> rfl

/-- ENV's draws after some calls. -/
theorem State.drawAt_of_drop {s t : State} {j : Nat} (hd : t.draws = s.draws.drop j)
    (hc : t.drawCount = s.drawCount + j) (q : Nat) : t.drawAt q = s.drawAt (j + q) := by
  simp [State.drawAt, hd, hc, List.getD_eq_getElem?_getD, Nat.add_assoc]

@[simp] theorem State.ioBits_zero (s : State) : s.ioBits 0 = 0 := rfl

theorem State.ioBits_one (s : State) : s.ioBits 1 = if s.callOk then 0 else DiagBit.flashIo.mask := by
  unfold State.ioBits
  rw [show (List.range 1).all s.drawAt = s.callOk by simp]
  rfl

/-- What some calls and then others add to `DIAG`. -/
theorem State.ioBits_add {s t : State} {j : Nat} (hd : t.draws = s.draws.drop j)
    (hc : t.drawCount = s.drawCount + j) (k : Nat) : s.ioBits (j + k) = s.ioBits j ||| t.ioBits k := by
  have h : (List.range (j + k)).all s.drawAt = ((List.range j).all s.drawAt && (List.range k).all t.drawAt) := by
    rw [List.range_add, List.all_append, List.all_map]
    congr 2
    funext q
    exact (State.drawAt_of_drop hd hc q).symm
  unfold State.ioBits
  rw [h]
  cases (List.range j).all s.drawAt <;> cases (List.range k).all t.drawAt <;> rfl

/-- Calls that all succeed add nothing to `DIAG`. -/
theorem State.ioBits_of_callsSucceed {s : State} {k : Nat} (h : callsSucceed s k = true) : s.ioBits k = 0 := by
  simp only [callsSucceed, Bool.and_eq_true, decide_eq_true_eq, List.all_eq_true, id] at h
  have h2 : (List.range k).all s.drawAt = true := by
    simp only [List.all_eq_true, List.mem_range]
    intro q hq
    have hlt : q < s.draws.length := by omega
    have := h.2 (s.draws[q]) (List.mem_take_iff_getElem.mpr ⟨q, by omega, rfl⟩)
    simp [State.drawAt, List.getD_eq_getElem?_getD, hlt, this]
  simp [State.ioBits, h2]

/-- Everything `FlashErase` does, whether it succeeds or not (20_memory.md R83). -/
theorem State.flashErase_cases (s : State) :
    ∃ m : Memory, s.flashErase =
        { s with flash := m, diag := s.diag ||| s.ioBits 1, draws := s.draws.drop 1, drawCount := s.drawCount + 1 } ∧
      (s.flash.wf = true → m.wf = true) ∧
      (s.flash.within s.cfg.sectorSize = true → m.within s.cfg.sectorSize = true) := by
  by_cases h : s.callOk = true
  · refine ⟨s.flash.eraseBelow s.cfg.sectorSize, ?_, fun hw => Memory.eraseBelow_wf hw _,
      fun hw => Memory.eraseBelow_within hw⟩
    simp [State.flashErase, h, State.drawn, State.ioBits_one]
  · refine ⟨s.flash.writeBytes 0 (s.freeBytes s.cfg.sectorSize), ?_, fun hw => Memory.writeBytes_wf hw _ _,
      fun hw => Memory.writeBytes_within hw (by simp)⟩
    simp [State.flashErase, h, State.drawn, State.raiseDiag, State.ioBits_one]

/-- Everything `FlashWrite` does, whether it succeeds or not (20_memory.md R85). -/
theorem State.flashWrite_cases (s : State) (off : Nat) (bs : List Byte) :
    ∃ m : Memory, s.flashWrite off bs =
        { s with flash := m, diag := s.diag ||| s.ioBits 1, draws := s.draws.drop 1, drawCount := s.drawCount + 1 } ∧
      (s.flash.wf = true → m.wf = true) ∧
      (∀ n : Nat, off + bs.length ≤ n → s.flash.within n = true → m.within n = true) := by
  by_cases h : s.callOk = true
  · refine ⟨s.flash.writeBytes off (s.flash.programmed off bs), ?_, fun hw => Memory.writeBytes_wf hw _ _,
      fun n hn hw => Memory.writeBytes_within hw (by simpa using hn)⟩
    simp [State.flashWrite, h, State.drawn, State.ioBits_one]
  · refine ⟨s.flash.writeBytes off (s.freeBytes bs.length), ?_, fun hw => Memory.writeBytes_wf hw _ _,
      fun n hn hw => Memory.writeBytes_within hw (by simpa using hn)⟩
    simp [State.flashWrite, h, State.drawn, State.raiseDiag, State.ioBits_one]

/-- Everything `FlashRead` does to the state, whether it succeeds or not (20_memory.md R84). -/
theorem State.flashReadDone_eq (s : State) :
    s.flashReadDone =
      { s with diag := s.diag ||| s.ioBits 1, draws := s.draws.drop 1, drawCount := s.drawCount + 1 } := by
  by_cases h : s.callOk = true <;> simp [State.flashReadDone, h, State.drawn, State.raiseDiag, State.ioBits_one]

/-! ## What a store command can touch -/

/-- `t` differs from `s` at most in what the store commands own: the flash, the item table, `STATUS`, `DIAG`, the
progress of the command, and ENV's draws (20_memory.md R93). -/
structure SameOutsideStore (s t : State) : Prop where
  cfg     : t.cfg = s.cfg
  dev     : t.dev = s.dev
  packet  : t.packet = s.packet
  frame   : t.frame = s.frame
  gen     : t.gen = s.gen
  ctrlBlk : t.ctrlBlk = s.ctrlBlk
  cmdArg  : t.cmdArg = s.cmdArg
  itemSel : t.itemSel = s.itemSel
  rdata   : t.rdata = s.rdata
  sched   : t.sched = s.sched

theorem SameOutsideStore.refl (s : State) : SameOutsideStore s s := ⟨rfl, rfl, rfl, rfl, rfl, rfl, rfl, rfl, rfl, rfl⟩

theorem SameOutsideStore.trans {s t u : State} (h : SameOutsideStore s t) (k : SameOutsideStore t u) :
    SameOutsideStore s u :=
  ⟨k.cfg.trans h.cfg, k.dev.trans h.dev, k.packet.trans h.packet, k.frame.trans h.frame, k.gen.trans h.gen,
    k.ctrlBlk.trans h.ctrlBlk, k.cmdArg.trans h.cmdArg, k.itemSel.trans h.itemSel, k.rdata.trans h.rdata,
    k.sched.trans h.sched⟩

/-- As an equation between states. -/
theorem SameOutsideStore.eq {s t : State} (h : SameOutsideStore s t) :
    t = { s with
      wrErr := t.wrErr, rdEmpty := t.rdEmpty, rdCount := t.rdCount, diag := t.diag, items := t.items,
      flash := t.flash, job := t.job, draws := t.draws, drawCount := t.drawCount } := by
  obtain ⟨h1, h2, h3, h4, h5, h6, h7, h8, h9, h10⟩ := h
  cases s
  cases t
  simp only at h1 h2 h3 h4 h5 h6 h7 h8 h9 h10
  subst_vars
  rfl

theorem State.flashErase_outside (s : State) : SameOutsideStore s s.flashErase := by
  obtain ⟨m, h, -⟩ := s.flashErase_cases
  rw [h]
  exact ⟨rfl, rfl, rfl, rfl, rfl, rfl, rfl, rfl, rfl, rfl⟩

theorem State.flashWrite_outside (s : State) (off : Nat) (bs : List Byte) :
    SameOutsideStore s (s.flashWrite off bs) := by
  obtain ⟨m, h, -⟩ := s.flashWrite_cases off bs
  rw [h]
  exact ⟨rfl, rfl, rfl, rfl, rfl, rfl, rfl, rfl, rfl, rfl⟩

theorem State.flashReadDone_outside (s : State) : SameOutsideStore s s.flashReadDone := by
  rw [s.flashReadDone_eq]
  exact ⟨rfl, rfl, rfl, rfl, rfl, rfl, rfl, rfl, rfl, rfl⟩

theorem State.nextWrite_outside (s : State) (n i off : Nat) : SameOutsideStore s (s.nextWrite n i off) := by
  unfold State.nextWrite
  split <;> exact ⟨rfl, rfl, rfl, rfl, rfl, rfl, rfl, rfl, rfl, rfl⟩

theorem State.closeRead_outside (s : State) (i : Nat) (r : Int) : SameOutsideStore s (s.closeRead i r) := by
  unfold State.closeRead
  split <;> exact ⟨rfl, rfl, rfl, rfl, rfl, rfl, rfl, rfl, rfl, rfl⟩

theorem State.nextRead_outside (s : State) (lim i off : Nat) (r : Int) :
    SameOutsideStore s (s.nextRead lim i off r) := by
  unfold State.nextRead
  split
  · split <;> exact ⟨rfl, rfl, rfl, rfl, rfl, rfl, rfl, rfl, rfl, rfl⟩
  · exact s.closeRead_outside i r

theorem State.fillItem_outside (s : State) (i : Nat) (id len : Byte) (ck : BitVec 16) (blob : List Byte) :
    SameOutsideStore s (s.fillItem i id len ck blob) := ⟨rfl, rfl, rfl, rfl, rfl, rfl, rfl, rfl, rfl, rfl⟩

theorem State.verifyItem_outside (s : State) (lim i off : Nat) (r : Int) (id len : Byte) (ck : BitVec 16)
    (data : List Byte) : SameOutsideStore s (s.verifyItem lim i off r id len ck data) := by
  unfold State.verifyItem
  simp only
  split
  · exact (s.fillItem_outside i id len ck _).trans (State.nextRead_outside _ _ _ _ _)
  · exact ⟨rfl, rfl, rfl, rfl, rfl, rfl, rfl, rfl, rfl, rfl⟩

theorem State.afterMain_outside (s : State) (lim : Nat) (h : List Byte) :
    SameOutsideStore s (s.afterMain lim h) := by
  unfold State.afterMain
  split
  · exact SameOutsideStore.trans (t := { s with rdEmpty := false }) ⟨rfl, rfl, rfl, rfl, rfl, rfl, rfl, rfl, rfl, rfl⟩
      (State.nextRead_outside _ _ _ _ _)
  · exact ⟨rfl, rfl, rfl, rfl, rfl, rfl, rfl, rfl, rfl, rfl⟩

theorem State.afterHeader_outside (s : State) (lim i off : Nat) (r : Int) (d : List Byte) :
    SameOutsideStore s (s.afterHeader lim i off r d) := by
  unfold State.afterHeader
  simp only
  split
  · exact ⟨rfl, rfl, rfl, rfl, rfl, rfl, rfl, rfl, rfl, rfl⟩
  · split
    · exact ⟨rfl, rfl, rfl, rfl, rfl, rfl, rfl, rfl, rfl, rfl⟩
    · exact State.verifyItem_outside _ _ _ _ _ _ _ _ _

/-- A micro-step touches nothing outside the store. -/
theorem State.microStep_outside (s : State) (j : Job) : SameOutsideStore s (s.microStep j) := by
  cases j with
  | writeErase n =>
    exact s.flashErase_outside.trans ⟨rfl, rfl, rfl, rfl, rfl, rfl, rfl, rfl, rfl, rfl⟩
  | writeMain n => exact (s.flashWrite_outside _ _).trans (State.nextWrite_outside _ _ _ _)
  | writeHeader n i off =>
    have h1 : SameOutsideStore s (s.latchChecksum i) := ⟨rfl, rfl, rfl, rfl, rfl, rfl, rfl, rfl, rfl, rfl⟩
    have h2 := h1.trans ((s.latchChecksum i).flashWrite_outside off (Job.program s (.writeHeader n i off)))
    simp only [State.microStep]
    split
    · exact h2.trans ⟨rfl, rfl, rfl, rfl, rfl, rfl, rfl, rfl, rfl, rfl⟩
    · exact h2.trans (State.nextWrite_outside _ _ _ _)
  | writeData n i off => exact (s.flashWrite_outside _ _).trans (State.nextWrite_outside _ _ _ _)
  | readMain lim => exact s.flashReadDone_outside.trans (State.afterMain_outside _ _ _)
  | readHeader lim i off r => exact s.flashReadDone_outside.trans (State.afterHeader_outside _ _ _ _ _ _)
  | readData lim i off r id len ck => exact s.flashReadDone_outside.trans (State.verifyItem_outside _ _ _ _ _ _ _ _ _)

@[simp] theorem State.flashErase_draws (s : State) : s.flashErase.draws = s.draws.drop 1 := by
  obtain ⟨m, h, -⟩ := s.flashErase_cases
  rw [h]

@[simp] theorem State.flashWrite_draws (s : State) (off : Nat) (bs : List Byte) :
    (s.flashWrite off bs).draws = s.draws.drop 1 := by
  obtain ⟨m, h, -⟩ := s.flashWrite_cases off bs
  rw [h]

@[simp] theorem State.flashReadDone_draws (s : State) : s.flashReadDone.draws = s.draws.drop 1 := by
  rw [s.flashReadDone_eq]

@[simp] theorem State.nextWrite_draws (s : State) (n i off : Nat) : (s.nextWrite n i off).draws = s.draws := by
  unfold State.nextWrite
  split <;> rfl

@[simp] theorem State.nextRead_draws (s : State) (lim i off : Nat) (r : Int) :
    (s.nextRead lim i off r).draws = s.draws := by
  unfold State.nextRead State.closeRead
  split <;> split <;> rfl

@[simp] theorem State.verifyItem_draws (s : State) (lim i off : Nat) (r : Int) (id len : Byte) (ck : BitVec 16)
    (data : List Byte) : (s.verifyItem lim i off r id len ck data).draws = s.draws := by
  unfold State.verifyItem
  simp only
  split
  · exact State.nextRead_draws _ _ _ _ _
  · rfl

/-- A micro-step is one flash call, for which ENV makes one draw (20_memory.md R86, R93). -/
theorem State.microStep_draws (s : State) (j : Job) : (s.microStep j).draws = s.draws.drop 1 := by
  cases j with
  | writeErase n => exact s.flashErase_draws
  | writeMain n => simp only [State.microStep, State.nextWrite_draws, State.flashWrite_draws]
  | writeHeader n i off =>
    simp only [State.microStep]
    split
    · exact State.flashWrite_draws _ _ _
    · simp only [State.nextWrite_draws, State.flashWrite_draws]
      rfl
  | writeData n i off => simp only [State.microStep, State.nextWrite_draws, State.flashWrite_draws]
  | readMain lim =>
    simp only [State.microStep, State.afterMain]
    split
    · simp only [State.nextRead_draws, State.flashReadDone_draws]
    · exact s.flashReadDone_draws
  | readHeader lim i off r =>
    simp only [State.microStep, State.afterHeader]
    split
    · exact s.flashReadDone_draws
    · split
      · exact s.flashReadDone_draws
      · simp only [State.verifyItem_draws, State.flashReadDone_draws]
  | readData lim i off r id len ck => simp only [State.microStep, State.verifyItem_draws, State.flashReadDone_draws]

@[simp] theorem State.drain_none {s : State} (h : s.job = none) (k : Nat) : s.drain k = s := by
  cases k <;> simp [State.drain, h]

@[simp] theorem State.drain_succ {s : State} {j : Job} (h : s.job = some j) (k : Nat) :
    s.drain (k + 1) = (s.microStep j).drain k := by
  simp [State.drain, h]

/-- A command run to its end touches nothing outside the store. -/
theorem State.drain_outside (s : State) (k : Nat) : SameOutsideStore s (s.drain k) := by
  induction k generalizing s with
  | zero => exact SameOutsideStore.refl s
  | succ k ih =>
    cases h : s.job with
    | none => simpa [h] using SameOutsideStore.refl s
    | some j => simpa [h] using (s.microStep_outside j).trans (ih _)

end Sys2Proof.Machine
end

