-- ==== Sys2Proof/Laws/Waveform.lean ====
section
/-! SUPPORT. The pulse code: its length, its high slots, and what SEND and a TICK step leave. -/

namespace Sys2Proof.Machine

/-- The slots of some bit cells: two for each bit and two more for each one. -/
theorem length_flatMap_bitCell (bits : List Bool) :
    (bits.flatMap bitCell).length = 2 * bits.length + 2 * (bits.filter id).length := by
  induction bits with
  | nil => rfl
  | cons b bits ih => cases b <;> simp [bitCell, ih] <;> omega

/-- Every bit cell has one high slot. -/
theorem count_high_flatMap_bitCell (bits : List Bool) :
    ((bits.flatMap bitCell).filter id).length = bits.length := by
  induction bits with
  | nil => rfl
  | cons b bits ih => cases b <;> simp [bitCell, ih]

/-- The bit cells, as mark and space. -/
theorem flatMap_bitCell_eq (bits : List Bool) :
    bits.flatMap bitCell = bits.flatMap (fun b => true :: List.replicate (if b then 3 else 1) false) := by
  congr 1
  funext b
  cases b <;> rfl

/-- The bits of a frame in the order they go out. -/
theorem Frame.bits_eq_wireBits (f : Frame) : f.bits = wireBits f.bytes := rfl

@[simp] theorem Frame.length_bits (f : Frame) : f.bits.length = 48 := by
  simp [Frame.bits, Frame.bytes, byteBits]

/-- What `build` writes, as the spec pictures it (30_encoding.md R110). -/
theorem pulseSlots_eq (c : Config) (f : Frame) :
    pulseSlots c f = slotsOfBits (wireBits f.bytes) c.stopLowSlots := by
  simp [pulseSlots, slotsOfBits, flatMap_bitCell_eq, Frame.bits_eq_wireBits, Config.startHigh, Config.startLow,
    Config.stopHighSlots]

/-- The length of the pulse code of any frame (41_waveform_generator.md R151). -/
theorem length_pulseSlots (c : Config) (f : Frame) :
    (pulseSlots c f).length = 113 + 2 * (f.bits.filter id).length + c.stopLowSlots := by
  simp only [pulseSlots, List.length_append, List.length_replicate, length_flatMap_bitCell, Frame.length_bits,
    Config.startHigh, Config.startLow, Config.stopHighSlots]
  omega

/-- A byte and its complement have eight ones between them. -/
theorem count_byteBits_compl (b : Byte) :
    ((byteBits b).filter id).length + ((byteBits (~~~b)).filter id).length = 8 := by
  simp only [byteBits, BitVec.getLsbD_not]
  cases b.getLsbD 0 <;> cases b.getLsbD 1 <;> cases b.getLsbD 2 <;> cases b.getLsbD 3 <;>
    cases b.getLsbD 4 <;> cases b.getLsbD 5 <;> cases b.getLsbD 6 <;> cases b.getLsbD 7 <;> rfl

/-- A frame of three bytes and their complements has 24 ones (30_encoding.md R109). -/
theorem count_bits_frameOf (p : Packet) : ((frameOf p).bits.filter id).length = 24 := by
  have h0 := count_byteBits_compl p.p0
  have h1 := count_byteBits_compl p.p1
  have h2 := count_byteBits_compl p.p2
  simp only [Frame.bits, Frame.bytes, frameOf, List.flatMap_cons, List.flatMap_nil, List.filter_append,
    List.length_append, List.append_nil]
  omega

/-- The length of the pulse code of an encoder frame (41_waveform_generator.md R152). -/
@[simp] theorem length_pulseSlots_frameOf (c : Config) (p : Packet) :
    (pulseSlots c (frameOf p)).length = 161 + c.stopLowSlots := by
  rw [length_pulseSlots, count_bits_frameOf]

/-- The generator after an interrupt-driven SEND of an encoder frame. -/
theorem Generator.restart_stop (c : Config) (p : Packet) (g : Generator) :
    g.stop.restart c (frameOf p) = emissionStarted c g (frameOf p) := by
  cases h : g.timerEn <;>
    simp [Generator.restart, Generator.build, Generator.stop, Generator.emit, emissionStarted, h, pulseSlots_eq,
      Config.repeats] <;> simp [← pulseSlots_eq]

/-- Emitting intervals appends them to the log and moves the gate. -/
theorem Generator.foldl_emitSegment (l : List (Bool × Nat)) (g : Generator) :
    { l.foldl Generator.emitSegment g with pwmGate := false } =
      { g with pwmGate := false, out := g.out ++ l.map (fun e => .seg e.1 e.2) } := by
  induction l generalizing g with
  | nil => simp
  | cons e l ih =>
    rw [List.foldl_cons, ih]
    simp [Generator.emitSegment, Generator.emit]

/-- The intervals of a transmission, as events of the log. -/
theorem transmissionSegments_eq (c : Config) (f : Frame) :
    (transmissionSegments c f).map (fun e => Emission.seg e.1 e.2) = blockingEmissions c f := by
  simp [transmissionSegments, frameSegments, blockingEmissions, blockingBits, bitSegments, Frame.bits_eq_wireBits,
    Config.startHigh, Config.startLow, Config.gapOffUs, Config.gapOnUs, Config.gapOff2Us, Config.stopHighSlots,
    List.map_flatMap]

/-- Everything SEND does (R155, R170). -/
theorem State.send_eq (s : State) :
    s.send = { s with
      packet := encodePacket s.cfg s.dev
      frame := frameOf (encodePacket s.cfg s.dev)
      gen := if s.cfg.hasBlocking && s.ctrlBlk then transmissionDone s.cfg s.gen (frameOf (encodePacket s.cfg s.dev))
        else emissionStarted s.cfg s.gen (frameOf (encodePacket s.cfg s.dev)) } := by
  by_cases h : s.cfg.hasBlocking && s.ctrlBlk
  · simp only [State.send, State.blocking, h, if_true, State.sendBlocking, State.latchFrame]
    rw [Generator.foldl_emitSegment, transmissionSegments_eq]
    cases ht : s.gen.timerEn <;> simp [transmissionDone, Generator.stop, Generator.emit, ht]
  · simp only [State.send, State.blocking, h, State.sendInterrupt, State.latchFrame, encodePacket]
    simp [Generator.restart_stop, pack]

/-- Everything a vocabulary command that sends does (43_command_interpreter.md R249). -/
theorem State.mutateAndSend_eq (s : State) (d : DeviceState) : s.mutateAndSend d = sentAs s d := by
  rw [State.mutateAndSend, State.send_eq, sentAs]

/-- Everything a TICK step does: the tick is logged, and the indices, the repeat count, the timer and the pin move by
the case the counters are in (41_waveform_generator.md R160). -/
theorem Generator.tick_eq (n : Nat) (g : Generator) :
    g.tick n = { g with
      out := g.out ++ [.tick g.level]
      curSub := if (g.curSub + 1).toNat = n then 0 else g.curSub + 1
      curSlot :=
        if (g.curSub + 1).toNat = n then
          if g.curSlot + 1 = g.pbLen ∧ g.repeatCnt - 1 ≠ 0 then 0 else g.curSlot + 1
        else g.curSlot
      repeatCnt :=
        if (g.curSub + 1).toNat = n ∧ g.curSlot + 1 = g.pbLen then g.repeatCnt - 1 else g.repeatCnt
      timerEn :=
        if (g.curSub + 1).toNat = n ∧ g.curSlot + 1 = g.pbLen ∧ g.repeatCnt - 1 = 0 then false else g.timerEn
      pin :=
        if (g.curSub + 1).toNat = n ∧ g.curSlot + 1 = g.pbLen ∧ g.repeatCnt - 1 = 0 then false else g.level } := by
  by_cases h1 : (g.curSub + 1).toNat = n
  · by_cases h2 : g.curSlot + 1 = g.pbLen
    · by_cases h3 : g.repeatCnt - 1 = 0 <;>
        simp only [Generator.tick, Generator.emit, Generator.endSlot, Generator.endPass, h1, h2, h3, if_true, if_false,
          and_true, not_true, not_false_iff, ne_eq, and_false]
    · simp only [Generator.tick, Generator.emit, Generator.endSlot, h1, h2, if_true, if_false,
        false_and, and_false]
  · simp only [Generator.tick, Generator.emit, h1, if_false, false_and]

/-- What a firing of the timer does to the state (R160, R161, R290). -/
theorem State.timerFires_eq (s : State) :
    s.timerFires = { s with gen := if s.gen.timerEn then s.gen.tick s.cfg.nSub else s.gen } := by
  cases h : s.gen.timerEn <;> simp [State.timerFires, h]

/-- What a legal configuration bounds (00_scope.md R10). -/
theorem legalConfig_bounds {c : Config} (h : legalConfig c = true) :
    c.nSub % 2 = 0 ∧ 2 ≤ c.nSub ∧ c.nSub < 65536 ∧ 209 + c.stopLowSlots ≤ c.pbCap ∧ c.pbCap ≤ 2048 ∧
      c.sectorSize % 4 = 0 ∧ 8 ≤ c.sectorSize ∧ c.sectorSize ≤ 65536 ∧ 1 ≤ c.maxItems ∧ c.maxItems ≤ 255 := by
  simp only [legalConfig, Bool.and_eq_true, decide_eq_true_eq, beq_iff_eq] at h
  simp only [Config.stopHighSlots] at h
  omega

/-- A TICK step inside a slot. -/
theorem Generator.tick_inside {n : Nat} {g : Generator} (hn : n < 65536) (h : g.curSub.toNat + 1 < n) :
    g.tick n = { g with out := g.out ++ [.tick g.level], curSub := g.curSub + 1, pin := g.level } := by
  have h1 : (g.curSub + 1).toNat ≠ n := by bv_omega
  simp only [Generator.tick_eq, h1, if_false, false_and]

/-- A TICK step at the end of a slot that is not the last. -/
theorem Generator.tick_endSlot {n : Nat} {g : Generator} (hn : n < 65536) (h : g.curSub.toNat + 1 = n)
    (h2 : g.curSlot.toNat + 1 < g.pbLen.toNat) :
    g.tick n = { g with
      out := g.out ++ [.tick g.level], curSub := 0, curSlot := g.curSlot + 1, pin := g.level } := by
  have h1 : (g.curSub + 1).toNat = n := by bv_omega
  have h3 : g.curSlot + 1 ≠ g.pbLen := by bv_omega
  simp only [Generator.tick_eq, h1, h3, if_true, if_false, false_and, and_false]

/-- A TICK step at the end of a pass. -/
theorem Generator.tick_endPass {n : Nat} {g : Generator} (hn : n < 65536) (h : g.curSub.toNat + 1 = n)
    (h2 : g.curSlot.toNat + 1 = g.pbLen.toNat) :
    g.tick n = { g with
      out := g.out ++ [.tick g.level]
      curSub := 0
      curSlot := if g.repeatCnt - 1 = 0 then g.pbLen else 0
      repeatCnt := g.repeatCnt - 1
      timerEn := if g.repeatCnt - 1 = 0 then false else g.timerEn
      pin := if g.repeatCnt - 1 = 0 then false else g.level } := by
  have h1 : (g.curSub + 1).toNat = n := by bv_omega
  have h3 : g.curSlot + 1 = g.pbLen := by bv_omega
  by_cases h4 : g.repeatCnt - 1 = 0 <;>
    simp only [Generator.tick_eq, h1, h3, h4, if_true, if_false, true_and, ne_eq, not_true, not_false_iff, and_false]

end Sys2Proof.Machine
end

