-- ==== Sys2Proof/Laws/StoreInv.lean ====
section
/-! SUPPORT. The store's invariant: its parts, and that every micro-step of a store command keeps it. -/

namespace Sys2Proof.Machine

/-! ## The memories -/

/-- The memories of a state are in canonical form and have their sizes. -/
structure MemoriesOk (s : State) : Prop where
  flashWf : s.flash.wf = true
  flashIn : s.flash.within s.cfg.sectorSize = true
  length  : s.items.length = s.cfg.maxItems
  dataWf  : ∀ it ∈ s.items, it.data.wf = true
  dataIn  : ∀ it ∈ s.items, it.data.within 256 = true

theorem memoriesOk_iff {s : State} : MemoriesOk s ↔ memoriesWf s = true ∧ memoriesSized s = true := by
  constructor
  · rintro ⟨h1, h2, h3, h4, h5⟩
    simp only [memoriesWf, memoriesSized, Bool.and_eq_true, List.all_eq_true, beq_iff_eq]
    exact ⟨⟨h1, h4⟩, ⟨h2, h3⟩, h5⟩
  · simp only [memoriesWf, memoriesSized, Bool.and_eq_true, List.all_eq_true, beq_iff_eq]
    rintro ⟨⟨h1, h4⟩, ⟨h2, h3⟩, h5⟩
    exact ⟨h1, h2, h3, h4, h5⟩

theorem storeInv_iff {s : State} : storeInv s = true ↔ MemoriesOk s ∧ jobInv s = true := by
  simp [storeInv, memoriesOk_iff]

/-- The memories of `t` are in order if its flash and its items are. -/
theorem MemoriesOk.of {s t : State} (h : MemoriesOk s) (hc : t.cfg = s.cfg) (hf : t.flash = s.flash)
    (hi : t.items = s.items) : MemoriesOk t :=
  ⟨hf ▸ h.flashWf, by rw [hf, hc]; exact h.flashIn, by rw [hi, hc]; exact h.length, hi ▸ h.dataWf, hi ▸ h.dataIn⟩

/-- A slot of the table is one of the items. -/
theorem State.item_mem {s : State} {i : Nat} (h : i < s.items.length) : s.item i ∈ s.items := by
  have : s.item i = s.items[i] := by simp [State.item, List.getD_eq_getElem?_getD, h]
  rw [this]
  exact List.getElem_mem h

/-- The memories stay in order when a slot gets data that are. -/
theorem MemoriesOk.set {s t : State} {i : Nat} {it : Item} (h : MemoriesOk s) (hc : t.cfg = s.cfg)
    (hf : t.flash = s.flash) (hi : t.items = s.items.set i it) (h1 : it.data.wf = true)
    (h2 : it.data.within 256 = true) : MemoriesOk t := by
  refine ⟨hf ▸ h.flashWf, by rw [hf, hc]; exact h.flashIn, by rw [hi, hc, List.length_set]; exact h.length, ?_, ?_⟩
  · intro x hx
    rw [hi] at hx
    rcases List.mem_or_eq_of_mem_set hx with hx | rfl
    · exact h.dataWf x hx
    · exact h1
  · intro x hx
    rw [hi] at hx
    rcases List.mem_or_eq_of_mem_set hx with hx | rfl
    · exact h.dataIn x hx
    · exact h2

/-- A flash erase keeps the memories in order. -/
theorem MemoriesOk.flashErase {s : State} (h : MemoriesOk s) : MemoriesOk s.flashErase := by
  obtain ⟨m, he, h1, h2⟩ := s.flashErase_cases
  rw [he]
  exact ⟨h1 h.flashWf, h2 h.flashIn, h.length, h.dataWf, h.dataIn⟩

/-- A flash write inside the sector keeps the memories in order. -/
theorem MemoriesOk.flashWrite {s : State} {off : Nat} {bs : List Byte} (h : MemoriesOk s)
    (hb : off + bs.length ≤ s.cfg.sectorSize) : MemoriesOk (s.flashWrite off bs) := by
  obtain ⟨m, he, h1, h2⟩ := s.flashWrite_cases off bs
  rw [he]
  exact ⟨h1 h.flashWf, h2 _ hb h.flashIn, h.length, h.dataWf, h.dataIn⟩

/-- A flash read keeps the memories in order. -/
theorem MemoriesOk.flashReadDone {s : State} (h : MemoriesOk s) : MemoriesOk s.flashReadDone := by
  rw [s.flashReadDone_eq]
  exact h.of rfl rfl rfl

/-! ## What the acceptance of CFG_WRITE reads -/

/-- Layout and acceptance read nothing of an item but its length. -/
theorem imageTotal_congr {a b : List Item} (h : a.map Item.len = b.map Item.len) (n : Nat) :
    imageTotal a n = imageTotal b n := by
  have : ∀ l : List Item, imageTotal l n = (((l.map Item.len).take n).map (fun v => itemSize v.toNat)).sum := by
    intro l
    simp [imageTotal, ← List.map_take]
    rfl
  rw [this, this, h]

theorem writeAccepted_congr {s t : State} (hc : t.cfg = s.cfg) (h : t.items.map Item.len = s.items.map Item.len)
    (n : Nat) : writeAccepted t n = writeAccepted s n := by
  have : ∀ l : List Item, (l.take n).all (fun it => decide (it.len.toNat ≤ 255)) =
      ((l.map Item.len).take n).all (fun v => decide (v.toNat ≤ 255)) := by
    intro l
    rw [← List.map_take, List.all_map]
    rfl
  simp only [writeAccepted, hc, this, h, imageTotal_congr h]

/-- The parts of an acceptance (42_config_store.md R200). -/
theorem writeAccepted_iff {s : State} {n : Nat} :
    writeAccepted s n = true ↔ n ≤ s.cfg.maxItems ∧ (∀ it ∈ s.items.take n, it.len.toNat ≤ 255) ∧
      4 + imageTotal s.items n ≤ s.cfg.sectorSize := by
  simp [writeAccepted, and_assoc]

/-- An accepted item is at most 255 bytes long. -/
theorem len_le_of_writeAccepted {s : State} {n i : Nat} (h : writeAccepted s n = true)
    (hi : i < n) (hl : i < s.items.length) : (s.item i).len.toNat ≤ 255 := by
  have h1 := (writeAccepted_iff.mp h).2.1
  have h2 : s.item i = s.items[i] := by simp [State.item, List.getD_eq_getElem?_getD, hl]
  rw [h2]
  exact h1 _ (List.mem_take_iff_getElem.mpr ⟨i, by omega, rfl⟩)

/-- Slot `i` of an accepted image lies inside the sector. -/
theorem end_le_of_writeAccepted {s : State} {n i : Nat} (h : writeAccepted s n = true) (hm : MemoriesOk s)
    (hi : i < n) : 4 + imageTotal s.items i + itemSize (s.item i).len.toNat ≤ s.cfg.sectorSize := by
  obtain ⟨h1, -, h2⟩ := writeAccepted_iff.mp h
  have h3 := imageTotal_succ (items := s.items) (n := i) (by rw [hm.length]; omega)
  have h4 := imageTotal_mono s.items (i := i + 1) (n := n) (by omega)
  rw [show s.items.getD i Item.reset = s.item i from rfl] at h3
  omega

@[simp] theorem length_mainHeader (n : Nat) : (mainHeader n).length = 4 := rfl

@[simp] theorem length_dataHeader (it : Item) (ck : BitVec 16) : (dataHeader it ck).length = 4 := rfl

@[simp] theorem length_blob (it : Item) : it.blob.length = it.len.toNat := by simp [Item.blob]

@[simp] theorem length_paddedBlob (it : Item) : (paddedBlob it).length = alignUp it.len.toNat := by
  have := le_alignUp it.len.toNat
  simp [paddedBlob]
  omega

/-- Storing a checksum changes no length. -/
theorem map_len_latchChecksum (s : State) (i : Nat) :
    (s.latchChecksum i).items.map Item.len = s.items.map Item.len := by
  refine List.ext_getElem (by simp [State.latchChecksum, State.putItem]) fun k h1 h2 => ?_
  simp only [List.getElem_map]
  by_cases hk : i = k
  · subst hk
    have : i < s.items.length := by simpa using h2
    simp [State.latchChecksum, State.putItem, State.item, List.getD_eq_getElem?_getD, this]
  · simp [State.latchChecksum, State.putItem, hk]

/-! ## Slots still to fill -/

theorem slotsFree_iff {s : State} {i lim : Nat} :
    slotsFree s i lim = true ↔ ∀ k, i ≤ k → k < lim → k < s.items.length → (s.item k).alloc = false := by
  simp only [slotsFree, List.all_eq_true, Bool.not_eq_true']
  constructor
  · intro h k h1 h2 h3
    have : s.item k = s.items[k] := by simp [State.item, List.getD_eq_getElem?_getD, h3]
    rw [this]
    refine h _ (List.mem_take_iff_getElem.mpr ⟨k - i, by simp; omega, ?_⟩)
    simp [show i + (k - i) = k by omega]
  · intro h it hit
    obtain ⟨k, hk, rfl⟩ := List.mem_take_iff_getElem.mp hit
    simp only [List.length_drop, Nat.lt_min] at hk
    have h3 : i + k < s.items.length := by omega
    have := h (i + k) (by omega) (by omega) h3
    simpa [State.item, List.getD_eq_getElem?_getD, h3] using this

/-- Slots from `i` on that hold no blob go on holding none while slots below `i` change. -/
theorem slotsFree_of_eq {s t : State} {i k lim : Nat} (h : slotsFree s i lim = true) (hik : i ≤ k)
    (hl : t.items.length = s.items.length) (ht : ∀ j, k ≤ j → t.item j = s.item j) :
    slotsFree t k lim = true := by
  rw [slotsFree_iff] at *
  intro j h1 h2 h3
  rw [ht j h1]
  exact h j (by omega) h2 (by omega)

/-! ## The job -/

/-- The invariant of a state that goes on to item `i` of CFG_WRITE or ends it. -/
theorem jobInv_nextWrite {s : State} {n i off : Nat} (h : writeAccepted s n = true)
    (ho : off = 4 + imageTotal s.items i) : jobInv (s.nextWrite n i off) = true := by
  unfold State.nextWrite
  split
  · rename_i hi
    simp only [jobInv, Bool.and_eq_true, decide_eq_true_eq, beq_iff_eq]
    exact ⟨⟨h, hi⟩, ho⟩
  · rfl

theorem closeRead_job (s : State) (i : Nat) (m : Int) : (s.closeRead i m).job = none := by
  unfold State.closeRead
  split <;> rfl

/-- The invariant of a state that goes on to item `i` of CFG_READ or ends it. -/
theorem jobInv_nextRead {s : State} {lim i off : Nat} {m : Int} (hl : lim ≤ s.cfg.maxItems)
    (hf : slotsFree s i lim = true) (ho : off % 4 = 0) : jobInv (s.nextRead lim i off m) = true := by
  unfold State.nextRead
  split
  · rename_i h
    split
    · rfl
    · simp only [jobInv, Bool.and_eq_true, decide_eq_true_eq, beq_iff_eq]
      exact ⟨⟨⟨⟨hl, h.2⟩, hf⟩, ho⟩, by show off + 4 ≤ s.cfg.sectorSize; omega⟩
  · simp only [jobInv, closeRead_job]

theorem MemoriesOk.nextRead {s : State} (h : MemoriesOk s) (lim i off : Nat) (m : Int) :
    MemoriesOk (s.nextRead lim i off m) := by
  unfold State.nextRead State.closeRead
  split
  · split <;> exact h.of rfl rfl rfl
  · split <;> exact h.of rfl rfl rfl

theorem MemoriesOk.nextWrite {s : State} (h : MemoriesOk s) (n i off : Nat) : MemoriesOk (s.nextWrite n i off) := by
  unfold State.nextWrite
  split <;> exact h.of rfl rfl rfl

theorem freeData_ok (s : State) : s.freeData.wf = true ∧ s.freeData.within 256 = true :=
  ⟨Memory.writeBytes_wf rfl _ _, Memory.writeBytes_within rfl (by simp)⟩

/-- The checksum test keeps the store's invariant. -/
theorem storeInv_verifyItem {s : State} {lim i off : Nat} {m : Int} {id len : Byte} {ck : BitVec 16}
    {data : List Byte} (h : MemoriesOk s) (hl : lim ≤ s.cfg.maxItems) (hi : i < lim)
    (hf : slotsFree s i lim = true) (ho : off % 4 = 0) :
    storeInv (s.verifyItem lim i off m id len ck data) = true := by
  have hit := State.item_mem (s := s) (i := i) (by rw [h.length]; omega)
  rw [storeInv_iff]
  unfold State.verifyItem
  simp only
  split
  · have h1 : MemoriesOk (s.fillItem i id len ck (data.take len.toNat)) := by
      refine h.set rfl rfl rfl (Memory.writeBytes_wf (h.dataWf _ hit) _ _)
        (Memory.writeBytes_within (h.dataIn _ hit) ?_)
      have := len.isLt
      simp only [List.length_take]
      omega
    refine ⟨h1.nextRead _ _ _ _, jobInv_nextRead hl ?_ ?_⟩
    · refine slotsFree_of_eq hf (Nat.le_succ i) (by simp [State.fillItem, State.putItem]) fun j hj => ?_
      simp [State.fillItem, State.putItem, State.item, List.getD_eq_getElem?_getD,
        show ¬ i = j by omega]
    · have := itemSize_mod len.toNat
      omega
  · refine ⟨?_, rfl⟩
    obtain ⟨h1, h2⟩ := freeData_ok s
    have h3 : ((s.discardItem i id ck).finishRead i).items =
        s.items.set i { alloc := false, id := id, len := 0, cksum := ck, data := s.freeData } := by simp
    generalize s.freeData = m at h1 h2 h3
    exact h.set rfl rfl h3 h1 h2

/-- Every micro-step of a store command keeps the store's invariant. -/
theorem storeInv_microStep {s : State} {j : Job} (hl : legalConfig s.cfg = true) (h : storeInv s = true)
    (hj : s.job = some j) : storeInv (s.microStep j) = true := by
  obtain ⟨hm, hjob⟩ := storeInv_iff.mp h
  have hb := legalConfig_bounds hl
  rw [storeInv_iff]
  cases j with
  | writeErase n =>
    simp only [jobInv, hj] at hjob
    refine ⟨hm.flashErase.of rfl rfl rfl, ?_⟩
    obtain ⟨m, he, -⟩ := s.flashErase_cases
    simp only [State.microStep, jobInv]
    rw [writeAccepted_congr (s := s) (by rw [he]) (by rw [he]), hjob]
  | writeMain n =>
    simp only [jobInv, hj] at hjob
    have h4 : 0 + (Job.program s (.writeMain n)).length ≤ s.cfg.sectorSize := by
      rw [show (Job.program s (.writeMain n)).length = 4 from rfl]
      omega
    refine ⟨(hm.flashWrite h4).nextWrite _ _ _, jobInv_nextWrite ?_ ?_⟩
    · obtain ⟨m, he, -⟩ := s.flashWrite_cases 0 (Job.program s (.writeMain n))
      rw [writeAccepted_congr (s := s) (by rw [he]) (by rw [he]), hjob]
    · simp [imageTotal]
  | writeHeader n i off =>
    simp only [jobInv, hj, Bool.and_eq_true, decide_eq_true_eq, beq_iff_eq] at hjob
    obtain ⟨⟨hacc, hi⟩, rfl⟩ := hjob
    have hle := (writeAccepted_iff.mp hacc).1
    have hil : i < s.items.length := by rw [hm.length]; omega
    have hit := State.item_mem hil
    have hend := end_le_of_writeAccepted hacc hm hi
    have hlen := map_len_latchChecksum s i
    have hm1 : MemoriesOk (s.latchChecksum i) :=
      hm.set (i := i) (it := { s.item i with cksum := checksum s.cfg.cksum (s.item i).blob }) rfl rfl rfl
        (hm.dataWf (s.item i) hit) (hm.dataIn (s.item i) hit)
    have h4 : 4 + imageTotal s.items i + (Job.program s (.writeHeader n i (4 + imageTotal s.items i))).length
        ≤ (s.latchChecksum i).cfg.sectorSize := by
      rw [show (Job.program s (.writeHeader n i (4 + imageTotal s.items i))).length = 4 from rfl]
      show _ ≤ s.cfg.sectorSize
      unfold itemSize at hend
      omega
    have hm2 := hm1.flashWrite h4
    obtain ⟨m, he, -⟩ := (s.latchChecksum i).flashWrite_cases (4 + imageTotal s.items i)
      (Job.program s (.writeHeader n i (4 + imageTotal s.items i)))
    generalize hu : (s.latchChecksum i).flashWrite (4 + imageTotal s.items i)
      (Job.program s (.writeHeader n i (4 + imageTotal s.items i))) = u at *
    have hulen : u.items.map Item.len = s.items.map Item.len := by rw [he]; exact hlen
    have hucfg : u.cfg = s.cfg := by rw [he]; rfl
    have hacc' : writeAccepted u n = true := by rw [writeAccepted_congr hucfg hulen, hacc]
    simp only [State.microStep, hu]
    split
    · rename_i hpos
      refine ⟨hm2.of rfl rfl rfl, ?_⟩
      simp only [jobInv, Bool.and_eq_true, decide_eq_true_eq, beq_iff_eq]
      refine ⟨⟨⟨?_, hi⟩, ?_⟩, ?_⟩
      · rw [← hacc']; exact writeAccepted_congr rfl rfl n
      · show _ = 4 + imageTotal u.items i
        rw [imageTotal_congr hulen]
      · have h5 : (u.item i).len = (s.item i).len := by
          have h6 := congrArg (fun l => l[i]?) hulen
          simp only [List.getElem?_map] at h6
          have h7 : i < u.items.length := by rw [hm2.length, hucfg]; omega
          simpa [State.item, List.getD_eq_getElem?_getD, h7, hil] using h6
        show 0 < (u.item i).len.toNat
        rw [h5]
        exact alignUp_pos.mp hpos
    · refine ⟨hm2.nextWrite _ _ _, jobInv_nextWrite hacc' ?_⟩
      rw [imageTotal_congr hulen, imageTotal_succ hil]
      rw [show s.items.getD i Item.reset = s.item i from rfl]
      omega
  | writeData n i off =>
    simp only [jobInv, hj, Bool.and_eq_true, decide_eq_true_eq, beq_iff_eq] at hjob
    obtain ⟨⟨⟨hacc, hi⟩, rfl⟩, hpos⟩ := hjob
    have hle := (writeAccepted_iff.mp hacc).1
    have hil : i < s.items.length := by rw [hm.length]; omega
    have hend := end_le_of_writeAccepted hacc hm hi
    have h4 : 4 + imageTotal s.items i + 4 + (Job.program s (.writeData n i (4 + imageTotal s.items i))).length
        ≤ s.cfg.sectorSize := by
      rw [show (Job.program s (.writeData n i (4 + imageTotal s.items i))).length
        = alignUp (s.item i).len.toNat from length_paddedBlob _]
      unfold itemSize at hend
      omega
    obtain ⟨m, he, -⟩ := s.flashWrite_cases (4 + imageTotal s.items i + 4)
      (Job.program s (.writeData n i (4 + imageTotal s.items i)))
    refine ⟨(hm.flashWrite h4).nextWrite _ _ _, jobInv_nextWrite ?_ ?_⟩
    · rw [writeAccepted_congr (s := s) (by rw [he]) (by rw [he]), hacc]
    · rw [congrArg State.items he, imageTotal_succ hil]
      rw [show s.items.getD i Item.reset = s.item i from rfl]
      omega
  | readMain lim =>
    simp only [jobInv, hj, Bool.and_eq_true, decide_eq_true_eq] at hjob
    obtain ⟨hle, hf⟩ := hjob
    have hr := s.flashReadDone_eq
    have hm2 := hm.flashReadDone
    simp only [State.microStep, State.afterMain]
    split
    · refine ⟨(hm2.of (t := { s.flashReadDone with rdEmpty := false }) rfl rfl rfl).nextRead _ _ _ _,
        jobInv_nextRead ?_ ?_ rfl⟩
      · rw [hr]; exact hle
      · rw [hr]; exact hf
    · exact ⟨hm2.of rfl rfl rfl, rfl⟩
  | readHeader lim i off m =>
    simp only [jobInv, hj, Bool.and_eq_true, decide_eq_true_eq, beq_iff_eq] at hjob
    obtain ⟨⟨⟨⟨hle, hi⟩, hf⟩, ho⟩, hs⟩ := hjob
    have hr := s.flashReadDone_eq
    have hm2 := hm.flashReadDone
    have hc : s.flashReadDone.cfg = s.cfg := by rw [hr]
    have hf2 : slotsFree s.flashReadDone i lim = true := by rw [hr]; exact hf
    simp only [State.microStep, State.afterHeader]
    split
    · exact ⟨hm2.of rfl rfl rfl, rfl⟩
    · rename_i hin
      split
      · rename_i hpos
        refine ⟨hm2.of rfl rfl rfl, ?_⟩
        simp only [jobInv, Bool.and_eq_true, decide_eq_true_eq, beq_iff_eq]
        refine ⟨⟨⟨⟨⟨?_, hi⟩, hf2⟩, ho⟩, alignUp_pos.mp hpos⟩, ?_⟩
        · show lim ≤ s.flashReadDone.cfg.maxItems
          rw [hc]; exact hle
        · show _ ≤ s.flashReadDone.cfg.sectorSize
          omega
      · exact storeInv_iff.mp (storeInv_verifyItem hm2 (by rw [hc]; exact hle) hi hf2 ho)
  | readData lim i off m id len ck =>
    simp only [jobInv, hj, Bool.and_eq_true, decide_eq_true_eq, beq_iff_eq] at hjob
    obtain ⟨⟨⟨⟨⟨hle, hi⟩, hf⟩, ho⟩, hpos⟩, hs⟩ := hjob
    have hr := s.flashReadDone_eq
    have hc : s.flashReadDone.cfg = s.cfg := by rw [hr]
    exact storeInv_iff.mp (storeInv_verifyItem hm.flashReadDone (by rw [hc]; exact hle) hi (by rw [hr]; exact hf) ho)

/-- Running on keeps the store's invariant. -/
theorem storeInv_drain {s : State} (hl : legalConfig s.cfg = true) (h : storeInv s = true) (k : Nat) :
    storeInv (s.drain k) = true := by
  induction k generalizing s with
  | zero => exact h
  | succ k ih =>
    cases hj : s.job with
    | none => rw [State.drain_none hj]; exact h
    | some j =>
      rw [State.drain_succ hj]
      exact ih (by rw [(s.microStep_outside j).cfg]; exact hl) (storeInv_microStep hl h hj)

end Sys2Proof.Machine
end

