-- ==== Sys2Proof/Laws/Write.lean ====
section
/-! SUPPORT. CFG_WRITE as a loop: what one item does, what all of them do, and the flash image they leave when no call
fails. -/

namespace Sys2Proof.Machine

/-! ## Stamped slots -/

/-- The table after the checksums of its first `n` slots are stored. -/
def stampTo (c : Config) (n : Nat) (items : List Item) : List Item :=
  (items.take n).map (Item.stamped c) ++ items.drop n

@[simp] theorem stampTo_zero (c : Config) (items : List Item) : stampTo c 0 items = items := by simp [stampTo]

@[simp] theorem length_stampTo (c : Config) (n : Nat) (items : List Item) :
    (stampTo c n items).length = items.length := by
  simp only [stampTo, List.length_append, List.length_map, List.length_take, List.length_drop]
  omega

/-- A slot of a table whose first `n` slots are stamped. -/
theorem getElem_stampTo {c : Config} {n k : Nat} {items : List Item} (h : k < items.length) :
    (stampTo c n items)[k]'(by simpa using h) = if k < n then items[k].stamped c else items[k] := by
  unfold stampTo
  by_cases hk : k < n
  · rw [List.getElem_append_left (by simp; omega)]
    simp [hk]
  · rw [List.getElem_append_right (by simp; omega)]
    simp only [List.length_map, List.length_take, List.getElem_drop, hk, if_false]
    congr 1
    omega

/-- Stamping the next slot. -/
theorem set_stampTo {c : Config} {i : Nat} {items : List Item} (h : i < items.length) :
    (stampTo c i items).set i (items[i].stamped c) = stampTo c (i + 1) items := by
  refine List.ext_getElem (by simp) fun k h1 h2 => ?_
  have hk : k < items.length := by simpa using h2
  rw [List.getElem_set, getElem_stampTo hk, getElem_stampTo hk]
  by_cases hik : i = k
  · subst hik; simp
  · by_cases hlt : k < i
    · simp [hik, hlt, show k < i + 1 by omega]
    · simp [hik, hlt, show ¬ k < i + 1 by omega]

@[simp] theorem map_len_stampTo (c : Config) (n : Nat) (items : List Item) :
    (stampTo c n items).map Item.len = items.map Item.len := by
  refine List.ext_getElem (by simp) fun k h1 h2 => ?_
  have hk : k < items.length := by simpa using h2
  rw [List.getElem_map, List.getElem_map, getElem_stampTo hk]
  split <;> rfl

/-- The slot that CFG_WRITE comes to next still holds what it held. -/
theorem item_stampTo {s t : State} {c : Config} {i : Nat} (h : i < s.items.length)
    (ht : t.items = stampTo c i s.items) : t.item i = s.item i := by
  have h1 : t.item i = (stampTo c i s.items)[i]'(by simpa using h) := by
    simp [State.item, List.getD_eq_getElem?_getD, ht, h]
  rw [h1, getElem_stampTo h]
  simp [State.item, List.getD_eq_getElem?_getD, h]

/-! ## One item -/

/-- How many flash calls CFG_WRITE makes for one item. -/
def itemCalls (it : Item) : Nat := if 0 < it.len.toNat then 2 else 1

/-- `t` is `s` with the checksums of the first `i` slots stored, after `c` flash calls. -/
def WroteTo (s t : State) (i c : Nat) : Prop :=
  t = { s with
    flash := t.flash, items := stampTo s.cfg i s.items, diag := s.diag ||| s.ioBits c
    draws := s.draws.drop c, drawCount := s.drawCount + c }

theorem WroteTo.refl (s : State) : WroteTo s s 0 0 := by simp [WroteTo]

/-- A flash write after some items. -/
theorem WroteTo.flashWrite {s t : State} {i c : Nat} (h : WroteTo s t i c) (off : Nat) (bs : List Byte) :
    WroteTo s (t.flashWrite off bs) i (c + 1) := by
  obtain ⟨m, he, -⟩ := t.flashWrite_cases off bs
  have h1 : t.draws = s.draws.drop c := congrArg State.draws h
  have h2 : t.drawCount = s.drawCount + c := congrArg State.drawCount h
  have h3 : t.diag = s.diag ||| s.ioBits c := congrArg State.diag h
  unfold WroteTo
  rw [he, State.ioBits_add h1 h2, ← BitVec.or_assoc, ← h3, ← List.drop_drop, ← h1, ← Nat.add_assoc, ← h2]
  generalize t.ioBits 1 = x
  conv_lhs => rw [h]
  simp only [h1, h2, h3]

/-- The checksum of the next slot stored. -/
theorem WroteTo.latch {s t : State} {i c : Nat} (h : WroteTo s t i c) (hi : i < s.items.length) :
    WroteTo s (t.latchChecksum i) (i + 1) c := by
  have h1 : t.item i = s.item i := item_stampTo hi (congrArg State.items h)
  have h2 : t.cfg = s.cfg := by rw [h]
  have h3 : s.item i = s.items[i] := by simp [State.item, List.getD_eq_getElem?_getD, hi]
  have h4 : (t.latchChecksum i).items = stampTo s.cfg (i + 1) s.items := by
    rw [← set_stampTo hi]
    simp only [State.latchChecksum, State.putItem, h1, h2, h3]
    rw [congrArg State.items h]
    rfl
  have h5 : t.latchChecksum i = { t with items := stampTo s.cfg (i + 1) s.items } := by
    rw [← h4]
    rfl
  unfold WroteTo
  rw [h5]
  conv_lhs => rw [h]

/-- One item of CFG_WRITE, as one or two micro-steps, is this much (42_config_store.md R201). -/
def State.writeItem (s : State) (i off : Nat) : State :=
  let s1 := (s.latchChecksum i).flashWrite off (dataHeader (s.item i) (checksum s.cfg.cksum (s.item i).blob))
  if 0 < alignUp (s.item i).len.toNat then s1.flashWrite (off + 4) (paddedBlob (s.item i)) else s1

/-- The item's own slot is the only one that storing a checksum changes, and not in its length or data. -/
theorem item_latchChecksum {s : State} {i : Nat} (hi : i < s.items.length) :
    (s.latchChecksum i).item i = { s.item i with cksum := checksum s.cfg.cksum (s.item i).blob } := by
  simp [State.latchChecksum, State.putItem, State.item, List.getD_eq_getElem?_getD, hi]

@[simp] theorem State.flashWrite_items (s : State) (off : Nat) (bs : List Byte) :
    (s.flashWrite off bs).items = s.items := by
  obtain ⟨m, he, -⟩ := s.flashWrite_cases off bs
  rw [he]

@[simp] theorem State.flashWrite_cfg (s : State) (off : Nat) (bs : List Byte) :
    (s.flashWrite off bs).cfg = s.cfg := (s.flashWrite_outside off bs).cfg

theorem State.flashWrite_job (s : State) (j : Option Job) (off : Nat) (bs : List Byte) :
    ({ s with job := j } : State).flashWrite off bs = { s.flashWrite off bs with job := j } := by
  unfold State.flashWrite
  rw [show ({ s with job := j } : State).callOk = s.callOk from rfl]
  split <;> rfl

theorem paddedBlob_congr {a b : Item} (h1 : a.len = b.len) (h2 : a.data = b.data) : paddedBlob a = paddedBlob b := by
  unfold paddedBlob Item.blob
  rw [h1, h2]

/-- Going on to the next item forgets which job there was. -/
theorem State.nextWrite_job (s : State) (j : Option Job) (n i off : Nat) :
    ({ s with job := j } : State).nextWrite n i off = s.nextWrite n i off := by
  unfold State.nextWrite
  split <;> rfl

/-- Running one item on: the micro-steps of item `i` are `State.writeItem` and the step to item `i + 1`. -/
theorem drain_writeItem {s : State} {n i off : Nat} (hn : i < n) (hi : i < s.items.length) (k : Nat) :
    (s.nextWrite n i off).drain (k + 2) =
      ((s.writeItem i off).nextWrite n (i + 1) (off + itemSize (s.item i).len.toNat)).drain
        (if 0 < alignUp (s.item i).len.toNat then k else k + 1) := by
  have h0 : s.nextWrite n i off = { s with job := some (.writeHeader n i off) } := by simp [State.nextWrite, hn]
  have hprog : Job.program ({ s with job := some (.writeHeader n i off) } : State) (.writeHeader n i off) =
      dataHeader (s.item i) (checksum s.cfg.cksum (s.item i).blob) := rfl
  have hlatch : ({ s with job := some (.writeHeader n i off) } : State).latchChecksum i =
      { s.latchChecksum i with job := some (.writeHeader n i off) } := rfl
  rw [h0, show k + 2 = (k + 1) + 1 from rfl, State.drain_succ rfl]
  by_cases hpos : 0 < alignUp (s.item i).len.toNat
  · simp only [State.microStep, hlatch, hprog, State.flashWrite_job]
    rw [show (({ s with job := some (.writeHeader n i off) } : State).item i) = s.item i from rfl]
    simp only [hpos, if_true, State.writeItem]
    rw [State.drain_succ rfl]
    congr 1
    simp only [State.microStep, Job.program]
    generalize hu : (s.latchChecksum i).flashWrite off
      (dataHeader (s.item i) (checksum s.cfg.cksum (s.item i).blob)) = u
    have h2 : u.item i = { s.item i with cksum := checksum s.cfg.cksum (s.item i).blob } := by
      rw [← item_latchChecksum hi, ← hu]
      simp [State.item]
    have h3 : (({ u with job := some (.writeData n i off) } : State).item i) = u.item i := rfl
    rw [h3, h2, State.flashWrite_job, State.nextWrite_job]
    rw [show paddedBlob { s.item i with cksum := checksum s.cfg.cksum (s.item i).blob } = paddedBlob (s.item i) from
      paddedBlob_congr rfl rfl]
  · simp only [State.microStep, hlatch, hprog, State.flashWrite_job]
    rw [show (({ s with job := some (.writeHeader n i off) } : State).item i) = s.item i from rfl]
    simp only [hpos, if_false, State.writeItem, State.nextWrite_job]

/-- One item after some items. -/
theorem WroteTo.writeItem {s t : State} {i c : Nat} (h : WroteTo s t i c) (hi : i < s.items.length) (off : Nat) :
    WroteTo s (t.writeItem i off) (i + 1) (c + itemCalls (s.item i)) := by
  have hit : t.item i = s.item i := item_stampTo hi (congrArg State.items h)
  unfold State.writeItem itemCalls
  simp only [hit, alignUp_pos]
  split
  · exact ((h.latch hi).flashWrite _ _).flashWrite _ _
  · exact (h.latch hi).flashWrite _ _

theorem take_drop_succ {items : List Item} {i k : Nat} (h : i < items.length) :
    (items.drop i).take (k + 1) = items.getD i Item.reset :: (items.drop (i + 1)).take k := by
  rw [List.drop_eq_getElem_cons h, List.take_succ_cons]
  simp [List.getD_eq_getElem?_getD, h]

/-! ## All items -/

/-- The items `i ..` of CFG_WRITE, `k` of them. -/
def State.writeItems : Nat → State → Nat → Nat → State
  | 0, s, _, _ => s
  | k + 1, s, i, off => (s.writeItem i off).writeItems k (i + 1) (off + itemSize (s.item i).len.toNat)

theorem drain_of_job_none {s : State} (h : s.job = none) (k : Nat) : s.drain k = s := State.drain_none h k

/-- Running on from item `i` to the end. -/
theorem drain_writeItems {s t : State} {n i c off : Nat} (h : WroteTo s t i c) (hn : n ≤ s.items.length) {k fuel : Nat}
    (hk : i + k = n) (hf : 2 * k ≤ fuel) :
    (t.nextWrite n i off).drain fuel = (t.writeItems k i off).finishWrite ∧
      WroteTo s (t.writeItems k i off) n (c + (((s.items.drop i).take k).map itemCalls).sum) := by
  induction k generalizing t i c off fuel with
  | zero =>
    have : ¬ i < n := by omega
    simp only [State.nextWrite, this, if_false, State.writeItems]
    exact ⟨State.drain_none rfl _, by rw [← hk]; exact h⟩
  | succ k ih =>
    obtain ⟨f, rfl⟩ : ∃ f, fuel = f + 2 := ⟨fuel - 2, by omega⟩
    have hit : t.items.length = s.items.length := by rw [congrArg State.items h]; simp
    rw [drain_writeItem (by omega) (by omega) f, take_drop_succ (by omega), List.map_cons, List.sum_cons, ← Nat.add_assoc]
    simp only [State.writeItems]
    exact ih (h.writeItem (by omega) off) (by omega) (by split <;> omega)

/-! ## The image -/

/-- The flash of `s` holds some bytes from offset 0 on and is erased after them. -/
def FlashHolds (s : State) (bytes : List Byte) : Prop :=
  s.flash.wf = true ∧ ∀ a, s.flash.read a = bytes.getD a 0xFF

/-- Programming right after what the flash holds, when the call succeeds. -/
theorem FlashHolds.append {s : State} {bytes new : List Byte} (h : FlashHolds s bytes) (hok : s.callOk = true)
    {off : Nat} (ho : off = bytes.length) : FlashHolds (s.flashWrite off new) (bytes ++ new) := by
  subst ho
  have hp : s.flash.programmed bytes.length new = new :=
    Memory.programmed_erased fun k _ => by
      rw [h.2, List.getD_eq_getElem?_getD, List.getElem?_eq_none (by omega)]
      rfl
  rw [State.flashWrite_of_ok hok, hp]
  refine ⟨Memory.writeBytes_wf h.1 _ _, fun a => ?_⟩
  rw [Memory.read_writeBytes h.1, h.2]
  simp only [List.getD_eq_getElem?_getD]
  by_cases h1 : a < bytes.length
  · have : ¬ (bytes.length ≤ a ∧ a < bytes.length + new.length) := by omega
    rw [if_neg this, List.getElem?_append_left h1]
  · rw [List.getElem?_append_right (by omega)]
    by_cases h2 : a < bytes.length + new.length
    · rw [if_pos ⟨by omega, h2⟩, List.getElem?_eq_getElem (by omega)]
      rfl
    · have : ¬ (bytes.length ≤ a ∧ a < bytes.length + new.length) := by omega
      rw [if_neg this, List.getElem?_eq_none (by omega), List.getElem?_eq_none (by omega)]

/-- A call that succeeds adds no diagnostic bit. -/
theorem State.flashWrite_diag {s : State} (h : s.callOk = true) (off : Nat) (bs : List Byte) :
    (s.flashWrite off bs).diag = s.diag ∧ (s.flashWrite off bs).draws = s.draws.tail ∧
      (s.flashWrite off bs).drawCount = s.drawCount + 1 := by
  rw [State.flashWrite_of_ok h]
  exact ⟨rfl, rfl, rfl⟩

@[simp] theorem length_itemImage (c : Config) (it : Item) : (itemImage c it).length = itemSize it.len.toNat := by
  have := le_alignUp it.len.toNat
  simp [itemImage, halfBytes, itemSize]
  omega

/-- The bytes of an item, header and padded data. -/
theorem itemImage_eq (c : Config) (it : Item) :
    itemImage c it = dataHeader it (checksum c.cksum it.blob) ++ paddedBlob it := by
  simp [itemImage, dataHeader, paddedBlob, Config.padByte]

/-- One item written, with every call succeeding. -/
theorem writeItem_ok {s : State} {bytes : List Byte} {i : Nat} (h : FlashHolds s bytes)
    (hok : callsSucceed s (if 0 < (s.item i).len.toNat then 2 else 1) = true) :
    FlashHolds (s.writeItem i bytes.length) (bytes ++ itemImage s.cfg (s.item i)) ∧
      (s.writeItem i bytes.length).diag = s.diag ∧
      (s.writeItem i bytes.length).draws = s.draws.drop (if 0 < (s.item i).len.toNat then 2 else 1) ∧
      (s.writeItem i bytes.length).drawCount = s.drawCount + (if 0 < (s.item i).len.toNat then 2 else 1) := by
  rw [itemImage_eq, ← List.append_assoc]
  have hl : FlashHolds (s.latchChecksum i) bytes := h
  unfold State.writeItem
  by_cases hpos : 0 < (s.item i).len.toNat
  · simp only [hpos, if_true] at hok
    have h1 : (s.latchChecksum i).callOk = true := State.callOk_of_callsSucceed (k := 1) hok
    have h2 := hl.append (new := dataHeader (s.item i) (checksum s.cfg.cksum (s.item i).blob)) h1 rfl
    obtain ⟨d1, d2, d3⟩ := State.flashWrite_diag h1 bytes.length
      (dataHeader (s.item i) (checksum s.cfg.cksum (s.item i).blob))
    have h3 := State.callOk_of_callsSucceed (k := 0)
      (callsSucceed_tail (k := 1) (s := s) (t := (s.latchChecksum i).flashWrite bytes.length
        (dataHeader (s.item i) (checksum s.cfg.cksum (s.item i).blob))) hok d2)
    have h4 := h2.append (new := paddedBlob (s.item i)) (off := bytes.length + 4) h3 (by simp)
    obtain ⟨e1, e2, e3⟩ := State.flashWrite_diag h3 (bytes.length + 4) (paddedBlob (s.item i))
    simp only [alignUp_pos.mpr hpos, hpos, if_true]
    refine ⟨h4, e1.trans d1, ?_, ?_⟩
    · rw [e2, d2]
      show s.draws.tail.tail = s.draws.drop 2
      cases s.draws with
      | nil => rfl
      | cons _ l => cases l <;> rfl
    · rw [e3, d3]; rfl
  · simp only [hpos, if_false] at hok
    have hz : (s.item i).len.toNat = 0 := by omega
    have h1 : (s.latchChecksum i).callOk = true := State.callOk_of_callsSucceed (k := 0) hok
    have h2 := hl.append (new := dataHeader (s.item i) (checksum s.cfg.cksum (s.item i).blob)) h1 rfl
    obtain ⟨d1, d2, d3⟩ := State.flashWrite_diag h1 bytes.length
      (dataHeader (s.item i) (checksum s.cfg.cksum (s.item i).blob))
    have hp : paddedBlob (s.item i) = [] := List.eq_nil_of_length_eq_zero (by rw [length_paddedBlob, hz]; rfl)
    simp only [hz, hp, List.append_nil, show ¬ 0 < alignUp 0 by decide, if_false, Nat.lt_irrefl]
    refine ⟨h2, d1, ?_, ?_⟩
    · rw [d2]; simp [State.latchChecksum, State.putItem]
    · rw [d3]; rfl

/-- The flash calls of a CFG_WRITE, item by item (42_config_store.md R201). -/
theorem writeCalls_eq (items : List Item) : writeCalls items = 2 + (items.map itemCalls).sum := by
  unfold writeCalls
  induction items with
  | nil => rfl
  | cons it rest ih =>
    by_cases h : 0 < it.len.toNat <;> simp [h, itemCalls] at ih ⊢ <;> omega

/-- ENV lets fewer calls succeed if it lets more succeed. -/
theorem callsSucceed_le {s : State} {j k : Nat} (h : callsSucceed s k = true) (hjk : j ≤ k) :
    callsSucceed s j = true := by
  simp only [callsSucceed, Bool.and_eq_true, decide_eq_true_eq, List.all_eq_true] at *
  exact ⟨by omega, fun b hb => h.2 b (List.take_subset_take_left _ hjk hb)⟩

/-- After some calls ENV lets the rest succeed. -/
theorem callsSucceed_drop {s t : State} {j k : Nat} (h : callsSucceed s (j + k) = true)
    (ht : t.draws = s.draws.drop j) : callsSucceed t k = true := by
  simp only [callsSucceed, Bool.and_eq_true, decide_eq_true_eq, List.all_eq_true, ht, List.length_drop] at *
  refine ⟨by omega, fun b hb => h.2 b ?_⟩
  rw [List.take_drop] at hb
  exact List.mem_of_mem_drop hb

/-- The items `i ..` written, with every call succeeding. -/
theorem writeItems_ok {s t : State} {bytes : List Byte} {i c k : Nat} (h : FlashHolds t bytes)
    (hw : WroteTo s t i c)
    (hk : i + k ≤ s.items.length)
    (hok : callsSucceed t (((s.items.drop i).take k).map itemCalls).sum = true) :
    FlashHolds (t.writeItems k i bytes.length) (bytes ++ ((s.items.drop i).take k).flatMap (itemImage s.cfg)) ∧
      (t.writeItems k i bytes.length).diag = t.diag ∧
      (t.writeItems k i bytes.length).draws = t.draws.drop (((s.items.drop i).take k).map itemCalls).sum ∧
      (t.writeItems k i bytes.length).drawCount = t.drawCount + (((s.items.drop i).take k).map itemCalls).sum := by
  induction k generalizing t i c bytes with
  | zero => simpa [State.writeItems] using h
  | succ k ih =>
    have hi : i < s.items.length := by omega
    have hit : t.item i = s.item i := item_stampTo hi (congrArg State.items hw)
    have hc : t.cfg = s.cfg := by rw [hw]
    have hcons := take_drop_succ (k := k) hi
    rw [show s.items.getD i Item.reset = s.item i from rfl] at hcons
    rw [hcons] at hok ⊢
    simp only [List.map_cons, List.sum_cons] at hok
    have h1 := writeItem_ok (i := i) h (by rw [hit]; exact callsSucceed_le hok (Nat.le_add_right _ _))
    rw [hit, hc, show (if 0 < (s.item i).len.toNat then 2 else 1) = itemCalls (s.item i) from rfl] at h1
    obtain ⟨a1, a2, a3, a4⟩ := h1
    have h2 := ih a1 (hw.writeItem hi _) (by omega) (callsSucceed_drop hok a3)
    rw [List.length_append, length_itemImage] at h2
    obtain ⟨b1, b2, b3, b4⟩ := h2
    simp only [State.writeItems, hit, List.map_cons, List.sum_cons, List.flatMap_cons]
    refine ⟨by rw [← List.append_assoc]; exact b1, b2.trans a2, ?_, ?_⟩
    · rw [b3, a3, List.drop_drop]
    · rw [b4, a4, Nat.add_assoc]

end Sys2Proof.Machine
end

