-- ==== Sys2Proof/Laws/Read.lean ====
section
/-! SUPPORT. CFG_READ as a loop: how it ends, whatever ENV draws, and what it takes from an image when no call fails. -/

namespace Sys2Proof.Machine

/-- `t` has the slots, the flash and the results of `s`, and whatever is outside the store. -/
structure SameStore (s t : State) : Prop where
  outside : SameOutsideStore s t
  flash   : t.flash = s.flash
  items   : t.items = s.items
  wrErr   : t.wrErr = s.wrErr
  rdEmpty : t.rdEmpty = s.rdEmpty

theorem SameStore.refl (s : State) : SameStore s s := ⟨SameOutsideStore.refl s, rfl, rfl, rfl, rfl⟩

/-- A flash read leaves the store alone. -/
theorem sameStore_flashReadDone (s : State) : SameStore s s.flashReadDone := by
  refine ⟨s.flashReadDone_outside, ?_, ?_, ?_, ?_⟩ <;> rw [s.flashReadDone_eq]

theorem SameStore.trans {s t u : State} (h : SameStore s t) (k : SameStore t u) : SameStore s u :=
  ⟨h.outside.trans k.outside, k.flash.trans h.flash, k.items.trans h.items, k.wrErr.trans h.wrErr,
    k.rdEmpty.trans h.rdEmpty⟩

/-- Another job leaves the store alone. -/
theorem sameStore_job (s : State) (j : Option Job) : SameStore s { s with job := j } :=
  ⟨⟨rfl, rfl, rfl, rfl, rfl, rfl, rfl, rfl, rfl, rfl⟩, rfl, rfl, rfl, rfl⟩

/-- `t` is `s` after `k` flash calls, as far as ENV's draws and `DIAG` go (20_memory.md R86). -/
structure Drew (s t : State) (k : Nat) : Prop where
  diag      : t.diag = s.diag ||| s.ioBits k
  draws     : t.draws = s.draws.drop k
  drawCount : t.drawCount = s.drawCount + k

theorem Drew.of_eq {s t : State} (h1 : t.diag = s.diag) (h2 : t.draws = s.draws) (h3 : t.drawCount = s.drawCount) :
    Drew s t 0 := ⟨by simp [h1], by simp [h2], h3⟩

theorem Drew.trans {s t u : State} {j k : Nat} (h : Drew s t j) (g : Drew t u k) : Drew s u (j + k) :=
  ⟨by rw [g.diag, h.diag, State.ioBits_add h.draws h.drawCount, BitVec.or_assoc],
    by rw [g.draws, h.draws, List.drop_drop], by rw [g.drawCount, h.drawCount, Nat.add_assoc]⟩

/-- A flash read is one call, whichever job makes it. -/
theorem drew_flashReadDone (s : State) (j : Option Job) : Drew s ({ s with job := j } : State).flashReadDone 1 := by
  rw [State.flashReadDone_eq]
  exact ⟨rfl, rfl, rfl⟩

/-- `u` is `s` at the end of a read, after at most `n` flash calls: `DIAG` has what they add and at most one of
`CKSUM_FAIL`, `LEN_MISMATCH` and `BOUNDS` besides (42_config_store.md R212, R213, R215). -/
def ReadCalls (s u : State) (n : Nat) : Prop :=
  ∃ (k : Nat) (ended : Byte), k ≤ n ∧ ended ∈ ([0x00, 0x08, 0x10, 0x20] : List Byte) ∧
    u.diag = s.diag ||| s.ioBits k ||| ended ∧ u.draws = s.draws.drop k ∧
    u.drawCount = s.drawCount + k + (if ended = 0x08 then 1 else 0)

/-- Some calls and then the rest of a read. -/
theorem ReadCalls.of_drew {s t u : State} {j n m : Nat} (h : Drew s t j) (g : ReadCalls t u n) (hm : j + n ≤ m) :
    ReadCalls s u m := by
  obtain ⟨k, e, hk, he, h1, h2, h3⟩ := g
  refine ⟨j + k, e, by omega, he, ?_, ?_, ?_⟩
  · rw [h1, h.diag, State.ioBits_add h.draws h.drawCount, ← BitVec.or_assoc]
  · rw [h2, h.draws, List.drop_drop]
  · rw [h3, h.drawCount, Nat.add_assoc s.drawCount j k]

/-- A read that ends without a further call. -/
theorem readCalls_end {s u : State} {e : Byte} (he : e ∈ ([0x00, 0x08, 0x10, 0x20] : List Byte))
    (h1 : u.diag = s.diag ||| e) (h2 : u.draws = s.draws)
    (h3 : u.drawCount = s.drawCount + (if e = 0x08 then 1 else 0)) (n : Nat) : ReadCalls s u n :=
  ⟨0, e, Nat.zero_le n, he, by simp [h1], by simp [h2], h3⟩

/-- `u` is what CFG_READ leaves of `s` when its loop goes on at slot `i` under the limit `lim`: `RD_COUNT` slots are
allocated, those below `i` and from `lim` on are untouched, and at most `n` more flash calls are made
(42_config_store.md R211 to R216). -/
structure ReadEnd (s u : State) (i lim n : Nat) : Prop where
  outside : SameOutsideStore s u
  flash   : u.flash = s.flash
  wrErr   : u.wrErr = s.wrErr
  rdEmpty : u.rdEmpty = s.rdEmpty
  job     : u.job = none
  length  : u.items.length = s.items.length
  from_le : i ≤ u.rdCount.toNat
  le_lim  : u.rdCount.toNat ≤ lim
  below   : ∀ k, k < i → u.item k = s.item k
  alloc   : ∀ k, i ≤ k → k < lim → (u.item k).alloc = decide (k < u.rdCount.toNat)
  above   : ∀ k, lim ≤ k → u.item k = s.item k
  calls   : ReadCalls s u n

/-- What CFG_READ does before its next item changes nothing of how it ends. -/
theorem ReadEnd.of_sameStore {s t u : State} {i lim j n m : Nat} (h : SameStore s t) (hd : Drew s t j)
    (k : ReadEnd t u i lim n) (hm : j + n ≤ m) : ReadEnd s u i lim m := by
  have hi : ∀ j, t.item j = s.item j := fun j => by simp only [State.item, h.items]
  exact ⟨h.outside.trans k.outside, k.flash.trans h.flash, k.wrErr.trans h.wrErr, k.rdEmpty.trans h.rdEmpty, k.job,
    k.length.trans (by rw [h.items]), k.from_le, k.le_lim, fun j hj => (k.below j hj).trans (hi j), k.alloc,
    fun j hj => (k.above j hj).trans (hi j), k.calls.of_drew hd hm⟩

/-- The read ends before slot `i`. -/
theorem readEnd_finish {s t : State} {i lim n : Nat} (h : SameStore s t) (hi : i ≤ lim) (hl : lim ≤ 255)
    (hn : lim ≤ s.items.length) (hf : slotsFree s i lim = true) (hc : ReadCalls s (t.finishRead i) n) :
    ReadEnd s (t.finishRead i) i lim n := by
  have hcalls := hc
  clear hc
  have hc : (t.finishRead i).rdCount.toNat = i := by simp [State.finishRead]; omega
  have hit : ∀ j, (t.finishRead i).item j = s.item j := fun j => by
    show t.items.getD j Item.reset = _
    rw [h.items]
    rfl
  refine ⟨h.outside.trans ⟨rfl, rfl, rfl, rfl, rfl, rfl, rfl, rfl, rfl, rfl⟩, h.flash, h.wrErr, h.rdEmpty, rfl,
    by show t.items.length = _; rw [h.items], by omega, by omega, fun j _ => hit j, fun j h1 h2 => ?_,
    fun j _ => hit j, hcalls⟩
  rw [hit j, hc, (slotsFree_iff.mp hf) j h1 h2 (by omega)]
  simp [show ¬ j < i by omega]

theorem sameStore_raiseDiag (s : State) (b : DiagBit) : SameStore s (s.raiseDiag b) :=
  ⟨⟨rfl, rfl, rfl, rfl, rfl, rfl, rfl, rfl, rfl, rfl⟩, rfl, rfl, rfl, rfl⟩

/-- Slot `i` is discarded and the read ends (R213). -/
theorem readEnd_discard {s : State} {i lim : Nat} (id : Byte) (ck : BitVec 16) (hi : i < lim) (hl : lim ≤ 255)
    (hn : lim ≤ s.items.length) (hf : slotsFree s i lim = true) (n : Nat) :
    ReadEnd s ((s.discardItem i id ck).finishRead i) i lim n := by
  have hc : ((s.discardItem i id ck).finishRead i).rdCount.toNat = i := by simp [State.finishRead]; omega
  have hit : ∀ j, ((s.discardItem i id ck).finishRead i).item j =
      if j = i then { alloc := false, id := id, len := 0, cksum := ck, data := s.freeData } else s.item j := by
    intro j
    show (s.items.set i _).getD j Item.reset = _
    by_cases hj : j = i
    · subst hj
      simp [List.getD_eq_getElem?_getD, show j < s.items.length by omega]
    · simp [List.getD_eq_getElem?_getD, hj, State.item, show ¬ i = j from fun h => hj h.symm]
  refine ⟨⟨rfl, rfl, rfl, rfl, rfl, rfl, rfl, rfl, rfl, rfl⟩, rfl, rfl, rfl, rfl, by simp, by omega, by omega,
    fun j hj => ?_, fun j h1 h2 => ?_, fun j hj => ?_,
    readCalls_end (e := 0x08) (by decide) (by rfl) (by rfl) (by rfl) n⟩
  · rw [hit, if_neg (by omega)]
  · rw [hit, hc]
    by_cases hj : j = i
    · subst hj; simp
    · rw [if_neg hj, (slotsFree_iff.mp hf) j h1 h2 (by omega)]
      simp [show ¬ j < i by omega]
  · rw [hit, if_neg (by omega)]

/-- A slot filled, then the rest of the read. -/
theorem ReadEnd.of_fill {s u : State} {i lim n : Nat} {id len : Byte} {ck : BitVec 16} {blob : List Byte} (hi : i < lim)
    (hn : lim ≤ s.items.length) (h : ReadEnd (s.fillItem i id len ck blob) u (i + 1) lim n) :
    ReadEnd s u i lim n := by
  have hit : ∀ j, j ≠ i → (s.fillItem i id len ck blob).item j = s.item j := by
    intro j hj
    simp [State.fillItem, State.putItem, State.item, List.getD_eq_getElem?_getD, show ¬ i = j from fun h => hj h.symm]
  have hit2 : ((s.fillItem i id len ck blob).item i).alloc = true := by
    simp [State.fillItem, State.putItem, State.item, List.getD_eq_getElem?_getD, show i < s.items.length by omega]
  have hfrom := h.from_le
  refine ⟨(s.fillItem_outside i id len ck blob).trans h.outside, h.flash, h.wrErr, h.rdEmpty, h.job,
    h.length.trans (by simp), by omega, h.le_lim, fun j hj => ?_, fun j h1 h2 => ?_, fun j hj => ?_,
    h.calls.of_drew (Drew.of_eq rfl rfl rfl) (by omega)⟩
  · rw [h.below j (by omega), hit j (by omega)]
  · by_cases hj : j = i
    · subst hj
      rw [h.below j (by omega), hit2]
      simp; omega
    · exact h.alloc j (by omega) h2
  · rw [h.above j hj, hit j (by omega)]

theorem slotsFree_fillItem {s : State} {i lim : Nat} (id len : Byte) (ck : BitVec 16) (blob : List Byte)
    (hf : slotsFree s i lim = true) : slotsFree (s.fillItem i id len ck blob) (i + 1) lim = true := by
  refine slotsFree_of_eq hf (Nat.le_succ i) (by simp) fun j hj => ?_
  simp [State.fillItem, State.putItem, State.item, List.getD_eq_getElem?_getD, show ¬ i = j by omega]

/-- Going on with a read forgets which job there was. -/
theorem State.flashReadDone_job (s : State) (j : Option Job) :
    ({ s with job := j } : State).flashReadDone = { s.flashReadDone with job := j } := by
  unfold State.flashReadDone
  rw [show ({ s with job := j } : State).callOk = s.callOk from rfl]
  split <;> rfl

/-- The rest of a read, from the head of its loop (R211). -/
theorem readEnd_nextRead {s : State} {lim i off k fuel : Nat} {m : Int} (hk : i + k = lim) (hfuel : 2 * k ≤ fuel)
    (hl : lim ≤ 255) (hn : lim ≤ s.items.length) (hf : slotsFree s i lim = true) :
    ReadEnd s ((s.nextRead lim i off m).drain fuel) i lim (2 * k) := by
  induction k generalizing s i off m fuel with
  | zero =>
    have hlt : ¬ (0 < m ∧ i < lim) := by omega
    have : (s.nextRead lim i off m).job = none := by
      simp only [State.nextRead, hlt, if_false, closeRead_job]
    rw [State.drain_none this]
    simp only [State.nextRead, hlt, if_false, State.closeRead]
    split
    · exact readEnd_finish (sameStore_raiseDiag s _) (by omega) hl hn hf
        (readCalls_end (e := 0x10) (by decide) (by rfl) (by rfl) (by rfl) _)
    · exact readEnd_finish (SameStore.refl s) (by omega) hl hn hf
        (readCalls_end (e := 0) (by decide) (by simp [State.finishRead]) (by rfl) (by rfl) _)
  | succ k ih =>
    -- what the checksum test leads to
    have hver : ∀ (t : State) (j f off' : Nat) (m' : Int) (id len : Byte) (ck : BitVec 16) (data : List Byte),
        SameStore s t → Drew s t j → j ≤ 2 → 2 * k ≤ f →
        ReadEnd s ((t.verifyItem lim i off' m' id len ck data).drain f) i lim (2 * (k + 1)) := by
      intro t j f off' m' id len ck data hst hd hj hfk
      have hn' : lim ≤ t.items.length := by rw [hst.items]; exact hn
      have hf' : slotsFree t i lim = true := by unfold slotsFree at *; rw [hst.items]; exact hf
      refine ReadEnd.of_sameStore (n := 2 * k) hst hd ?_ (by omega)
      unfold State.verifyItem
      simp only
      split
      · exact ReadEnd.of_fill (by omega) hn' (ih (by omega) hfk (by simpa using hn')
          (slotsFree_fillItem _ _ _ _ hf'))
      · rw [State.drain_none rfl]
        exact readEnd_discard id ck (by omega) hl hn' hf' _
    by_cases hlt : 0 < m ∧ i < lim
    · by_cases hb : s.cfg.sectorSize < off + 4
      · have : s.nextRead lim i off m = (s.raiseDiag .bounds).finishRead i := by
          simp only [State.nextRead, hlt, hb, and_self, if_true]
        rw [this, State.drain_none rfl]
        exact readEnd_finish (sameStore_raiseDiag s _) (by omega) hl hn hf
          (readCalls_end (e := 0x20) (by decide) (by rfl) (by rfl) (by rfl) _)
      · have h0 : s.nextRead lim i off m = { s with job := some (.readHeader lim i off m) } := by
          simp only [State.nextRead, hlt, hb, and_self, if_true, if_false]
        obtain ⟨f, rfl⟩ : ∃ f, fuel = f + 2 := ⟨fuel - 2, by omega⟩
        rw [h0, show f + 2 = (f + 1) + 1 from rfl, State.drain_succ rfl]
        simp only [State.microStep, State.afterHeader]
        generalize hd : State.flashReadBytes _ _ _ = d
        have hst : SameStore s (({ s with job := some (.readHeader lim i off m) } : State).flashReadDone) := by
          exact (sameStore_job s _).trans (sameStore_flashReadDone _)
        have hd1 : Drew s (({ s with job := some (.readHeader lim i off m) } : State).flashReadDone) 1 :=
          drew_flashReadDone s _
        generalize hu : ({ s with job := some (.readHeader lim i off m) } : State).flashReadDone = u at *
        split
        · rw [State.drain_none rfl]
          exact readEnd_finish (hst.trans (sameStore_raiseDiag u .bounds)) (by omega) hl hn hf
            ((readCalls_end (e := 0x20) (by decide) (by rfl) (by rfl) (by rfl) 0).of_drew hd1 (by omega))
        · split
          · rw [State.drain_succ rfl]
            simp only [State.microStep]
            generalize State.flashReadBytes _ _ _ = d2
            exact hver _ 2 f _ _ _ _ _ _ (hst.trans ((sameStore_job u _).trans (sameStore_flashReadDone _)))
              (hd1.trans (drew_flashReadDone u _)) (Nat.le_refl 2) (by omega)
          · exact hver u 1 (f + 1) _ _ _ _ _ _ hst hd1 (by omega) (by omega)
    · have : (s.nextRead lim i off m).job = none := by
        simp only [State.nextRead, hlt, if_false, closeRead_job]
      rw [State.drain_none this]
      simp only [State.nextRead, hlt, if_false, State.closeRead]
      split
      · exact readEnd_finish (sameStore_raiseDiag s _) (by omega) hl hn hf
          (readCalls_end (e := 0x10) (by decide) (by rfl) (by rfl) (by rfl) _)
      · exact readEnd_finish (SameStore.refl s) (by omega) hl hn hf
          (readCalls_end (e := 0) (by decide) (by simp [State.finishRead]) (by rfl) (by rfl) _)

/-! ## An image read back -/

/-- Reading some bytes in two parts. -/
theorem Memory.readBytes_append (m : Memory) (off a b : Nat) :
    m.readBytes off (a + b) = m.readBytes off a ++ m.readBytes (off + a) b := by
  simp only [Memory.readBytes, List.range_add, List.map_append, List.map_map, Function.comp_def, Nat.add_assoc]

/-- Going on with a read forgets which job there was. -/
theorem State.nextRead_job (s : State) (j : Option Job) (lim i off : Nat) (m : Int) :
    ({ s with job := j } : State).nextRead lim i off m = s.nextRead lim i off m := by
  unfold State.nextRead State.closeRead
  split
  · split <;> rfl
  · split <;> rfl

/-- Slot `i` filled with an item of an image, its flash calls made. -/
def State.tookItem (s : State) (i : Nat) (it : Item) : State :=
  { s.fillItem i it.id (it.len.setWidth 8) (checksum s.cfg.cksum it.blob) it.blob with
    draws := s.draws.drop (itemCalls it), drawCount := s.drawCount + itemCalls it }

/-- The fields of a data header. -/
theorem dataHeader_fields (it : Item) (ck : BitVec 16) :
    (dataHeader it ck).getD 0 0 = it.id ∧ (dataHeader it ck).getD 1 0 = it.len.setWidth 8 ∧
      halfOf ((dataHeader it ck).getD 2 0) ((dataHeader it ck).getD 3 0) = ck := by
  refine ⟨rfl, rfl, ?_⟩
  simp only [dataHeader, halfBytes, halfOf, List.cons_append, List.nil_append, List.getD_cons_succ, List.getD_cons_zero]
  refine BitVec.eq_of_getLsbD_eq fun k hk => ?_
  simp only [BitVec.getLsbD_append, BitVec.getLsbD_extractLsb']
  by_cases h : k < 8
  · simp [h]
  · simp [h, show k - 8 < 8 by omega, show 8 + (k - 8) = k by omega]

theorem take_paddedBlob (it : Item) : (paddedBlob it).take it.len.toNat = it.blob := by
  rw [paddedBlob, List.take_append_of_le_length (by simp)]
  exact List.take_of_length_le (by simp)

/-- One item of an image read, with every call succeeding (R211, R214). -/
theorem drain_readItem {s : State} {lim i off k : Nat} {m : Int} {it : Item} (hm : 0 < m) (hi : i < lim)
    (hlen : it.len.toNat ≤ 255) (hb : off + itemSize it.len.toNat ≤ s.cfg.sectorSize)
    (hread : s.flash.readBytes off (itemSize it.len.toNat) = itemImage s.cfg it)
    (hok : callsSucceed s (itemCalls it) = true) :
    (s.nextRead lim i off m).drain (k + 2) =
      ((s.tookItem i it).nextRead lim (i + 1) (off + itemSize it.len.toNat) (m - (itemSize it.len.toNat : Nat))).drain
        (if 0 < alignUp it.len.toNat then k else k + 1) := by
  have hl8 : ((it.len.setWidth 8 : Byte)).toNat = it.len.toNat := by
    simp only [BitVec.toNat_setWidth]
    omega
  have hsplit : s.flash.readBytes off 4 = dataHeader it (checksum s.cfg.cksum it.blob) ∧
      s.flash.readBytes (off + 4) (alignUp it.len.toNat) = paddedBlob it := by
    rw [itemImage_eq, show itemSize it.len.toNat = 4 + alignUp it.len.toNat from rfl, Memory.readBytes_append] at hread
    exact List.append_inj hread (by simp)
  have hok1 : s.callOk = true := by
    unfold itemCalls at hok
    split at hok
    · exact State.callOk_of_callsSucceed (k := 1) hok
    · exact State.callOk_of_callsSucceed (k := 0) hok
  have h4 : ¬ s.cfg.sectorSize < off + 4 := by unfold itemSize at hb; omega
  have h5 : ¬ s.cfg.sectorSize < off + itemSize it.len.toNat := by omega
  have h0 : s.nextRead lim i off m = { s with job := some (.readHeader lim i off m) } := by
    simp only [State.nextRead, hm, hi, h4, and_self, if_true, if_false]
  obtain ⟨f1, f2, f3⟩ := dataHeader_fields it (checksum s.cfg.cksum it.blob)
  have hdone : ({ s with job := some (.readHeader lim i off m) } : State).flashReadDone =
      { s.drawn with job := some (.readHeader lim i off m) } := by
    rw [State.flashReadDone_job, State.flashReadDone_of_ok hok1]
  have hbytes : ({ s with job := some (.readHeader lim i off m) } : State).flashReadBytes off 4 =
      dataHeader it (checksum s.cfg.cksum it.blob) := by
    rw [State.flashReadBytes_of_ok (s := { s with job := some (.readHeader lim i off m) }) hok1]
    exact hsplit.1
  rw [h0, show k + 2 = (k + 1) + 1 from rfl, State.drain_succ rfl]
  simp only [State.microStep, hdone, hbytes, State.afterHeader, f1, f2, f3, hl8]
  rw [if_neg (show ¬ s.drawn.cfg.sectorSize < off + itemSize it.len.toNat from h5)]
  by_cases hpos : 0 < it.len.toNat
  · have hap : 0 < alignUp it.len.toNat := alignUp_pos.mpr hpos
    simp only [hap, if_true]
    have hcalls : itemCalls it = 2 := by simp [itemCalls, hpos]
    have hok2 : s.drawn.callOk = true := by
      rw [hcalls] at hok
      exact State.callOk_of_callsSucceed (k := 0) (callsSucceed_tail (k := 1) hok rfl)
    rw [State.drain_succ rfl]
    congr 1
    have hdone2 : ({ s.drawn with job := some (.readData lim i off m it.id (it.len.setWidth 8)
        (checksum s.cfg.cksum it.blob)) } : State).flashReadDone = { s.drawn.drawn with
          job := some (.readData lim i off m it.id (it.len.setWidth 8) (checksum s.cfg.cksum it.blob)) } := by
      rw [State.flashReadDone_job, State.flashReadDone_of_ok hok2]
    have hbytes2 : ({ s.drawn with job := some (.readData lim i off m it.id (it.len.setWidth 8)
        (checksum s.cfg.cksum it.blob)) } : State).flashReadBytes (off + 4) (alignUp it.len.toNat) =
          paddedBlob it := by
      rw [State.flashReadBytes_of_ok (s := { s.drawn with job := some (.readData lim i off m it.id
        (it.len.setWidth 8) (checksum s.cfg.cksum it.blob)) }) hok2]
      exact hsplit.2
    simp only [State.microStep, hl8, hdone2, hbytes2, State.verifyItem, take_paddedBlob]
    rw [if_pos (show checksum s.drawn.drawn.cfg.cksum it.blob = checksum s.cfg.cksum it.blob from rfl)]
    have hfill : ({ s.drawn.drawn with job := some (.readData lim i off m it.id (it.len.setWidth 8)
        (checksum s.cfg.cksum it.blob)) } : State).fillItem i it.id (it.len.setWidth 8) (checksum s.cfg.cksum it.blob)
          it.blob = { s.tookItem i it with job := some (.readData lim i off m it.id (it.len.setWidth 8)
        (checksum s.cfg.cksum it.blob)) } := by
      simp only [State.tookItem, hcalls, State.fillItem, State.putItem, State.drawn, ← List.drop_one, List.drop_drop]
      rfl
    rw [hfill, State.nextRead_job]
  · have hz : it.len.toNat = 0 := by omega
    have hap : ¬ 0 < alignUp it.len.toNat := by rw [hz]; decide
    simp only [hap, if_false]
    have hcalls : itemCalls it = 1 := by simp [itemCalls, hpos]
    have hblob : it.blob = [] := List.eq_nil_of_length_eq_zero (by rw [length_blob, hz])
    congr 1
    simp only [State.verifyItem, hl8, List.take_nil, hblob]
    rw [if_pos (show checksum s.drawn.cfg.cksum [] = checksum s.cfg.cksum [] from rfl)]
    have hfill : ({ s.drawn with job := some (.readHeader lim i off m) } : State).fillItem i it.id (it.len.setWidth 8)
        (checksum s.cfg.cksum []) [] = { s.tookItem i it with job := some (.readHeader lim i off m) } := by
      simp only [State.tookItem, hcalls, hblob, State.fillItem, State.putItem, State.drawn, ← List.drop_one]
      rfl
    rw [hfill, State.nextRead_job]

end Sys2Proof.Machine
end

