-- ==== Sys2Proof/Laws/Schedule.lean ====
section
/-! SUPPORT. What a step can do at all, and that the flash micro-steps neither read nor write what belongs to the other
agents. -/

namespace Sys2Proof.Machine

/-! ## The micro-steps and the other agents -/

/-- What the other agents own, replaced: the waveform generator, the schedule and the host's read value. -/
def State.withOthers (s : State) (g : Generator) (r : List Event) (v : Word) : State :=
  { s with gen := g, sched := r, rdata := v }

@[simp] theorem State.withOthers_self (s : State) : s.withOthers s.gen s.sched s.rdata = s := rfl

theorem State.flashErase_withOthers (s : State) (g : Generator) (r : List Event) (v : Word) :
    (s.withOthers g r v).flashErase = s.flashErase.withOthers g r v := by
  unfold State.flashErase
  rw [show (s.withOthers g r v).callOk = s.callOk from rfl]
  split <;> rfl

theorem State.flashWrite_withOthers (s : State) (g : Generator) (r : List Event) (v : Word) (off : Nat)
    (bs : List Byte) : (s.withOthers g r v).flashWrite off bs = (s.flashWrite off bs).withOthers g r v := by
  unfold State.flashWrite
  rw [show (s.withOthers g r v).callOk = s.callOk from rfl]
  split <;> rfl

theorem State.flashReadDone_withOthers (s : State) (g : Generator) (r : List Event) (v : Word) :
    (s.withOthers g r v).flashReadDone = s.flashReadDone.withOthers g r v := by
  unfold State.flashReadDone
  rw [show (s.withOthers g r v).callOk = s.callOk from rfl]
  split <;> rfl

theorem State.nextWrite_withOthers (s : State) (g : Generator) (r : List Event) (v : Word) (n i off : Nat) :
    (s.withOthers g r v).nextWrite n i off = (s.nextWrite n i off).withOthers g r v := by
  unfold State.nextWrite
  split <;> rfl

theorem State.closeRead_withOthers (s : State) (g : Generator) (r : List Event) (v : Word) (i : Nat) (m : Int) :
    (s.withOthers g r v).closeRead i m = (s.closeRead i m).withOthers g r v := by
  unfold State.closeRead
  split <;> rfl

theorem State.nextRead_withOthers (s : State) (g : Generator) (r : List Event) (v : Word) (lim i off : Nat) (m : Int) :
    (s.withOthers g r v).nextRead lim i off m = (s.nextRead lim i off m).withOthers g r v := by
  unfold State.nextRead
  rw [show (s.withOthers g r v).cfg = s.cfg from rfl]
  split
  · split <;> rfl
  · exact s.closeRead_withOthers g r v i m

theorem State.verifyItem_withOthers (s : State) (g : Generator) (r : List Event) (v : Word) (lim i off : Nat) (m : Int)
    (id len : Byte) (ck : BitVec 16) (data : List Byte) :
    (s.withOthers g r v).verifyItem lim i off m id len ck data =
      (s.verifyItem lim i off m id len ck data).withOthers g r v := by
  unfold State.verifyItem
  rw [show (s.withOthers g r v).cfg = s.cfg from rfl]
  simp only
  split
  · exact (s.fillItem i id len ck (data.take len.toNat)).nextRead_withOthers g r v _ _ _ _
  · rfl

theorem State.afterMain_withOthers (s : State) (g : Generator) (r : List Event) (v : Word) (lim : Nat)
    (h : List Byte) : (s.withOthers g r v).afterMain lim h = (s.afterMain lim h).withOthers g r v := by
  unfold State.afterMain
  split
  · exact State.nextRead_withOthers { s with rdEmpty := false } g r v _ _ _ _
  · rfl

theorem State.afterHeader_withOthers (s : State) (g : Generator) (r : List Event) (v : Word) (lim i off : Nat)
    (m : Int) (d : List Byte) :
    (s.withOthers g r v).afterHeader lim i off m d = (s.afterHeader lim i off m d).withOthers g r v := by
  unfold State.afterHeader
  rw [show (s.withOthers g r v).cfg = s.cfg from rfl]
  simp only
  split
  · rfl
  · split
    · rfl
    · exact State.verifyItem_withOthers s g r v _ _ _ _ _ _ _ _

/-- A micro-step neither reads nor writes what the other agents own (20_memory.md R93). -/
theorem State.microStep_withOthers (s : State) (g : Generator) (r : List Event) (v : Word) (j : Job) :
    (s.withOthers g r v).microStep j = (s.microStep j).withOthers g r v := by
  cases j with
  | writeErase n =>
    show ({ (s.withOthers g r v).flashErase with job := _ } : State) = _
    rw [s.flashErase_withOthers]
    rfl
  | writeMain n =>
    show ((s.withOthers g r v).flashWrite 0 (Job.program s (.writeMain n))).nextWrite n 0 4 = _
    rw [s.flashWrite_withOthers, State.nextWrite_withOthers]
    rfl
  | writeHeader n i off =>
    have h1 : (s.withOthers g r v).latchChecksum i = (s.latchChecksum i).withOthers g r v := rfl
    have h2 : (s.withOthers g r v).item i = s.item i := rfl
    have h3 : Job.program (s.withOthers g r v) (.writeHeader n i off) = Job.program s (.writeHeader n i off) := rfl
    simp only [State.microStep, h1, h2, h3, State.flashWrite_withOthers]
    split
    · rfl
    · exact State.nextWrite_withOthers _ _ _ _ _ _ _
  | writeData n i off =>
    show ((s.withOthers g r v).flashWrite (off + 4) (Job.program s (.writeData n i off))).nextWrite n (i + 1)
      (off + itemSize (s.item i).len.toNat) = _
    rw [s.flashWrite_withOthers, State.nextWrite_withOthers]
    rfl
  | readMain lim =>
    show (s.withOthers g r v).flashReadDone.afterMain lim (s.flashReadBytes 0 4) = _
    rw [s.flashReadDone_withOthers, State.afterMain_withOthers]
    rfl
  | readHeader lim i off m =>
    show (s.withOthers g r v).flashReadDone.afterHeader lim i off m (s.flashReadBytes off 4) = _
    rw [s.flashReadDone_withOthers, State.afterHeader_withOthers]
    rfl
  | readData lim i off m id len ck =>
    show (s.withOthers g r v).flashReadDone.verifyItem lim i off m id len ck
      (s.flashReadBytes (off + 4) (alignUp len.toNat)) = _
    rw [s.flashReadDone_withOthers, State.verifyItem_withOthers]
    rfl

/-- A command run to its end neither reads nor writes what the other agents own. -/
theorem State.drain_withOthers (s : State) (g : Generator) (r : List Event) (v : Word) (k : Nat) :
    (s.withOthers g r v).drain k = (s.drain k).withOthers g r v := by
  induction k generalizing s with
  | zero => rfl
  | succ k ih =>
    cases h : s.job with
    | none => rw [State.drain_none h, State.drain_none (s := s.withOthers g r v) h]
    | some j =>
      rw [State.drain_succ h, State.drain_succ (s := s.withOthers g r v) h, s.microStep_withOthers, ih]

/-! ## Runs -/

theorem core_run_zero (s : State) : Sys2Proof.core.run 0 s = .next s := rfl

/-- A run takes its first step and goes on. -/
theorem core_run_succ {s t : State} (h : step s = .next t) (k : Nat) :
    Sys2Proof.core.run (k + 1) s = Sys2Proof.core.run k t := by
  have h1 : Sys2Proof.core.step s = .next t := h
  simp only [Host.Core.run, h1]

/-! ## What a step can do -/

/-- What one step of one agent does: a flash call of the command in flight, a host read, a command issued, another host
write, a firing of the timer, nothing, or a reset. `rest` is the schedule after it. -/
inductive StepCase (s : State) (t : State) : Prop where
  | call (j : Job) (rest : List Event) (hj : s.job = some j) (hok : j.targetOk s = true)
      (ht : t = { s.microStep j with sched := rest })
  | read (r : Reg) (addr : Nat) (rest : List Event) (hj : s.job = none) (hs : s.sched = .hostRead addr 32 :: rest)
      (hr : decodeAccess s.cfg addr 32 = .ok r) (ht : t = { s with rdata := s.readReg r, sched := rest })
  | command (v : Word) (span : Span) (rest : List Event) (hj : s.job = none)
      (hs : s.sched = .hostWrite (s.cfg.regBase + 0x010) 32 v span :: rest)
      (ht : { s with sched := rest }.writePort v span = .next t)
  | write (r : Reg) (addr : Nat) (v : Word) (span : Span) (rest : List Event) (hj : s.job = none)
      (hs : s.sched = .hostWrite addr 32 v span :: rest) (hr : decodeAccess s.cfg addr 32 = .ok r)
      (ht : t = { s with sched := rest }.writeReg r v)
  | timer (rest : List Event) (ht : t = { s with sched := rest }.timerFires)
  | idle (rest : List Event) (ht : t = { s with sched := rest })
  | reset (torn : Option Nat) (rest : List Event) (hs : s.sched = .reset torn :: rest)
      (ht : t = { s with sched := rest }.resetBlock torn)

/-- A flash call with another schedule. -/
theorem State.makeCall_sched {s t : State} {j : Job} {rest : List Event}
    (h : ({ s with sched := rest } : State).makeCall j = .next t) :
    j.targetOk s = true ∧ t = { s.microStep j with sched := rest } := by
  have h1 : j.targetOk ({ s with sched := rest } : State) = j.targetOk s := by cases j <;> rfl
  have h2 : ({ s with sched := rest } : State).microStep j = { s.microStep j with sched := rest } := by
    have h3 := s.microStep_withOthers s.gen rest s.rdata j
    have h4 := s.microStep_outside j
    rw [show s.withOthers s.gen rest s.rdata = { s with sched := rest } from rfl] at h3
    rw [h3]
    simp only [State.withOthers, ← h4.gen, ← h4.rdata]
  unfold State.makeCall at h
  rw [h1, h2] at h
  split at h
  · rename_i hok
    exact ⟨hok, by injection h with h; exact h.symm⟩
  · cases h

/-- What an accepted access is. -/
theorem decodeAccess_ok {c : Config} {addr width : Nat} {r : Reg} (h : decodeAccess c addr width = .ok r) :
    width = 32 ∧ c.regBase ≤ addr ∧ addr < c.regBase + registerSpace ∧ (addr - c.regBase) % 4 = 0 ∧
      r = regOfOffset (addr - c.regBase) := by
  unfold decodeAccess at h
  split at h
  · cases h
  · split at h
    · cases h
    · split at h
      · cases h
      · injection h with h
        exact ⟨by omega, by omega, by omega, by omega, h.symm⟩

theorem ite_ne {α : Type} {p : Prop} [Decidable p] {a b c : α} (ha : a ≠ c) (hb : b ≠ c) :
    (if p then a else b) ≠ c := by
  split <;> assumption

/-- Only one offset holds `CMD_OP`. -/
theorem regOfOffset_eq_cmdOp {off : Nat} : regOfOffset off = .cmdOp ↔ off = 0x010 := by
  constructor
  · intro h
    by_contra hne
    simp only [regOfOffset, hne, if_false] at h
    refine absurd h ?_
    repeat' first | (refine ite_ne ?_ ?_) | nofun
  · rintro rfl
    rfl

/-- Everything a step can do. -/
theorem step_cases {s t : State} (h : step s = .next t) : legalConfig s.cfg = true ∧ StepCase s t := by
  unfold step at h
  split at h
  · rename_i hl
    refine ⟨hl, ?_⟩
    unfold State.turn at h
    split at h
    · rename_i hs
      unfold State.idleTurn at h
      split at h
      · rename_i j hj
        obtain ⟨h1, h2⟩ := State.makeCall_sched (s := s) (rest := s.sched) h
        exact .call j s.sched hj h1 h2
      · injection h with h
        exact .timer s.sched h.symm
    · rename_i addr width rest hs
      unfold State.hostTurn at h
      split at h
      · rename_i j hj
        obtain ⟨h1, h2⟩ := State.makeCall_sched (s := s) (rest := s.sched) h
        exact .call j s.sched hj h1 h2
      · rename_i hj
        simp only [State.hostReads] at h
        split at h
        · rename_i r hr
          obtain ⟨rfl, -⟩ := decodeAccess_ok hr
          injection h with h
          exact .read r addr rest hj hs hr (by rw [← h]; cases r <;> rfl)
        · cases h
    · rename_i addr width v span rest hs
      unfold State.hostTurn at h
      split at h
      · rename_i j hj
        obtain ⟨h1, h2⟩ := State.makeCall_sched (s := s) (rest := s.sched) h
        exact .call j s.sched hj h1 h2
      · rename_i hj
        simp only [State.hostWrites] at h
        split at h
        · rename_i hr
          obtain ⟨rfl, h1, -, -, h2⟩ := decodeAccess_ok hr
          have h3 := regOfOffset_eq_cmdOp.mp h2.symm
          have h5 : addr = s.cfg.regBase + 0x010 := by
            have h1 : s.cfg.regBase ≤ addr := h1
            have h3 : addr - s.cfg.regBase = 0x010 := h3
            omega
          exact .command v span rest hj (by rw [hs, h5]) h
        · rename_i r hr hne
          obtain ⟨rfl, -⟩ := decodeAccess_ok hne
          injection h with h
          exact .write r addr v span rest hj hs hne h.symm
        · cases h
    · rename_i rest hs
      injection h with h
      exact .timer rest h.symm
    · rename_i rest hs
      split at h
      · rename_i j hj
        obtain ⟨h1, h2⟩ := State.makeCall_sched h
        exact .call j rest hj h1 h2
      · injection h with h
        exact .idle rest h.symm
    · rename_i torn rest hs
      injection h with h
      exact .reset torn rest hs h.symm
  · cases h

end Sys2Proof.Machine
end

