-- ==== Sys2Proof/Machine/Text.lean ====
section
/-! DEFINITION. The text grammar of 30_encoding.md R113 and R114: the command that one line of text stands for. The
parser is outside the block (00_scope.md R6), so no step calls it (log 17). -/

namespace Sys2Proof.Machine

/-- The value of a decimal digit. -/
def digitValue (c : Char) : Option Nat :=
  if 48 ≤ c.toNat ∧ c.toNat ≤ 57 then some (c.toNat - 48) else none

/-- The value of a non-empty string of decimal digits. -/
def decimalValue (cs : List Char) : Option Nat :=
  if cs = [] then none
  else cs.foldl (fun acc c => acc.bind fun n => (digitValue c).map fun d => 10 * n + d) (some 0)

/-- A decimal integer 0..4294967295 (R114). -/
def countText (cs : List Char) : Option Word :=
  (decimalValue cs).bind fun n => if n < 2 ^ 32 then some (BitVec.ofNat 32 n) else none

/-- A decimal integer with an optional leading `-` that fits `i32` (R114). -/
def integerText (cs : List Char) : Option Word :=
  match cs with
  | '-' :: rest =>
    (decimalValue rest).bind fun n => if n ≤ 2 ^ 31 then some (BitVec.ofInt 32 (-(n : Int))) else none
  | _ => (decimalValue cs).bind fun n => if n < 2 ^ 31 then some (BitVec.ofNat 32 n) else none

/-- A line cut at its first space: the keyword, and what follows the space if there is one. -/
def splitLine (line : List Char) : List Char × Option (List Char) :=
  match line.dropWhile (fun c => c != ' ') with
  | [] => (line, none)
  | _ :: rest => (line.takeWhile (fun c => c != ' '), some rest)

/-- The explicit "unrecognized" variant, issued as opcode 0x00 (R114). -/
def unrecognisedText : Instr := .unrecognised 0x00

/-- A keyword that stands alone (R114). -/
def bareCommand (k : List Char) : Instr :=
  if k = ['o', 'n'] then .on
  else if k = ['o', 'f', 'f'] then .off
  else if k = ['a', 'u', 't', 'o'] then .auto
  else if k = ['c', 'o', 'o', 'l'] then .cool
  else if k = ['h', 'e', 'a', 't'] then .heat
  else if k = ['m', 'o', 'v', 'e'] then .move
  else if k = ['e', 'n', 'c', 'o', 'd', 'e'] then .encode
  else if k = ['s', 'e', 'n', 'd'] then .send
  else if k = ['c', 'f', 'g', '_', 'f', 'r', 'e', 'e', '_', 'a', 'l', 'l'] then .cfgFreeAll
  else unrecognisedText

/-- A keyword followed by one space and an operand (R114). -/
def operandCommand (k a : List Char) : Instr :=
  if k = ['t', 'e', 'm', 'p'] then (integerText a).elim unrecognisedText .temp
  else if k = ['f', 'a', 'n', '_', 'l', 'e', 'v', 'e', 'l'] then (integerText a).elim unrecognisedText .fanLevel
  else if k = ['c', 'f', 'g', '_', 'w', 'r', 'i', 't', 'e'] then (countText a).elim unrecognisedText .cfgWrite
  else if k = ['c', 'f', 'g', '_', 'r', 'e', 'a', 'd'] then (countText a).elim unrecognisedText .cfgRead
  else if k = ['c', 'f', 'g', '_', 'f', 'r', 'e', 'e'] then (countText a).elim unrecognisedText .cfgFree
  else unrecognisedText

/-- The command of one line of text (R113, R114). -/
def textCommand (line : List Char) : Instr :=
  match splitLine line with
  | (k, none) => bareCommand k
  | (k, some a) => operandCommand k a

end Sys2Proof.Machine
end

