-- ==== Sys2Proof/Tests/Slice0.lean ====
section
/-! SUPPORT. Tests with expected results from the spec's vectors (V<n>, P<n>, S<n> of 95_test_vectors.md), the smoke test
of WellFormed, and a witness for the hypotheses of every statement that has some. -/

namespace Sys2Proof.Tests

set_option Elab.async false

open Sys2Proof.Machine

/-! ## Helpers -/

/-- One view of the next state, if there is one. -/
def view {α : Type} (o : Host.Outcome State Fault Refusal) (f : State → α) : Option α :=
  match o with
  | .next t => some (f t)
  | .fault _ => none
  | .refused _ => none

/-- The block after reset with a DeviceState, and ENV letting the next flash calls succeed. -/
def withDev (en : Bool) (m : Mode) (temp : Int) (f : FanLevel) : State :=
  { State.reset with dev := ⟨en, m, BitVec.ofInt 32 temp, f⟩, draws := List.replicate 20 true }

/-- The block after reset, ENV letting the next flash calls succeed. -/
def ready : State := withDev false .auto 24 .auto

/-- The block with some events to come. -/
def thenEvents (s : State) (es : List Event) : State := { s with sched := es }

/-- A host write of 32 bits. -/
def write (addr : Nat) (v : Word) : Event := .hostWrite addr 32 v .whole

/-- An unallocated slot with an identifier, a length and some bytes. -/
def slot (id : Byte) (len : BitVec 16) (bytes : List Byte) : Item :=
  { Item.reset with id := id, len := len, data := Memory.writeBytes [] 0 bytes }

/-- The item table of V43. -/
def v43Items : List Item :=
  [slot 1 5 [0x68, 0x65, 0x6C, 0x6C, 0x6F], slot 2 4 [0xDE, 0xAD, 0xBE, 0xEF]] ++ List.replicate 6 Item.reset

/-- The image of V43. -/
def v43Image : List Byte :=
  [0x55, 0xAA, 0x14, 0x00, 0x01, 0x05, 0x00, 0x00, 0x68, 0x65, 0x6C, 0x6C, 0x6F, 0xFF, 0xFF, 0xFF,
    0x02, 0x04, 0x00, 0x00, 0xDE, 0xAD, 0xBE, 0xEF]

/-- The block with some bytes in its flash. -/
def withFlash (bytes : List Byte) : State := { ready with flash := Memory.writeBytes [] 0 bytes }

/-- The block with the items of V43. -/
def withItems : State := { ready with items := v43Items }

/-- The block while the timer runs, at a place in the buffer. -/
def running (slot : BitVec 12) (sub : BitVec 16) (rep : BitVec 2) : State :=
  { ready with
    gen := { ready.gen with
      pb := List.replicate 256 true, pbLen := 171, curSlot := slot, curSub := sub, repeatCnt := rep, timerEn := true } }

/-- The block with a store command in flight. -/
def inFlight (s : State) (j : Job) : State := { s with job := some j }

/-! ## Well-formed terms and the command word -/

/-- The smoke test: an `unrecognised` command must not carry a defined opcode (R104). -/
theorem test_wf_refuses_defined_opcode : (Instr.unrecognised 0x01).wf = false ∧ (Instr.unrecognised 0x23).wf = false ∧
    (Instr.unrecognised 0x00).wf = true ∧ (Instr.unrecognised 0x24).wf = true := by decide

/-- Words written out from the encodings of spec/opcode_table.json, bit by bit. -/
theorem test_decode_on : decodeTableWord 40 0b0000000100000000000000000000000000000000 = some .on := by decide
theorem test_decode_off : decodeTableWord 40 0b0000001000000000000000000000000000000000 = some .off := by decide
theorem test_decode_auto : decodeTableWord 40 0b0000001100000000000000000000000000000000 = some .auto := by decide
theorem test_decode_cool : decodeTableWord 40 0b0000010000000000000000000000000000000000 = some .cool := by decide
theorem test_decode_heat : decodeTableWord 40 0b0000010100000000000000000000000000000000 = some .heat := by decide
theorem test_decode_temp :
    decodeTableWord 40 0b0000011011111111111111111111111111111011 = some (.temp 0xFFFFFFFB) := by decide
theorem test_decode_fan_level :
    decodeTableWord 40 0b0000011100000000000000000000000000000100 = some (.fanLevel 4) := by decide
theorem test_decode_move : decodeTableWord 40 0b0000100000010010001101000101011001111000 = some .move := by decide
theorem test_decode_encode : decodeTableWord 40 0b0001000000000000000000000000000000000000 = some .encode := by decide
theorem test_decode_send : decodeTableWord 40 0b0001000100000000000000000000000000000000 = some .send := by decide
theorem test_decode_cfg_write :
    decodeTableWord 40 0b0010000000000000000000000000000000000010 = some (.cfgWrite 2) := by decide
theorem test_decode_cfg_read :
    decodeTableWord 40 0b0010000111111111111111111111111111111111 = some (.cfgRead 0xFFFFFFFF) := by decide
theorem test_decode_cfg_free :
    decodeTableWord 40 0b0010001000000000000000000000000000000001 = some (.cfgFree 1) := by decide
theorem test_decode_cfg_free_all :
    decodeTableWord 40 0b0010001100000000000000000000000000000000 = some .cfgFreeAll := by decide
theorem test_decode_unrecognised :
    decodeTableWord 40 0b0000000000000000000000000000000000000000 = some (.unrecognised 0x00) := by decide

/-- R105: byte 0 is the opcode, then the operand, least significant byte first (V85, V93). -/
theorem test_decode_stream :
    decode [0x06, 0x13, 0x00, 0x00, 0x00, 0x08, 0x78, 0x56, 0x34, 0x12] =
      .ok (.temp 19, [0x08, 0x78, 0x56, 0x34, 0x12]) := by decide

/-- A stream that ends inside a record is no command (R100). -/
theorem test_decode_truncated : decode [0x06, 0x13, 0x00, 0x00] = .error .truncatedRecord := by decide

theorem test_encode_temp : encode (.temp 0x12345678) = [0x06, 0x78, 0x56, 0x34, 0x12] := by decide

/-! ## The text grammar (R113, R114) -/

theorem test_text_temp : textCommand ['t', 'e', 'm', 'p', ' ', '1', '9'] = .temp 19 := by decide
theorem test_text_negative : textCommand ['t', 'e', 'm', 'p', ' ', '-', '5'] = .temp 0xFFFFFFFB := by decide
theorem test_text_bare_fan : textCommand ['f', 'a', 'n'] = .unrecognised 0x00 := by decide

/-! ## ENCODE -/

/-- V1. -/
theorem test_encode_v1 : view (exec .encode (withDev true .cool 24 .auto)) (fun t => (t.packet, t.frame)) =
    some (⟨0xB2, 0xFB, 0x07⟩, ⟨0xB2, 0x4D, 0xFB, 0x04, 0x07, 0xF8⟩) := by decide
/-- V4, V6, V7, V8, V10. -/
theorem test_encode_corners :
    encodePacket Config.reference ⟨true, .auto, 30, .high⟩ = ⟨0xB2, 0xF3, 0x8D⟩ ∧
    encodePacket Config.reference ⟨true, .cool, 31, .medium⟩ = ⟨0xB2, 0xF5, 0x07⟩ ∧
    encodePacket Config.reference ⟨true, .fan, BitVec.ofInt 32 (-5), .off⟩ = ⟨0xB2, 0xF7, 0x47⟩ ∧
    encodePacket Config.reference ⟨true, .heat, 0x80000000, .high⟩ = ⟨0xB2, 0xF3, 0xC7⟩ ∧
    encodePacket Config.reference ⟨false, .heat, 99, .low⟩ = ⟨0xB2, 0xB7, 0x0E⟩ := by decide

/-! ## SEND and TICK -/

/-- V26: an interrupt-driven SEND. -/
theorem test_send_starts : view (exec .send (withDev true .cool 24 .auto))
    (fun t => (t.gen.pbLen, t.gen.curSlot, t.gen.repeatCnt, t.gen.timerEn, t.gen.pin, t.readReg .status)) =
    some (171, 0, 2, true, false, 1) := by decide +kernel
/-- V24: words 1 and 3 of the `PB` window. -/
theorem test_send_buffer : view (exec .send (withDev true .cool 24 .auto))
    (fun t => (t.readReg (.pbWord 1), t.readReg (.pbWord 3))) = some (0x14454545, 0x45555155) := by decide +kernel
/-- V30: a blocking SEND appends 199 intervals. -/
theorem test_send_blocking : view (exec .send { withDev true .cool 24 .auto with ctrlBlk := true })
    (fun t => (t.gen.out.length, t.gen.out.take 4, t.gen.out.getD 99 .abort, t.gen.timerEn)) =
    some (199, [.seg true 4400, .seg false 4400, .seg true 550, .seg false 1650], .seg false 5200, false) := by
  decide +kernel

/-- V27, tick 42: the slot advances in the step in which the sub-tick counter reaches 42. -/
theorem test_tick_slot_end : view (step (thenEvents (running 0 41 2) [.tick]))
    (fun t => (t.gen.curSlot, t.gen.curSub, t.gen.repeatCnt, t.gen.pin)) = some (1, 0, 2, false) := by decide +kernel
/-- V27, tick 14364: to IDLE, `CUR_SLOT` stays at `PB_LEN`. -/
theorem test_tick_last : view (step (thenEvents (running 170 41 1) [.tick]))
    (fun t => (t.gen.curSlot, t.gen.curSub, t.gen.repeatCnt, t.gen.timerEn)) = some (171, 0, 0, false) := by
  decide +kernel

/-! ## The vocabulary -/

/-- V80. -/
theorem test_on : view (exec .on ready) (fun t => (t.dev, t.packet, t.gen.timerEn)) =
    some (⟨true, .auto, 24, .auto⟩, ⟨0xB2, 0xFB, 0x87⟩, true) := by decide +kernel
/-- V29: OFF during an emission logs an abort. -/
theorem test_off : view (exec .off (running 2 16 2)) (fun t => (t.dev.en, t.packet.p2, t.gen.curSlot, t.gen.out)) =
    some (false, 0x0E, 0, [.abort]) := by decide +kernel
/-- V82. -/
theorem test_auto : view (exec .auto (withDev false .heat 24 .low)) (fun t => (t.dev.mode, t.dev.fan, t.packet.p1)) =
    some (.auto, .low, 0xB7) := by decide +kernel
/-- V83. -/
theorem test_cool : view (exec .cool (withDev true .auto 24 .auto)) (fun t => (t.dev.mode, t.packet.p2)) =
    some (.cool, 0x07) := by decide +kernel
/-- V84. -/
theorem test_heat : view (exec .heat (withDev true .auto 24 .auto)) (fun t => (t.dev.mode, t.packet.p2)) =
    some (.heat, 0xC7) := by decide +kernel
/-- V86: TEMP −5 is stored as it is and encodes 7. -/
theorem test_temp : view (exec (.temp 0xFFFFFFFB) (withDev true .auto 24 .auto))
    (fun t => (t.dev.temp, t.packet.p2, t.diag)) = some (0xFFFFFFFB, 0x87, 0) := by decide +kernel
/-- V89. -/
theorem test_fan_level : view (exec (.fanLevel 4) (withDev true .auto 24 .auto))
    (fun t => (t.dev.fan, t.packet.p1, t.diag)) = some (.off, 0xF7, 0) := by decide +kernel
/-- V91: the operand is signed, −1 is rejected. -/
theorem test_fan_level_rejected : view (exec (.fanLevel 0xFFFFFFFF) (withDev true .auto 24 .auto))
    (fun t => (t.dev.fan, t.packet.p0, t.diag, t.gen.timerEn)) = some (.auto, 0, 0x02, false) := by decide +kernel
/-- V92. -/
theorem test_move : view (exec .move ready) (fun t => (t.dev, t.packet.p0, t.diag, t.gen.timerEn)) =
    some (ready.dev, 0, 0, false) := by decide
/-- V94. -/
theorem test_unrecognised : view (exec (.unrecognised 0x00) ready) (fun t => (t.dev, t.diag, t.gen.timerEn)) =
    some (ready.dev, 0x01, false) := by decide

/-! ## The Configuration Store -/

/-- V43: the image, five writes and an erase. -/
theorem test_cfg_write : view (exec (.cfgWrite 2) withItems)
    (fun t => (t.flash.readBytes 0 26, t.wrErr, t.draws.length)) = some (v43Image ++ [0xFF, 0xFF], false, 14) := by
  decide +kernel
/-- V47: more items than slots. -/
theorem test_cfg_write_refused : view (exec (.cfgWrite 9) withItems)
    (fun t => (t.flash, t.wrErr, t.diag, t.draws.length)) = some ([], true, 0x40, 20) := by decide +kernel
/-- V50a: the round trip. -/
theorem test_cfg_read : view (exec (.cfgRead 8) (withFlash v43Image))
    (fun t => ((t.item 0).alloc, (t.item 0).blob, (t.item 1).id, (t.item 1).blob, t.rdCount, t.diag)) =
    some (true, [0x68, 0x65, 0x6C, 0x6C, 0x6F], 2, [0xDE, 0xAD, 0xBE, 0xEF], 2, 0) := by decide +kernel
/-- V62: a wrong declared length is a diagnostic, the items are kept. -/
theorem test_cfg_read_mismatch : view (exec (.cfgRead 8) (withFlash (v43Image.set 2 0x10)))
    (fun t => ((t.item 1).alloc, t.rdCount, t.diag)) = some (true, 2, 0x10) := by decide +kernel
/-- V68: CFG_FREE 1. -/
theorem test_cfg_free : view (exec (.cfgFree 1) { ready with
      items := v43Items.map (fun it => { it with alloc := true }) })
    (fun t => ((t.item 0).alloc, (t.item 0).id, (t.item 0).len, (t.item 1).alloc, (t.item 1).len)) =
    some (false, 1, 0, true, 4) := by decide +kernel
/-- V68: CFG_FREE_ALL keeps `ID`. -/
theorem test_cfg_free_all : view (exec .cfgFreeAll { ready with
      items := v43Items.map (fun it => { it with alloc := true }) })
    (fun t => ((t.item 1).alloc, (t.item 1).id, (t.item 1).len)) = some (false, 2, 0) := by decide +kernel

/-- V40, V41. -/
theorem test_layout : [0, 1, 4, 5, 253, 255].map alignUp = [0, 4, 4, 8, 256, 256] ∧
    [0, 1, 5, 255].map itemSize = [4, 8, 12, 260] := by decide

/-! ## The host, reset -/

/-- V98: `v[31:8]` is ignored, the operand is `CMD_ARG`. -/
theorem test_command_port : view (step (thenEvents { ready with cmdArg := 19 } [write 0x010 0xABCD0106]))
    (fun t => (t.dev.temp, t.cmdArg, t.readReg .cmdOp)) = some (19, 19, 0) := by decide +kernel
/-- V97. -/
theorem test_diag_write : view (step (thenEvents { ready with diag := 0x03 } [write 0x008 0x01])) (fun t => t.diag) =
    some 0x02 := by decide +kernel
/-- V99: `ITEM_LEN` keeps 16 bits. -/
theorem test_item_len : view (step (thenEvents ready [write 0x048 0x12345])) (fun t => (t.item 0).len) =
    some 0x2345 := by decide +kernel
/-- A byte access is refused (R24, U20). -/
theorem test_byte_access : step (thenEvents ready [.hostRead 0x008 8]) matches .refused .accessWidth := by
  decide +kernel
/-- V110: reset values. -/
theorem test_reset_values : [Reg.ctrl, .status, .diag, .cmdArg, .devEn, .devMode, .devTemp, .devFan, .packet].map
    State.reset.readReg = [0, 0, 0, 0, 0, 0, 24, 3, 0] := by decide +kernel
/-- V111: a reset during an emission. -/
theorem test_reset_event : view (step (thenEvents (running 2 16 2) [.reset none]))
    (fun t => (t.gen.timerEn, t.gen.curSlot, t.gen.pbLen, t.dev)) = some (false, 0, 0, State.reset.dev) := by
  decide +kernel
/-- The table's word is run by the next step (log 15). -/
theorem test_fetch_word : view (step (State.reset.withFetchWord 40 0x0600000013)) (fun t => (t.dev.temp, t.sched)) =
    some (19, []) := by decide +kernel

/-! ## Witnesses: the hypotheses of each statement can be met -/

/-- An outcome with a view is a next state. -/
theorem exists_next {o : Host.Outcome State Fault Refusal} (h : view o (fun _ => ()) = some ()) :
    ∃ t, o = .next t := by
  cases o with
  | next t => exact ⟨t, rfl⟩
  | fault r => cases h
  | refused r => cases h

/-- What most statements ask of a state: a legal configuration, no command in flight, and the events to come. -/
def idleWith (s : State) (es : List Event) : Bool := legalConfig s.cfg && s.job == none && s.sched == es

theorem test_witness_DecodeOfEncodeIsIdentity :
    (Instr.temp 19).wf = true ∧ (Instr.unrecognised 0xFF).wf = true ∧ Instr.cfgFreeAll.wf = true := by decide

theorem test_witness_StepRunsTheIssuedCommand :
    idleWith (thenEvents ready [write 0x010 0x11]) [.hostWrite (ready.cfg.regBase + 0x010) 32 0x11 .whole] = true := by
  decide +kernel

theorem test_witness_OperandThenOpcodeIssuesTheCommand :
    idleWith (thenEvents ready [write 0x00C 19, write 0x010 6])
      [.hostWrite (ready.cfg.regBase + 0x00C) 32 19 .whole,
        .hostWrite (ready.cfg.regBase + 0x010) 32 ((0x06 : Byte).setWidth 32) .whole] = true := by decide +kernel

/-- The first flash call of V43, with a host read waiting. -/
def waiting : State := thenEvents (inFlight withItems (.writeErase 2)) [.hostRead 0x008 32]

theorem test_witness_HostStallsWhileACommandRuns : legalConfig waiting.cfg = true ∧
    waiting.job = some (.writeErase 2) ∧ (Job.writeErase 2).targetOk waiting = true ∧ hostIsNext waiting = true := by
  decide +kernel

theorem test_witness_IllegalConfigurationIsRefused :
    legalConfig { Config.reference with nSub := 43 } = false ∧ legalConfig { Config.reference with pbCap := 218 } = false ∧
    legalConfig { Config.reference with pbCap := 219 } = true := by decide

/-- The last byte of the register space, the first address after it, and an access of 16 bits. -/
theorem test_witness_NarrowOrMisalignedAccessIsRefused :
    idleWith (thenEvents ready [.hostRead 0x3FF 32]) [.hostRead 0x3FF 32] = true ∧
    ready.cfg.regBase ≤ 0x3FF ∧ 0x3FF < ready.cfg.regBase + 0x400 ∧ (0x3FF - ready.cfg.regBase) % 4 ≠ 0 ∧
    idleWith (thenEvents ready [.hostRead 0x400 32]) [.hostRead 0x400 32] = true ∧ ready.cfg.regBase + 0x400 ≤ 0x400 ∧
    idleWith (thenEvents ready [.hostWrite 0 16 0 .whole]) [.hostWrite 0 16 0 .whole] = true := by
  decide +kernel

theorem test_witness_ReadsReturnTheRegisterAndChangeNothing :
    idleWith (thenEvents ready [.hostRead 0x3FC 32]) [.hostRead (ready.cfg.regBase + 0x3FC) 32] = true ∧
    0x3FC < 0x400 ∧ 0x3FC % 4 = 0 := by decide +kernel

/-- The last bit, the last slot of the table, and the first number that selects none. -/
theorem test_witness_RegisterReadValues : 31 < 32 ∧ (7 : Byte).toNat < ready.cfg.maxItems ∧
    ready.cfg.maxItems ≤ (8 : Byte).toNat := by decide

theorem test_witness_ReadOnlyAndReservedWritesAreIgnored :
    ∀ off ∈ [0x004, 0x014, 0x03C, 0x04C, 0x0FC, 0x200, 0x3FC],
      idleWith (thenEvents ready [write off 1]) [.hostWrite (ready.cfg.regBase + off) 32 1 .whole] = true ∧
      off % 4 = 0 ∧ (off = 0x004 ∨ 0x014 ≤ off ∧ off ≤ 0x03C ∨ 0x04C ≤ off ∧ off < 0x100 ∨ 0x200 ≤ off ∧ off < 0x400) := by
  decide +kernel

theorem test_witness_DiagIsWriteOneToClear :
    idleWith (thenEvents { ready with diag := 3 } [write 0x008 1])
      [.hostWrite (ready.cfg.regBase + 0x008) 32 1 .whole] = true := by decide +kernel

/-- The boundary values of `ITEM_SEL`: 7 is the last slot, 8 is none. -/
theorem test_witness_ItemRegistersAreTheSelectedSlot :
    (∀ off ∈ [0x040, 0x044, 0x048],
      idleWith (thenEvents { ready with itemSel := 7 } [write off 1])
        [.hostWrite (ready.cfg.regBase + off) 32 1 .whole] = true ∧
      idleWith (thenEvents { ready with itemSel := 8 } [write off 1])
        [.hostWrite (ready.cfg.regBase + off) 32 1 .whole] = true) ∧
    (7 : Byte).toNat < ready.cfg.maxItems ∧ ready.cfg.maxItems ≤ (8 : Byte).toNat := by decide +kernel

theorem test_witness_DataWindowWritesFourBytes :
    idleWith (thenEvents { ready with itemSel := 7 } [write 0x1FC 1])
      [.hostWrite (ready.cfg.regBase + 0x100 + 4 * 63) 32 1 .whole] = true ∧
    memoriesWf { ready with itemSel := 7 } = true ∧ memoriesSized { ready with itemSel := 7 } = true ∧
    (7 : Byte).toNat < ready.cfg.maxItems ∧ ready.cfg.maxItems ≤ (8 : Byte).toNat := by decide +kernel

/-- The reference configuration without a blocking mode. -/
def noBlocking : State := { ready with cfg := { Config.reference with hasBlocking := false } }

theorem test_witness_ControlBitIsHardwiredWithoutBlockingMode :
    idleWith (thenEvents ready [write 0 1]) [.hostWrite ready.cfg.regBase 32 1 .whole] = true ∧
    ready.cfg.hasBlocking = true ∧
    idleWith (thenEvents noBlocking [write 0 1]) [.hostWrite noBlocking.cfg.regBase 32 1 .whole] = true ∧
    noBlocking.cfg.hasBlocking = false := by decide +kernel

/-- A reset with no command in flight, between two flash calls, inside a read, and inside the erase. -/
theorem test_witness_ResetClearsEverythingButFlash :
    idleWith (thenEvents (running 2 16 2) [.reset (some 1)]) [.reset (some 1)] = true ∧
    (thenEvents (inFlight withItems (.writeHeader 2 1 16)) [.reset none]).job = some (.writeHeader 2 1 16) ∧
    (thenEvents (inFlight (withFlash v43Image) (.readMain 8)) [.reset (some 0)]).job = some (.readMain 8) ∧
    (Job.readMain 8).reads = true ∧
    (thenEvents (inFlight withItems (.writeErase 2)) [.reset (some 7)]).job = some (.writeErase 2) ∧
    memoriesWf (thenEvents (inFlight withItems (.writeErase 2)) [.reset (some 7)]) = true ∧
    legalConfig withItems.cfg = true := by decide +kernel

/-- Power fails inside the data call of the first item of V43, after one of its two words. -/
def tearing : State := thenEvents (inFlight withItems (.writeData 2 0 4)) [.reset (some 1)]

/-- With a draw that lets the call succeed, its first word before the torn one, and with one that does not. -/
theorem test_witness_PowerLossTearsAWriteByWords : legalConfig tearing.cfg = true ∧ memoriesWf tearing = true ∧
    tearing.job = some (.writeData 2 0 4) ∧
    (Job.writeData 2 0 4).program tearing = [0x68, 0x65, 0x6C, 0x6C, 0x6F, 0xFF, 0xFF, 0xFF] ∧
    tearing.sched = [.reset (some 1)] ∧ tearing.drawAt 0 = true ∧ 3 / 4 < 1 ∧ 4 / 4 = 1 ∧
    ({ tearing with draws := [false] } : State).drawAt 0 = false := by decide +kernel

theorem test_witness_EncodeLatchesTheEnabledPacket : (withDev true .cool 17 .auto).dev.en = true ∧
    [17, 30, 16, 31].map (fun v => (withDev true .cool v .auto).dev.temp.toInt) = [17, 30, 16, 31] := by decide

theorem test_witness_EncodeLatchesTheOffPattern : (withDev false .heat 99 .low).dev.en = false := by decide

theorem test_witness_BuildWritesThePulseCode : legalConfig Config.reference = true := by decide

theorem test_witness_SendStartsAnEmission : (ready.cfg.hasBlocking && ready.ctrlBlk) = false := by decide

theorem test_witness_BlockingSendEmitsItsIntervals :
    (ready.cfg.hasBlocking && ({ ready with ctrlBlk := true } : State).ctrlBlk) = true := by decide

/-- The cases of a TICK step: idle, inside a slot, and the ends of a slot, of the first pass and of the last. -/
theorem test_witness_TickStepByItsCases :
    idleWith (thenEvents ready [.tick]) [.tick] = true ∧ ready.gen.timerEn = false ∧
    idleWith (thenEvents (running 0 40 2) [.tick]) [.tick] = true ∧ (running 0 40 2).gen.timerEn = true ∧
    (running 0 40 2).gen.curSub.toNat + 1 < (running 0 40 2).cfg.nSub ∧
    (running 169 41 2).gen.curSub.toNat + 1 = (running 169 41 2).cfg.nSub ∧
    (running 169 41 2).gen.curSlot.toNat + 1 < (running 169 41 2).gen.pbLen.toNat ∧
    (running 170 41 2).gen.curSlot.toNat + 1 = (running 170 41 2).gen.pbLen.toNat ∧
    (running 170 41 2).gen.repeatCnt = 2 ∧ (running 170 41 1).gen.repeatCnt = 1 := by decide +kernel

theorem test_witness_SlotLastsSubTicks : legalConfig Config.reference = true ∧ (running 169 0 2).gen.curSub = 0 ∧
    (running 169 0 2).gen.curSlot.toNat + 1 < (running 169 0 2).gen.pbLen.toNat := by decide +kernel

theorem test_witness_WholeTransmissionTakesItsTicks :
    idleWith ready [] = true ∧ seqInv ready.cfg ready.gen = true ∧ (ready.cfg.hasBlocking && ready.ctrlBlk) = false ∧
    ∃ t, exec .send ready = .next t :=
  ⟨by decide +kernel, by decide +kernel, by decide, _, rfl⟩

theorem test_witness_FanLevelStoresOrRejects :
    (0 : Word).toInt = 0 ∧ (4 : Word).toInt = 4 ∧ (0xFFFFFFFF : Word).toInt < 0 ∧ 4 < (5 : Word).toInt := by decide

theorem test_witness_NoCommandSelectsModeFan :
    exec .move (withDev true .fan 24 .auto) = .next (withDev true .fan 24 .auto) ∧
    (withDev true .fan 24 .auto).dev.mode = .fan := ⟨rfl, rfl⟩

theorem test_witness_DeviceStateIsOwnedByTheInterpreter :
    view (step (thenEvents ready [write 0x010 0x01])) (fun t => decide (t.dev ≠ ready.dev)) = some true ∧
    view (step (thenEvents (withDev true .heat 19 .low) [.reset none]))
      (fun t => decide (t.dev ≠ (withDev true .heat 19 .low).dev)) = some true := by decide +kernel

theorem test_witness_AlignUpIsTheLeastMultiple : 8 % 4 = 0 ∧ 5 ≤ 8 ∧ 0 % 4 = 0 ∧ 0 ≤ 0 := by decide

/-- V47, V48, V49. -/
theorem test_witness_CfgWriteRefusesWhatCannotBeStored :
    ready.cfg.maxItems < (9 : Word).toNat ∧ 255 < (slot 7 256 []).len.toNat ∧
    16 < 4 + (([slot 1 9 []].take 1).map (fun it => itemSize it.len.toNat)).sum := by decide +kernel

/-- The three checks of R200, written out. -/
def storable (s : State) (n : Nat) : Bool :=
  decide (n ≤ s.cfg.maxItems) && (s.items.take n).all (fun it => decide (it.len.toNat ≤ 255)) &&
  decide (4 + ((s.items.take n).map (fun it => itemSize it.len.toNat)).sum ≤ s.cfg.sectorSize)

/-- Every slot of the table full: `MAX_ITEMS` items of 255 bytes. -/
def fullTable : State := { ready with items := List.replicate 8 (slot 1 255 []) }

/-- An image of 16 bytes in a sector of 16 (V49). -/
def fullSector : State :=
  { ready with cfg := { Config.reference with sectorSize := 16 }, items := slot 1 8 [] :: List.replicate 7 Item.reset }

/-- V43, and the boundary of each check. -/
theorem test_witness_CfgWriteLeavesTheImage :
    (idleWith withItems [] && storeInv withItems && storable withItems (2 : Word).toNat &&
      callsSucceed withItems (writeCalls (withItems.items.take (2 : Word).toNat))) = true ∧
    (idleWith fullTable [] && storeInv fullTable && storable fullTable (8 : Word).toNat &&
      callsSucceed fullTable (writeCalls (fullTable.items.take (8 : Word).toNat))) = true ∧
    (idleWith fullSector [] && storeInv fullSector && storable fullSector (1 : Word).toNat &&
      callsSucceed fullSector (writeCalls (fullSector.items.take (1 : Word).toNat))) = true ∧
    fullTable.cfg.maxItems = 8 ∧ 4 + itemSize 8 = fullSector.cfg.sectorSize := by decide +kernel

/-- Every call may fail. -/
theorem test_witness_CfgWriteAlwaysCompletes :
    idleWith { withItems with draws := [false, false, false] } [] = true ∧
    storeInv { withItems with draws := [false, false, false] } = true ∧
    storable { withItems with draws := [false, false, false] } (2 : Word).toNat = true ∧
    ({ withItems with draws := [true, false] } : State).ioBits 2 = 0x04 ∧ withItems.ioBits 6 = 0 := by decide +kernel

theorem test_witness_CfgReadRefusesUnfreedSlots :
    ∃ it ∈ ({ ready with items := [{ Item.reset with alloc := true }] } : State).items.take
      (min (8 : Word).toNat ready.cfg.maxItems), it.alloc = true := by decide +kernel

/-- An erased sector; an image of no item; the image of V43 under a limit of 0. -/
theorem test_witness_CfgReadFindsAnEmptyStore : ready.job = none ∧
    (∀ it ∈ ready.items.take (min (8 : Word).toNat ready.cfg.maxItems), it.alloc = false) ∧
    callsSucceed ready 1 = true ∧ ¬ (ready.flash.read 0 = 0x55 ∧ ready.flash.read 1 = 0xAA) ∧
    (withFlash [0x55, 0xAA, 0x00, 0x00]).flash.read 0 = 0x55 ∧ (withFlash [0x55, 0xAA, 0x00, 0x00]).flash.read 1 = 0xAA ∧
    halfOf ((withFlash [0x55, 0xAA, 0x00, 0x00]).flash.read 2) ((withFlash [0x55, 0xAA, 0x00, 0x00]).flash.read 3) = 0 ∧
    halfOf ((withFlash v43Image).flash.read 2) ((withFlash v43Image).flash.read 3) = 20 ∧
    min (0 : Word).toNat (withFlash v43Image).cfg.maxItems = 0 := by decide +kernel

theorem test_witness_CfgReadAlwaysCompletes :
    idleWith (withFlash v43Image) [] = true ∧ storeInv (withFlash v43Image) = true ∧
    ∀ it ∈ (withFlash v43Image).items.take (min (8 : Word).toNat (withFlash v43Image).cfg.maxItems),
      it.alloc = false := by decide +kernel

/-- CFG_READ at the data header of item 1 of an image like V43's (its stored checksum is 0, or 1 in V50). -/
def verifying (image : List Byte) : State := inFlight (withFlash image) (.readHeader 8 1 16 8)

/-- What the two statements on a verified and on a discarded item ask, for an item of `len` bytes. -/
def atHeader (s : State) (i off : Nat) (remaining : Int) (id len : Byte) (ck : BitVec 16) (calls : Nat) : Bool :=
  legalConfig s.cfg && storeInv s && s.job == some (.readHeader 8 i off remaining) && s.sched == [] &&
  s.flash.read off == id && s.flash.read (off + 1) == len &&
  halfOf (s.flash.read (off + 2)) (s.flash.read (off + 3)) == ck &&
  decide (off + 4 + alignUp len.toNat ≤ s.cfg.sectorSize) && calls == (if len = 0 then 1 else 2) &&
  callsSucceed s calls

/-- CFG_READ at the data header of an empty item (V46), its stored checksum `ck`. -/
def emptyItem (ck : Byte) : State :=
  inFlight (withFlash [0x55, 0xAA, 0x04, 0x00, 0x07, 0x00, ck, 0x00]) (.readHeader 8 0 4 4)

theorem test_witness_ChecksumMismatchStopsTheRead :
    atHeader (verifying (v43Image.set 18 1)) 1 16 8 2 4 1 2 = true ∧
    checksum .zero ((verifying (v43Image.set 18 1)).flash.readBytes (16 + 4) 4) ≠ 1 ∧
    atHeader (emptyItem 1) 0 4 4 7 0 1 1 = true ∧
    checksum .zero ((emptyItem 1).flash.readBytes (4 + 4) 0) ≠ 1 := by decide +kernel

/-- A sector of 8 bytes with one data header, of an item of `len` bytes. -/
def oneHeader (len : Byte) : State :=
  { inFlight (withFlash [0x55, 0xAA, 0x08, 0x00, 0x07, len, 0x00, 0x00]) (.readHeader 8 0 4 8) with
    cfg := { Config.reference with sectorSize := 8 } }

/-- An item that would pass the end of the sector; then, of verified items, one with another after it, one after which
the next header would pass the end, the last one, an empty one, and one after which the declared length disagrees. -/
theorem test_witness_VerifiedItemFillsItsSlot :
    (legalConfig (oneHeader 1).cfg && storeInv (oneHeader 1) && callsSucceed (oneHeader 1) 1) = true ∧
    (oneHeader 1).cfg.sectorSize < 4 + 4 + alignUp (1 : Byte).toNat ∧
    atHeader (inFlight (withFlash v43Image) (.readHeader 8 0 4 20)) 0 4 20 1 5 0 2 = true ∧
    (20 : Int) - (4 + alignUp (5 : Byte).toNat : Nat) = 8 ∧ 4 + 4 + alignUp (5 : Byte).toNat + 4 ≤ 4096 ∧
    atHeader (oneHeader 0) 0 4 8 7 0 0 1 = true ∧ (8 : Int) - (4 + alignUp (0 : Byte).toNat : Nat) = 4 ∧
    (oneHeader 0).cfg.sectorSize < 4 + 4 + alignUp (0 : Byte).toNat + 4 ∧
    atHeader (verifying v43Image) 1 16 8 2 4 0 2 = true ∧ (8 : Int) - (4 + alignUp (4 : Byte).toNat : Nat) = 0 ∧
    checksum .zero ((verifying v43Image).flash.readBytes (16 + 4) 4) = 0 ∧
    atHeader (emptyItem 0) 0 4 4 7 0 0 1 = true ∧
    checksum .zero ((emptyItem 0).flash.readBytes (4 + 4) 0) = 0 ∧
    atHeader (inFlight (withFlash v43Image) (.readHeader 8 1 16 4)) 1 16 4 2 4 0 2 = true := by decide +kernel

theorem test_witness_ConfigurationRoundTrip :
    idleWith withItems [] = true ∧ storeInv withItems = true ∧ (∀ it ∈ withItems.items, it.alloc = false) ∧
    writeAccepted withItems (2 : Word).toNat = true ∧ (2 : Word).toNat ≤ (8 : Word).toNat ∧
    callsSucceed withItems (4 * (2 : Word).toNat + 3) = true ∧ ∃ t, exec (.cfgWrite 2) withItems = .next t :=
  ⟨by decide +kernel, by decide +kernel, by decide +kernel, by decide +kernel, by decide, by decide +kernel,
    exists_next (by decide +kernel)⟩

theorem test_witness_FreeClearsAllocAndLength : memoriesSized withItems = true := by decide +kernel

/-- Slots that the caller owns. -/
def owned : State := { ready with items := v43Items.map (fun it => { it with alloc := true }) }

theorem test_witness_BlobsAreFreedOnlyByTheirOwner :
    legalConfig owned.cfg = true ∧ storeInv owned = true ∧ owned.job = none ∧
    view (exec (.cfgFree 1) owned) (fun t => ((owned.item 0).alloc, (t.item 0).alloc)) = some (true, false) := by
  decide +kernel

theorem test_witness_OnlyCfgWriteChangesFlash : withItems.job = none ∧
    view (exec (.cfgWrite 2) withItems) (fun t => decide (t.flash ≠ withItems.flash)) = some true := by decide +kernel

/-- CFG_WRITE 2 issued with other agents' steps allowed inside it. -/
def splitWrite : State := thenEvents { withItems with cmdArg := 2 } [.hostWrite 0x010 32 0x20 .split]

theorem test_witness_SplitCommandEndsLikeTheWhole : splitWrite.inv = true ∧ splitWrite.job = none ∧
    splitWrite.sched = [.hostWrite (splitWrite.cfg.regBase + 0x010) 32 0x20 .split] ∧
    view (exec (decodeCommand 0x20 splitWrite.cmdArg) { splitWrite with sched := [] }) (fun _ => ()) = some () := by
  decide +kernel

/-- A command in flight, no event, and an access that has a meaning. -/
theorem test_witness_StepsStopOnlyOnBadAccesses : waiting.inv = true ∧ waiting.job.isSome = true ∧
    (running 0 0 2).inv = true ∧ nextAccessLegal (running 0 0 2) = true ∧
    (thenEvents ready [.hostRead 0x3FC 32]).inv = true ∧ nextAccessLegal (thenEvents ready [.hostRead 0x3FC 32]) = true ∧
    nextAccessLegal (thenEvents ready [.hostRead 0x3FD 32]) = false := by decide +kernel

theorem test_witness_FlashCallsAreAlignedAndInside :
    (verifying v43Image).inv = true ∧ (verifying v43Image).job = some (.readHeader 8 1 16 8) := by decide +kernel

/-- A tick in a running emission meets every invariant and steps. -/
theorem test_witness_StepKeepsTheSequencerInvariant :
    seqInv (running 170 41 1).cfg (running 170 41 1).gen = true ∧
    ∃ t, step (thenEvents (running 170 41 1) [.tick]) = .next t :=
  ⟨by decide +kernel, exists_next (by decide +kernel)⟩

theorem test_witness_StepKeepsTheMemoriesCanonical :
    memoriesWf waiting = true ∧ ∃ t, step waiting = .next t := ⟨by decide +kernel, exists_next (by decide +kernel)⟩

theorem test_witness_StepKeepsTheStoreInvariant :
    storeInv waiting = true ∧ ∃ t, step waiting = .next t := ⟨by decide +kernel, exists_next (by decide +kernel)⟩

theorem test_witness_StepKeepsTheLatchInvariant :
    latchInv (thenEvents ready [write 0x010 0x10]) = true ∧
    (∃ t, step (thenEvents ready [write 0x010 0x10]) = .next t) ∧ ∃ t, exec .encode ready = .next t :=
  ⟨by decide +kernel, exists_next (by decide +kernel), _, rfl⟩

theorem test_witness_LogOnlyGrows : resetIsNext (thenEvents (running 0 0 2) [.tick]) = false ∧
    ∃ t, step (thenEvents (running 0 0 2) [.tick]) = .next t := ⟨by decide, exists_next (by decide +kernel)⟩

theorem test_witness_DiagnosticsAreSticky :
    view (exec (.unrecognised 0x00) { ready with diag := 0x80 }) (fun t => t.diag) = some 0x81 ∧
    (0x80 : Byte).getLsbD 7 = true := by decide

theorem test_witness_DiagnosticsInfluenceNothing : ∃ t, exec (.cfgWrite 9) ready = .next t :=
  exists_next (by decide +kernel)

end Sys2Proof.Tests
end

/-! PROOFS. The configuration (00_scope.md R9, R10; 10_state.md R32): what `legalConfig` demands, and how a step depends
on it. -/
section
namespace Sys2Proof.Proofs
open Sys2Proof.Machine

/-- The model's check read as the list of R9, R10 and R32; 209 is the 16 + 192 + `STOP_HIGH_SLOTS` slots of R9. -/
theorem legalConfig_iff {c : Config} : legalConfig c = true ↔
    (c.nSub % 2 = 0 ∧ 2 ≤ c.nSub ∧ c.nSub < 65536 ∧ 209 + c.stopLowSlots ≤ c.pbCap ∧ c.pbCap ≤ 2048 ∧
      c.sectorSize % 4 = 0 ∧ 8 ≤ c.sectorSize ∧ c.sectorSize ≤ 65536 ∧ c.cfgBase % c.sectorSize = 0 ∧
      1 ≤ c.maxItems ∧ c.maxItems ≤ 255 ∧ 0 < c.tUs ∧ c.regBase % 0x400 = 0) := by
  have hstart : 16 + 192 + Config.stopHighSlots = 209 := rfl
  simp only [legalConfig, hstart, Bool.and_eq_true, decide_eq_true_eq, beq_iff_eq, and_assoc]

/-- Under a legal configuration a step is the turn of the agent whose event comes next. -/
theorem step_of_legalConfig {s : State} (h : legalConfig s.cfg = true) : step s = s.turn := if_pos h

/-- The configuration is checked before anything else of the state is looked at. -/
theorem step_of_illegalConfig {s : State} (h : legalConfig s.cfg = false) : step s = .refused .illegalConfig :=
  if_neg (Bool.eq_false_iff.mp h)

/-- Settles O8: the check is the list of constraints, and every step makes it first. -/
theorem illegalConfigurationIsRefused : Obligations.IllegalConfigurationIsRefused :=
  ⟨fun _ => legalConfig_iff, fun _ => step_of_illegalConfig⟩

end Sys2Proof.Proofs
end

/-! PROOFS. The host's accesses (10_state.md R24, R40 to R48; 30_encoding.md R100): what a step does with the access that
stands next in the schedule, by the place the access reaches. -/
section
namespace Sys2Proof.Proofs
open Sys2Proof.Machine

/-! ## The step of an access -/

section
variable {s : State} {addr width : Nat} {v : Word} {span : Span} {rest : List Event}

/-- With no command in flight the step of a host read is that read. -/
theorem step_hostRead (hl : legalConfig s.cfg = true) (hj : s.job = none) (hs : s.sched = .hostRead addr width :: rest) :
    step s = ({ s with sched := rest } : State).hostReads addr width := by
  simp only [step_of_legalConfig hl, State.turn, hs, State.hostTurn, hj]

/-- With no command in flight the step of a host write is that write. -/
theorem step_hostWrite (hl : legalConfig s.cfg = true) (hj : s.job = none)
    (hs : s.sched = .hostWrite addr width v span :: rest) :
    step s = ({ s with sched := rest } : State).hostWrites addr width v span := by
  simp only [step_of_legalConfig hl, State.turn, hs, State.hostTurn, hj]

/-- An access that the map refuses stops the step, whether it reads or writes. -/
theorem step_of_refusedAccess {e : Refusal} (hl : legalConfig s.cfg = true) (hj : s.job = none)
    (hs : s.sched = .hostRead addr width :: rest ∨ s.sched = .hostWrite addr width v span :: rest)
    (he : decodeAccess s.cfg addr width = .error e) : step s = .refused e := by
  rcases hs with hs | hs
  · simp only [step_hostRead hl hj hs, State.hostReads, he]
  · simp only [step_hostWrite hl hj hs, State.hostWrites, he]

/-- The step of a write to `CMD_OP`. -/
theorem step_commandWrite (hl : legalConfig s.cfg = true) (hj : s.job = none)
    (hs : s.sched = .hostWrite (s.cfg.regBase + 0x010) 32 v span :: rest) :
    step s = ({ s with sched := rest } : State).writePort v span := by
  have hd := decodeAccess_of_offset s.cfg (off := 0x010) (by decide) (by decide)
  rw [regOfOffset_eq_cmdOp.mpr rfl] at hd
  simp only [step_hostWrite hl hj hs, State.hostWrites, hd]

/-- The step of a write to any other register. -/
theorem step_registerWrite {off : Nat} (hl : legalConfig s.cfg = true) (hj : s.job = none) (hoff : off < 0x400)
    (h4 : off % 4 = 0) (hne : off ≠ 0x010) (hs : s.sched = .hostWrite (s.cfg.regBase + off) 32 v span :: rest) :
    step s = .next (({ s with sched := rest } : State).writeReg (regOfOffset off) v) := by
  have hr : regOfOffset off ≠ .cmdOp := fun h => hne (regOfOffset_eq_cmdOp.mp h)
  rw [step_hostWrite hl hj hs]
  simp only [State.hostWrites, decodeAccess_of_offset s.cfg hoff h4]

/-- The step of a read of a register. -/
theorem step_registerRead {off : Nat} (hl : legalConfig s.cfg = true) (hj : s.job = none) (hoff : off < 0x400)
    (h4 : off % 4 = 0) (hs : s.sched = .hostRead (s.cfg.regBase + off) 32 :: rest) :
    step s = .next { s with rdata := s.readReg (regOfOffset off), sched := rest } := by
  simp only [step_hostRead hl hj hs, State.hostReads, decodeAccess_of_offset s.cfg hoff h4]
  cases regOfOffset off <;> rfl

end

/-! ## The map -/

/-- The data window of the item table (R40). -/
theorem regOfOffset_itemData {k : Nat} (h : k < 64) : regOfOffset (0x100 + 4 * k) = .itemData k := by
  have hw : 0x100 ≤ 0x100 + 4 * k ∧ 0x100 + 4 * k < 0x200 := by omega
  have hk : (0x100 + 4 * k - 0x100) / 4 = k := by omega
  simp (disch := omega) only [regOfOffset, if_neg, if_pos hw, hk]

/-- The window of the PulseBuffer (R40). -/
theorem regOfOffset_pbWord {k : Nat} (h : k < 64) : regOfOffset (0x200 + 4 * k) = .pbWord k := by
  have hw : 0x200 ≤ 0x200 + 4 * k ∧ 0x200 + 4 * k < 0x300 := by omega
  have hk : (0x200 + 4 * k - 0x200) / 4 = k := by omega
  simp (disch := omega) only [regOfOffset, if_neg, if_pos hw, hk]

/-- The gaps of the map (R40). -/
theorem regOfOffset_reserved {off : Nat} (h : 0x050 < off ∧ off < 0x100 ∨ 0x300 ≤ off) : regOfOffset off = .reserved := by
  simp (disch := omega) only [regOfOffset, if_neg]

/-- A write changes nothing at an aligned offset that is not one of the writable registers (R40, R48). -/
theorem writeReg_of_readOnlyOffset (s : State) {off : Nat} (v : Word) (h4 : off % 4 = 0)
    (h : off = 0x004 ∨ 0x014 ≤ off ∧ off ≤ 0x03C ∨ 0x04C ≤ off ∧ off < 0x100 ∨ 0x200 ≤ off ∧ off < 0x400) :
    s.writeReg (regOfOffset off) v = s := by
  obtain ⟨hctrl, hdiag, harg, hop, hsel, hid, hlen, hdata⟩ : off ≠ 0x000 ∧ off ≠ 0x008 ∧ off ≠ 0x00C ∧ off ≠ 0x010 ∧
      off ≠ 0x040 ∧ off ≠ 0x044 ∧ off ≠ 0x048 ∧ ¬ (0x100 ≤ off ∧ off < 0x200) := by omega
  simp only [regOfOffset, hctrl, hdiag, harg, hop, hsel, hid, hlen, hdata, if_false, apply_ite (s.writeReg · v)]
  simp only [State.writeReg, ite_self]

/-! ## The accesses without a meaning -/

/-- Settles O9: the map refuses each of these accesses by its name. -/
theorem narrowOrMisalignedAccessIsRefused : Obligations.NarrowOrMisalignedAccessIsRefused := by
  intro s addr width v span rest hl hj hs
  refine ⟨fun hw => ?_, fun hw hout => ?_, fun hw hlo hhi h4 => ?_⟩ <;>
    refine step_of_refusedAccess hl hj hs ?_
  · simp only [decodeAccess, hw, ne_eq, not_false_iff, if_true]
  · simp only [decodeAccess, hw, registerSpace, hout, ne_eq, not_true, if_true, if_false]
  · have hin : ¬ (addr < s.cfg.regBase ∨ s.cfg.regBase + 0x400 ≤ addr) := by omega
    simp only [decodeAccess, hw, registerSpace, hin, h4, ne_eq, not_true, not_false_iff, if_true, if_false]

/-! ## Reads, and the writes that no slot is concerned with -/

/-- Settles O10: the map offset by offset, then the step of a read. -/
theorem readsReturnTheRegisterAndChangeNothing : Obligations.ReadsReturnTheRegisterAndChangeNothing :=
  ⟨rfl, fun _ hk => ⟨regOfOffset_itemData hk, regOfOffset_pbWord hk⟩, fun _ h => regOfOffset_reserved h,
    fun _ _ _ hl hj hoff h4 hs => step_registerRead hl hj hoff h4 hs⟩

/-- Settles O12: the step is the write, which these offsets ignore. -/
theorem readOnlyAndReservedWritesAreIgnored : Obligations.ReadOnlyAndReservedWritesAreIgnored := by
  intro s off v span rest hl hj h4 hoff hs
  rw [step_registerWrite hl hj (by omega) h4 (by omega) hs, writeReg_of_readOnlyOffset _ v h4 hoff]

/-- Settles O13: the byte that a write leaves in `DIAG`, bit by bit. -/
theorem diagIsWriteOneToClear : Obligations.DiagIsWriteOneToClear := by
  intro s v span rest hl hj hs
  refine ⟨clearDiag s.diag v, step_registerWrite hl hj (by decide) (by decide) (by decide) hs, fun k hk => ?_⟩
  simp [clearDiag, hk]

/-- Settles O5: `CMD_OP` is a register of its own, and a write of the span `whole` runs the command to its end. -/
theorem stepRunsTheIssuedCommand : Obligations.StepRunsTheIssuedCommand := by
  intro s v rest hl hj hs
  exact step_commandWrite hl hj hs

/-- Without a blocking mode SEND starts the timer whatever `CTRL.BLK` was written to (41_waveform_generator.md R155). -/
theorem send_timerEn_of_noBlocking {s : State} (h : s.cfg.hasBlocking = false) : s.send.gen.timerEn = true := by
  simp [State.send_eq, h, emissionStarted]

/-- Settles O16: the write and the read of `CTRL` by the configuration, and the mode SEND then takes. -/
theorem controlBitIsHardwiredWithoutBlockingMode : Obligations.ControlBitIsHardwiredWithoutBlockingMode := by
  intro s v span rest hl hj hs
  have hstep := step_registerWrite (off := 0x000) hl hj (by decide) (by decide) (by decide) hs
  have hwrite : step s = .next (if s.cfg.hasBlocking then { s with ctrlBlk := v.getLsbD 0, sched := rest }
      else { s with sched := rest }) := hstep
  refine ⟨fun hb => ?_, fun hb => ⟨?_, ?_, s.send, rfl, send_timerEn_of_noBlocking hb⟩⟩
  · simpa only [hb, if_true] using hwrite
  · simpa only [hb, Bool.false_eq_true, if_false] using hwrite
  · simp [State.readReg, State.blocking, hb, flagAt]

end Sys2Proof.Proofs
end

/-! PROOFS. What the host reads of each register, and the item window (10_state.md R40 to R47). -/
section
namespace Sys2Proof.Proofs
open Sys2Proof.Machine

/-! ## Words, bit by bit -/

/-- A one-bit field is alone in its word. -/
theorem getLsbD_flagAt (b : Bool) {k : Nat} (hk : k < 32) (n : Nat) : (flagAt b n).getLsbD k = (b && decide (k = n)) := by
  cases b with
  | false => simp [flagAt]
  | true =>
    simp only [flagAt, if_true, BitVec.getLsbD_shiftLeft, BitVec.getLsbD_one, hk, Bool.true_and, decide_true]
    grind

/-- A one-bit field in bit 0, as a number. -/
theorem toNat_flagAt_zero (b : Bool) : (flagAt b 0).toNat = b.toNat := by
  cases b <;> rfl

/-- The bits of `STATUS` (R42). -/
theorem getLsbD_statusWord (emitting pin wrErr rdEmpty : Bool) (rdCount : Byte) {k : Nat} (hk : k < 32) :
    (statusWord emitting pin wrErr rdEmpty rdCount).getLsbD k =
      if k = 0 then emitting else if k = 1 then pin else if k = 2 then wrErr else if k = 3 then rdEmpty
      else if 8 ≤ k ∧ k < 16 then rdCount.getLsbD (k - 8) else false := by
  have hcount : (rdCount.setWidth 32 <<< 8).getLsbD k =
      if 8 ≤ k ∧ k < 16 then rdCount.getLsbD (k - 8) else false := by
    by_cases hlo : k < 8
    · simp [hlo]
    · by_cases hhi : k < 16
      · simp [hlo, hhi, hk, Nat.le_of_not_lt hlo]
      · simp [hhi, BitVec.getLsbD_of_ge rdCount (k - 8) (by omega)]
  simp only [statusWord, BitVec.getLsbD_or, getLsbD_flagAt _ hk, hcount]
  grind

/-- The number with binary digits `f 0`, `f 1`, …, `f (n - 1)`, digit by digit. -/
theorem testBit_foldr_range (n : Nat) (f : Nat → Prop) [DecidablePred f] (k : Nat) :
    ((List.range n).foldr (fun b acc => 2 * acc + (if f b then 1 else 0)) 0).testBit k =
      (decide (k < n) && decide (f k)) := by
  induction n generalizing f k with
  | zero => simp
  | succ n ih =>
    rw [List.range_succ_eq_map, List.foldr_cons, List.foldr_map]
    cases k with
    | zero => by_cases h : f 0 <;> simp [h, Nat.testBit_zero]
    | succ k =>
      have hhalf : ∀ acc, (2 * acc + if f 0 then 1 else 0) / 2 = acc := fun acc => by split <;> omega
      rw [Nat.testBit_succ, hhalf, ih (fun b => f (b + 1))]
      simp

/-- The bits of a word of the PulseBuffer window (R47). -/
theorem getLsbD_pulseWord (c : Config) (pb : List Bool) (w : Nat) {k : Nat} (hk : k < 32) :
    (pulseWord c pb w).getLsbD k = (decide (32 * w + k < c.pbCap) && pb.getD (32 * w + k) false) := by
  rw [pulseWord, BitVec.getLsbD_ofNat,
    testBit_foldr_range 32 (fun b => 32 * w + b < c.pbCap ∧ pb.getD (32 * w + b) false = true)]
  simp [hk]

/-- The bits of a word of the data window: four bytes, low byte first (20_memory.md R72). -/
theorem getLsbD_dataWord (it : Item) (w : Nat) {k : Nat} (hk : k < 32) :
    (dataWord it w).getLsbD k = (it.data.read (4 * w + k / 8)).getLsbD (k % 8) := by
  rw [dataWord, getLsbD_wordOfBytes]
  by_cases h1 : k < 8
  · simp [h1, show k / 8 = 0 by omega, show k % 8 = k by omega]
  · by_cases h2 : k < 16
    · simp [h1, h2, show k / 8 = 1 by omega, show k % 8 = k - 8 by omega]
    · by_cases h3 : k < 24
      · simp [h1, h2, h3, show k / 8 = 2 by omega, show k % 8 = k - 16 by omega]
      · simp [h1, h2, h3, show k / 8 = 3 by omega, show k % 8 = k - 24 by omega]

/-! ## The item window (R46) -/

section
variable {s : State}

/-- With a slot selected a field of the window is that slot's. -/
theorem itemField_of_selected (h : s.itemSel.toNat < s.cfg.maxItems) (f : Item → Word) :
    s.itemField f = f (s.item s.itemSel.toNat) := by
  simp [State.itemField, State.itemSelected, State.selectedItem, h]

/-- With no slot selected every field of the window reads 0. -/
theorem itemField_of_unselected (h : s.cfg.maxItems ≤ s.itemSel.toNat) (f : Item → Word) : s.itemField f = 0 := by
  simp [State.itemField, State.itemSelected, Nat.not_lt.mpr h]

/-- The item registers with no slot selected. -/
theorem readReg_item_of_unselected (h : s.cfg.maxItems ≤ s.itemSel.toNat) (k : Nat) :
    s.readReg .itemId = 0 ∧ s.readReg .itemLen = 0 ∧ s.readReg .itemCksum = 0 ∧ s.readReg .itemAlloc = 0 ∧
      s.readReg (.itemData k) = 0 := by
  simp only [State.readReg, itemField_of_unselected h, and_self]

/-- The item registers with a slot selected. -/
theorem readReg_item_of_selected (h : s.itemSel.toNat < s.cfg.maxItems) (k : Nat) {b : Nat} (hb : b < 32) :
    (s.readReg .itemId).toNat = (s.item s.itemSel.toNat).id.toNat ∧
      (s.readReg .itemLen).toNat = (s.item s.itemSel.toNat).len.toNat ∧
      (s.readReg .itemCksum).toNat = (s.item s.itemSel.toNat).cksum.toNat ∧
      (s.readReg .itemAlloc).toNat = (s.item s.itemSel.toNat).alloc.toNat ∧
      (s.readReg (.itemData k)).getLsbD b = ((s.item s.itemSel.toNat).data.read (4 * k + b / 8)).getLsbD (b % 8) := by
  simp only [State.readReg, itemField_of_selected h, toNat_flagAt_zero, getLsbD_dataWord _ _ hb,
    BitVec.toNat_setWidth_of_le (show 8 ≤ 32 by decide), BitVec.toNat_setWidth_of_le (show 16 ≤ 32 by decide), and_self]

variable {off : Nat} {v : Word} {span : Span} {rest : List Event} {f : Item → Item}

/-- With a slot selected the step of a write of the window changes that slot. -/
theorem step_itemWrite_of_selected (hl : legalConfig s.cfg = true) (hj : s.job = none) (hoff : off < 0x400)
    (h4 : off % 4 = 0) (hne : off ≠ 0x010) (hs : s.sched = .hostWrite (s.cfg.regBase + off) 32 v span :: rest)
    (hf : ∀ t : State, t.writeReg (regOfOffset off) v = t.writeItemField f) (h : s.itemSel.toNat < s.cfg.maxItems) :
    step s = .next { s with
      items := s.items.set s.itemSel.toNat (f (s.item s.itemSel.toNat)), sched := rest } := by
  rw [step_registerWrite hl hj hoff h4 hne hs, hf, State.writeItemField, State.itemSelected, if_pos (decide_eq_true h)]
  rfl

/-- With no slot selected the step of a write of the window ignores it. -/
theorem step_itemWrite_of_unselected (hl : legalConfig s.cfg = true) (hj : s.job = none) (hoff : off < 0x400)
    (h4 : off % 4 = 0) (hne : off ≠ 0x010) (hs : s.sched = .hostWrite (s.cfg.regBase + off) 32 v span :: rest)
    (hf : ∀ t : State, t.writeReg (regOfOffset off) v = t.writeItemField f) (h : s.cfg.maxItems ≤ s.itemSel.toNat) :
    step s = .next { s with sched := rest } := by
  have hun : ¬ decide (s.itemSel.toNat < s.cfg.maxItems) = true := by simpa using h
  rw [step_registerWrite hl hj hoff h4 hne hs, hf, State.writeItemField, State.itemSelected, if_neg hun]

end

/-! ## The registers -/

/-- Settles O11: each register is a word whose bits or number a lemma above says; the item registers follow the two cases of
R46. -/
theorem registerReadValues : Obligations.RegisterReadValues := by
  intro s k w hk
  have h2 : 2 ≤ 32 := by decide
  have h8 : 8 ≤ 32 := by decide
  have h12 : 12 ≤ 32 := by decide
  have h16 : 16 ≤ 32 := by decide
  refine ⟨getLsbD_statusWord _ _ _ _ _ hk, ?packet, ?frameLo, ?frameHi, getLsbD_pulseWord _ _ _ hk,
    BitVec.toNat_setWidth_of_le h8, BitVec.toNat_setWidth_of_le h12, BitVec.toNat_setWidth_of_le h12,
    BitVec.toNat_setWidth_of_le h16, BitVec.toNat_setWidth_of_le h2, BitVec.toNat_setWidth_of_le h8,
    toNat_flagAt_zero _, toNat_flagAt_zero _, ?devMode, ?devFan, rfl, rfl, rfl, rfl,
    fun h => readReg_item_of_selected h w hk, fun h => readReg_item_of_unselected h w⟩
  case packet => simp [State.readReg, getLsbD_wordOfBytes]
  case frameLo => exact getLsbD_wordOfBytes _ _ _ _ _
  case frameHi => simp [State.readReg, getLsbD_wordOfBytes]
  case devMode => rw [State.readReg]; cases s.dev.mode <;> rfl
  case devFan => rw [State.readReg]; cases s.dev.fan <;> rfl

/-- Settles O14: the step of each write, and the reads, in the two cases of R46. -/
theorem itemRegistersAreTheSelectedSlot : Obligations.ItemRegistersAreTheSelectedSlot := by
  intro s off k b v span rest hl hj hb hs
  have hidWrite : ∀ t : State, t.writeReg (regOfOffset 0x044) v =
      t.writeItemField (fun it => { it with id := v.setWidth 8 }) := fun _ => rfl
  have hlenWrite : ∀ t : State, t.writeReg (regOfOffset 0x048) v =
      t.writeItemField (fun it => { it with len := v.setWidth 16 }) := fun _ => rfl
  refine ⟨?_, fun hun => ?_, fun hsel => ?_⟩
  · rintro rfl
    exact step_registerWrite hl hj (by decide) (by decide) (by decide) hs
  · obtain ⟨hid, hlen, hck, halloc, hdata⟩ := readReg_item_of_unselected hun k
    refine ⟨hid, hlen, hck, halloc, hdata, ?_⟩
    rintro (rfl | rfl)
    · exact step_itemWrite_of_unselected hl hj (by decide) (by decide) (by decide) hs hidWrite hun
    · exact step_itemWrite_of_unselected hl hj (by decide) (by decide) (by decide) hs hlenWrite hun
  · obtain ⟨hid, hlen, hck, halloc, hdata⟩ := readReg_item_of_selected hsel k hb
    refine ⟨hid, hlen, hck, halloc, hdata, ?_, ?_⟩
    · rintro rfl
      exact step_itemWrite_of_selected hl hj (by decide) (by decide) (by decide) hs hidWrite hsel
    · rintro rfl
      exact step_itemWrite_of_selected hl hj (by decide) (by decide) (by decide) hs hlenWrite hsel

/-- The bytes of a slot after a write to word `k` of its data window (R46, 20_memory.md R72). -/
theorem read_writeDataWord {it : Item} (h : it.data.wf = true) (k : Nat) (v : Word) (a : Nat) :
    (it.writeDataWord k v).data.read a =
      if a = 4 * k then v.extractLsb' 0 8 else if a = 4 * k + 1 then v.extractLsb' 8 8
      else if a = 4 * k + 2 then v.extractLsb' 16 8 else if a = 4 * k + 3 then v.extractLsb' 24 8
      else it.data.read a := by
  simp only [Item.writeDataWord, Memory.read_writeBytes h, List.length_cons, List.length_nil]
  by_cases hin : 4 * k ≤ a ∧ a < 4 * k + 4
  · obtain ⟨j, rfl⟩ := Nat.exists_eq_add_of_le hin.1
    have hj : j < 4 := by omega
    interval_cases j <;> simp [byteOfWord]
  · simp (disch := omega) only [if_neg]

/-- Settles O15: the write is one of the selected slot's data, which are in canonical form. -/
theorem dataWindowWritesFourBytes : Obligations.DataWindowWritesFourBytes := by
  intro s k v span rest hl hwf hsz hj hk hs
  have hm := memoriesOk_iff.mpr ⟨hwf, hsz⟩
  have hwrite : ∀ t : State, t.writeReg (regOfOffset (0x100 + 4 * k)) v =
      t.writeItemField (fun it => it.writeDataWord k v) := fun t => by rw [regOfOffset_itemData hk]; rfl
  rw [Nat.add_assoc] at hs
  refine ⟨fun hun => ?_, fun hsel => ⟨((s.item s.itemSel.toNat).writeDataWord k v).data, ?_, ?_⟩⟩
  · exact step_itemWrite_of_unselected hl hj (by omega) (by omega) (by omega) hs hwrite hun
  · exact step_itemWrite_of_selected hl hj (by omega) (by omega) (by omega) hs hwrite hsel
  · exact read_writeDataWord (hm.dataWf _ (State.item_mem (by rw [hm.length]; exact hsel))) k v

/-! ## Reset values -/

/-- Settles O17: the fields of `State.powerUp`, `STATUS` read from them, and every slot of the table the same. -/
theorem resetValuesOfTheSpec : Obligations.ResetValuesOfTheSpec := by
  intro c
  have hstatus : (State.powerUp c).readReg .status = 0 := show statusWord false false false false 0 = 0 by decide
  have hitem : ∀ i, i < c.maxItems → (State.powerUp c).item i = Item.reset := fun i hi => by
    simp [State.item, State.powerUp, hi]
  refine ⟨rfl, rfl, rfl, rfl, rfl, rfl, rfl, rfl, rfl, rfl, rfl, rfl, hstatus, rfl, rfl, rfl, rfl, fun i hi => ?_⟩
  rw [hitem i hi]
  exact ⟨rfl, rfl, rfl, rfl⟩

end Sys2Proof.Proofs
end

/-! PROOFS. Who changes the DeviceState, the encoder's latches, the emission log and the configuration (10_state.md R26 to R28,
R52; 00_scope.md R9): what a command, and then a step, can do to them. -/
section
namespace Sys2Proof.Proofs
open Sys2Proof.Machine

/-! ## Commands -/

/-- One row of the opcode map: a command is selected by its own opcode. -/
theorem opcode_ite {op a : Byte} {i j : Instr} (hi : i.opcode = a) (hj : j.opcode = op) :
    (if op = a then i else j).opcode = op := by
  split
  · next h => rw [hi, h]
  · exact hj

/-- The opcode that was written is the command's (30_encoding.md R102, R104). -/
@[simp] theorem opcode_decodeCommand (op : Byte) (arg : Word) : (decodeCommand op arg).opcode = op := by
  unfold decodeCommand
  iterate 14 refine opcode_ite rfl ?_
  rfl

/-- What a command can do: a store command and a command without a transmission touch only what the store owns, ENCODE sets
the latches, and SEND and the seven vocabulary commands send a DeviceState, which only the seven change. -/
inductive CommandCase (i : Instr) (s t : State) : Prop where
  | store (h : SameOutsideStore s t)
  | encode (ht : t = s.latchFrame)
  | send (d : DeviceState) (hd : d = s.dev ∨ 1 ≤ i.opcode.toNat ∧ i.opcode.toNat ≤ 7) (ht : t = sentAs s d)

/-- A diagnostic bit is no part of what lies outside the store. -/
theorem raiseDiag_outside (s : State) (b : DiagBit) : SameOutsideStore s (s.raiseDiag b) :=
  ⟨rfl, rfl, rfl, rfl, rfl, rfl, rfl, rfl, rfl, rfl⟩

/-- CFG_WRITE before its first flash call. -/
theorem startWrite_outside (s : State) (arg : Word) : SameOutsideStore s (s.startWrite arg) := by
  unfold State.startWrite
  split <;> exact ⟨rfl, rfl, rfl, rfl, rfl, rfl, rfl, rfl, rfl, rfl⟩

/-- CFG_READ before its first flash call. -/
theorem startRead_outside (s : State) (arg : Word) : SameOutsideStore s (s.startRead arg) := by
  unfold State.startRead
  split <;> exact ⟨rfl, rfl, rfl, rfl, rfl, rfl, rfl, rfl, rfl, rfl⟩

/-- Everything a command can do, run to its end. -/
theorem exec_cases {i : Instr} {s t : State} (h : exec i s = .next t) : CommandCase i s t := by
  have hsend : ∀ d, exec i s = .next (s.mutateAndSend d) → 1 ≤ i.opcode.toNat ∧ i.opcode.toNat ≤ 7 →
      CommandCase i s t := fun d hd hop =>
    .send d (.inr hop) (Host.Outcome.next.inj (h.symm.trans (hd.trans (congrArg _ (s.mutateAndSend_eq d)))))
  cases i with
  | on => exact hsend _ rfl (by decide)
  | off => exact hsend _ rfl (by decide)
  | auto => exact hsend _ rfl (by decide)
  | cool => exact hsend _ rfl (by decide)
  | heat => exact hsend _ rfl (by decide)
  | temp arg => exact hsend _ rfl (show 1 ≤ (6#8).toNat ∧ (6#8).toNat ≤ 7 by decide)
  | fanLevel arg =>
    cases hl : fanOfOrdinal (signedOperand arg) with
    | some l =>
      exact hsend { s.dev with fan := l } (by simp only [exec, execFanLevel, hl])
        (show 1 ≤ (7#8).toNat ∧ (7#8).toNat ≤ 7 by decide)
    | none =>
      simp only [exec, execFanLevel, hl, Host.Outcome.next.injEq] at h
      exact .store (h ▸ raiseDiag_outside s .argRange)
  | move =>
    cases h
    exact .store (.refl s)
  | encode =>
    cases h
    exact .encode rfl
  | send =>
    cases h
    exact .send s.dev (.inl rfl) (s.mutateAndSend_eq s.dev)
  | cfgWrite arg =>
    simp only [exec, execCfgWrite] at h
    split at h <;> cases h
    · exact .store ((startWrite_outside s arg).trans (State.drain_outside _ _))
    · exact .store ⟨rfl, rfl, rfl, rfl, rfl, rfl, rfl, rfl, rfl, rfl⟩
  | cfgRead arg =>
    simp only [exec, execCfgRead] at h
    split at h <;> cases h
    · exact .store ⟨rfl, rfl, rfl, rfl, rfl, rfl, rfl, rfl, rfl, rfl⟩
    · exact .store ((startRead_outside s arg).trans (State.drain_outside _ _))
  | cfgFree arg =>
    cases h
    exact .store ⟨rfl, rfl, rfl, rfl, rfl, rfl, rfl, rfl, rfl, rfl⟩
  | cfgFreeAll =>
    cases h
    exact .store ⟨rfl, rfl, rfl, rfl, rfl, rfl, rfl, rfl, rfl, rfl⟩
  | unrecognised op =>
    cases h
    exact .store (raiseDiag_outside s .unrecCmd)

/-- Everything a command can do up to its first flash call. -/
theorem beginCommand_cases {i : Instr} {s t : State} (h : beginCommand i s = .next t) : CommandCase i s t := by
  unfold beginCommand at h
  split at h
  · cases h
    exact .store (startWrite_outside s _)
  · cases h
    exact .store (startRead_outside s _)
  · exact exec_cases h

/-- Everything a write to `CMD_OP` can do, whichever span it has. -/
theorem writePort_cases {s t : State} {v : Word} {span : Span} (h : s.writePort v span = .next t) :
    CommandCase (decodeCommand (v.setWidth 8) s.cmdArg) s t := by
  cases span with
  | whole => exact exec_cases h
  | split => exact beginCommand_cases h

/-! ## Steps -/

/-- `t` has the configuration, the DeviceState, the latches and the waveform generator of `s`. -/
structure SameTransmitter (s t : State) : Prop where
  cfg    : t.cfg = s.cfg
  dev    : t.dev = s.dev
  packet : t.packet = s.packet
  frame  : t.frame = s.frame
  gen    : t.gen = s.gen

/-- What lies outside the store includes the transmitter; the schedule does not matter. -/
theorem sameTransmitter_of_outside {s t : State} (h : SameOutsideStore s t) (rest : List Event) :
    SameTransmitter s { t with sched := rest } := ⟨h.cfg, h.dev, h.packet, h.frame, h.gen⟩

/-- A host write to a register leaves the transmitter alone (R40). -/
theorem sameTransmitter_writeReg (s : State) (r : Reg) (v : Word) : SameTransmitter s (s.writeReg r v) := by
  have hitem : ∀ f, SameTransmitter s (s.writeItemField f) := fun f => by
    unfold State.writeItemField
    split <;> exact ⟨rfl, rfl, rfl, rfl, rfl⟩
  cases r with
  | ctrl =>
    rw [State.writeReg]
    split <;> exact ⟨rfl, rfl, rfl, rfl, rfl⟩
  | itemId => rw [State.writeReg]; exact hitem _
  | itemLen => rw [State.writeReg]; exact hitem _
  | itemData k => rw [State.writeReg]; exact hitem _
  | _ => exact ⟨rfl, rfl, rfl, rfl, rfl⟩

/-- What a step can do to the transmitter: nothing, a firing of the timer, a command that sets the latches or sends, or a
reset. -/
inductive TransmitterCase (s t : State) : Prop where
  | same (h : SameTransmitter s t)
  | timer (rest : List Event) (ht : t = ({ s with sched := rest } : State).timerFires)
  | encode (rest : List Event) (ht : t = ({ s with sched := rest } : State).latchFrame)
  | send (v : Word) (span : Span) (rest : List Event) (d : DeviceState)
      (hs : s.sched = .hostWrite (s.cfg.regBase + 0x010) 32 v span :: rest)
      (hd : d = s.dev ∨ 1 ≤ (v.setWidth 8).toNat ∧ (v.setWidth 8).toNat ≤ 7)
      (ht : t = sentAs { s with sched := rest } d)
  | reset (torn : Option Nat) (rest : List Event) (hs : s.sched = .reset torn :: rest)
      (ht : t = ({ s with sched := rest } : State).resetBlock torn)

/-- Everything a step can do to the transmitter. -/
theorem step_transmitterCase {s t : State} (h : step s = .next t) : TransmitterCase s t := by
  obtain ⟨-, hc⟩ := step_cases h
  cases hc with
  | call j rest hj hok ht => exact .same (ht ▸ sameTransmitter_of_outside (s.microStep_outside j) rest)
  | read r addr rest hj hs hr ht => exact .same (ht ▸ ⟨rfl, rfl, rfl, rfl, rfl⟩)
  | command v span rest hj hs ht =>
    cases writePort_cases ht with
    | store h => exact .same ⟨h.cfg, h.dev, h.packet, h.frame, h.gen⟩
    | encode ht => exact .encode rest ht
    | send d hd ht => exact .send v span rest d hs (by simpa only [opcode_decodeCommand] using hd) ht
  | write r addr v span rest hj hs hr ht =>
    obtain ⟨hcfg, hdev, hpacket, hframe, hgen⟩ := sameTransmitter_writeReg { s with sched := rest } r v
    exact .same (ht ▸ ⟨hcfg, hdev, hpacket, hframe, hgen⟩)
  | timer rest ht => exact .timer rest ht
  | idle rest ht => exact .same (ht ▸ ⟨rfl, rfl, rfl, rfl, rfl⟩)
  | reset torn rest hs ht => exact .reset torn rest hs ht

/-! ## The DeviceState -/

/-- Settles O36: of what a step can do, only a sending command and a reset write the DeviceState. -/
theorem deviceStateIsOwnedByTheInterpreter : Obligations.DeviceStateIsOwnedByTheInterpreter := by
  intro s t h hne
  cases step_transmitterCase h with
  | same h => exact absurd h.dev hne
  | timer rest ht => exact absurd (by rw [ht, State.timerFires_eq]) hne
  | encode rest ht => exact absurd (by rw [ht]; rfl) hne
  | send v span rest d hs hd ht =>
    rcases hd with hd | hd
    · exact absurd (by rw [ht, hd]; rfl) hne
    · exact .inr ⟨v, span, rest, hs, hd⟩
  | reset torn rest hs ht => exact .inl (by rw [resetIsNext, hs])

/-! ## The latches -/

/-- The latches hold a packet that begins with the magic byte, and its frame (R26, R27). -/
theorem latchInv_of_encoded {t : State} {c : Config} {d : DeviceState} (hp : t.packet = encodePacket c d)
    (hf : t.frame = frameOf (encodePacket c d)) : latchInv t = true := by
  simp [latchInv, hp, hf, encodePacket, pack]

/-- The invariant speaks of the two latches only. -/
theorem latchInv_congr {s t : State} (hp : t.packet = s.packet) (hf : t.frame = s.frame) : latchInv t = latchInv s := by
  simp only [latchInv, hp, hf]

/-- Settles O57: a step leaves the latches alone, encodes a DeviceState, or resets; ENCODE and SEND encode. -/
theorem stepKeepsTheLatchInvariant : Obligations.StepKeepsTheLatchInvariant := by
  constructor
  · intro s t hi h
    cases step_transmitterCase h with
    | same h => rw [latchInv_congr h.packet h.frame, hi]
    | timer rest ht =>
      rw [State.timerFires_eq] at ht
      rw [latchInv_congr (s := s) (by rw [ht]) (by rw [ht]), hi]
    | encode rest ht => exact ht ▸ latchInv_of_encoded rfl rfl
    | send v span rest d hs hd ht => exact ht ▸ latchInv_of_encoded rfl rfl
    | reset torn rest hs ht => rw [ht]; rfl
  · rintro i s t (rfl | rfl) h
    · cases h
      exact ⟨rfl, rfl⟩
    · cases h
      rw [s.send_eq]
      exact ⟨rfl, rfl⟩

/-! ## The emission log and the configuration -/

/-- Loss of power inside a flash call changes no parameter. -/
theorem tearCall_cfg (s : State) (j : Job) (words : Nat) : (s.tearCall j words).cfg = s.cfg := by
  have hwrite : ∀ off bs, (s.flashWriteTorn off bs words).cfg = s.cfg := fun off bs => by
    unfold State.flashWriteTorn
    dsimp only
    split <;> rfl
  cases j with
  | writeMain n => exact hwrite _ _
  | writeHeader n i off => exact hwrite _ _
  | writeData n i off => exact hwrite _ _
  | _ => rfl

/-- A reset changes no parameter (00_scope.md R9). -/
theorem resetBlock_cfg (s : State) (torn : Option Nat) : (s.resetBlock torn).cfg = s.cfg := by
  show (s.interrupted torn).cfg = s.cfg
  unfold State.interrupted
  split
  · exact tearCall_cfg s _ _
  · rfl

/-- A TICK step adds to the log (R52). -/
theorem tick_out_grows (n : Nat) (g : Generator) : g.out <+: (g.tick n).out := by
  rw [g.tick_eq]
  exact List.prefix_append _ _

/-- A transmission adds to the log, in either mode (R52; 41_waveform_generator.md R155, R170). -/
theorem sentAs_out_grows (s : State) (d : DeviceState) : s.gen.out <+: (sentAs s d).gen.out := by
  unfold sentAs
  dsimp only
  split
  · simp [transmissionDone]
  · exact List.prefix_append _ _

/-- Settles O58: every case of a step keeps the configuration, and all but a reset add to the log or leave it. -/
theorem logOnlyGrows : Obligations.LogOnlyGrows := by
  intro s t h
  cases step_transmitterCase h with
  | same h => exact ⟨h.cfg, fun _ => h.gen ▸ List.prefix_refl _⟩
  | timer rest ht =>
    rw [State.timerFires_eq] at ht
    subst ht
    refine ⟨rfl, fun _ => ?_⟩
    dsimp only
    split
    · exact tick_out_grows _ _
    · exact List.prefix_refl _
  | encode rest ht => exact ht ▸ ⟨rfl, fun _ => List.prefix_refl _⟩
  | send v span rest d hs hd ht => exact ht ▸ ⟨rfl, fun _ => sentAs_out_grows _ d⟩
  | reset torn rest hs ht =>
    refine ⟨by rw [ht, resetBlock_cfg], fun hno => ?_⟩
    rw [resetIsNext, hs] at hno
    cases hno

end Sys2Proof.Proofs
end

/-! PROOFS. A store command in flight and the host (10_state.md R45; 20_memory.md R93), and which steps have a next state
(10_state.md R24; 20_memory.md R75; 60_exceptions.md R273). -/
section
namespace Sys2Proof.Proofs
open Sys2Proof.Machine

/-! ## The command in flight -/

/-- Settles O7: the step is the waiting command's next call, which draws once and touches nothing outside the store. -/
theorem hostStallsWhileACommandRuns : Obligations.HostStallsWhileACommandRuns := by
  intro s j hl hj hok hhost
  constructor
  · rw [step_of_legalConfig hl]
    unfold hostIsNext at hhost
    split at hhost
    · next hs => simp only [State.turn, hs, State.hostTurn, hj, State.makeCall, hok, if_true]
    · next hs => simp only [State.turn, hs, State.hostTurn, hj, State.makeCall, hok, if_true]
    · cases hhost
  · have h := (s.microStep_outside j).eq
    rw [s.microStep_draws j] at h
    exact h

/-- What R74 and R75 ask of a flash call. -/
theorem flashCallOk_iff {c : Config} {off n : Nat} :
    flashCallOk c off n = true ↔ off % 4 = 0 ∧ n % 4 = 0 ∧ 0 < n ∧ off + n ≤ c.sectorSize := by
  simp only [flashCallOk, Bool.and_eq_true, decide_eq_true_eq, beq_iff_eq, and_assoc]

/-- Under the store's invariant the next flash call of a command in flight is one that R75 gives a meaning. -/
theorem targetOk_of_storeInv {s : State} {j : Job} (hl : legalConfig s.cfg = true) (h : storeInv s = true)
    (hj : s.job = some j) : j.targetOk s = true := by
  obtain ⟨hm, hjob⟩ := storeInv_iff.mp h
  obtain ⟨-, -, -, -, -, hsec4, hsec8, -, -, -⟩ := legalConfig_bounds hl
  rw [Job.targetOk, flashCallOk_iff]
  cases j with
  | writeErase n =>
    simp only [Job.target, true_and]
    omega
  | writeMain n =>
    simp only [Job.target, true_and]
    omega
  | writeHeader n i off =>
    simp only [jobInv, hj, Bool.and_eq_true, decide_eq_true_eq, beq_iff_eq] at hjob
    obtain ⟨⟨hacc, hi⟩, hoff⟩ := hjob
    have hend := end_le_of_writeAccepted hacc hm hi
    have hmod := imageTotal_mod s.items i
    simp only [Job.target, true_and]
    unfold itemSize at hend
    omega
  | writeData n i off =>
    simp only [jobInv, hj, Bool.and_eq_true, decide_eq_true_eq, beq_iff_eq] at hjob
    obtain ⟨⟨⟨hacc, hi⟩, hoff⟩, hlen⟩ := hjob
    have hend := end_le_of_writeAccepted hacc hm hi
    have hmod := imageTotal_mod s.items i
    have hpad := alignUp_mod (s.item i).len.toNat
    have hpos := alignUp_pos.mpr hlen
    simp only [Job.target]
    unfold itemSize at hend
    omega
  | readMain lim =>
    simp only [Job.target, true_and]
    omega
  | readHeader lim i off m =>
    simp only [jobInv, hj, Bool.and_eq_true, decide_eq_true_eq, beq_iff_eq] at hjob
    obtain ⟨⟨-, hoff⟩, hend⟩ := hjob
    simp only [Job.target, true_and]
    omega
  | readData lim i off m id len ck =>
    simp only [jobInv, hj, Bool.and_eq_true, decide_eq_true_eq, beq_iff_eq] at hjob
    obtain ⟨⟨⟨-, hoff⟩, hlen⟩, hend⟩ := hjob
    have hpad := alignUp_mod len.toNat
    have hpos := alignUp_pos.mpr hlen
    simp only [Job.target]
    unfold itemSize at hend
    omega

/-! ## Progress -/

/-- Every command has a next state, in every state (60_exceptions.md R273). -/
theorem exec_answers (i : Instr) (s : State) : ∃ t : State, exec i s = .next t := by
  cases i with
  | fanLevel arg =>
    cases h : fanOfOrdinal (signedOperand arg) <;> exact ⟨_, by simp only [exec, execFanLevel, h]; rfl⟩
  | cfgWrite arg =>
    simp only [exec, execCfgWrite]
    split <;> exact ⟨_, rfl⟩
  | cfgRead arg =>
    simp only [exec, execCfgRead]
    split <;> exact ⟨_, rfl⟩
  | _ => exact ⟨_, rfl⟩

/-- A write to `CMD_OP` has a next state, whichever span it has. -/
theorem writePort_answers (s : State) (v : Word) (span : Span) : ∃ t : State, s.writePort v span = .next t := by
  cases span with
  | whole => exact exec_answers _ s
  | split =>
    simp only [State.writePort, beginCommand]
    split
    · exact ⟨_, rfl⟩
    · exact ⟨_, rfl⟩
    · exact exec_answers _ s

/-- An access that R24 gives a meaning reaches a register. -/
theorem decodeAccess_of_legal {c : Config} {addr width : Nat} (h : legalAccess c addr width = true) :
    ∃ r : Reg, decodeAccess c addr width = .ok r := by
  simp only [legalAccess, Bool.and_eq_true, decide_eq_true_eq, beq_iff_eq] at h
  obtain ⟨⟨⟨rfl, hlo⟩, hhi⟩, h4⟩ := h
  obtain ⟨off, rfl⟩ := Nat.exists_eq_add_of_le hlo
  exact ⟨_, decodeAccess_of_offset c (by omega) (by omega)⟩

/-- A host read that R24 gives a meaning has a next state. -/
theorem hostReads_answers {s : State} {addr width : Nat} (h : legalAccess s.cfg addr width = true) :
    ∃ t : State, s.hostReads addr width = .next t := by
  obtain ⟨r, hr⟩ := decodeAccess_of_legal h
  simp only [State.hostReads, hr]
  exact ⟨_, rfl⟩

/-- A host write that R24 gives a meaning has a next state. -/
theorem hostWrites_answers {s : State} {addr width : Nat} (v : Word) (span : Span)
    (h : legalAccess s.cfg addr width = true) : ∃ t : State, s.hostWrites addr width v span = .next t := by
  obtain ⟨r, hr⟩ := decodeAccess_of_legal h
  simp only [State.hostWrites, hr]
  split
  · exact writePort_answers s v span
  · exact ⟨_, rfl⟩
  · next h => cases h

/-- A flash call that R75 gives a meaning has a next state, whatever the schedule. -/
theorem makeCall_answers {s : State} {j : Job} (rest : List Event) (h : j.targetOk s = true) :
    ∃ t : State, ({ s with sched := rest } : State).makeCall j = .next t := by
  have hok : j.targetOk ({ s with sched := rest } : State) = true := by
    rw [← h]
    cases j <;> rfl
  exact ⟨_, if_pos hok⟩

/-- The host's turn has a next state if the call that stalls it or its access does. -/
theorem hostTurn_answers {s : State} {rest : List Event} {access : State → Host.Outcome State Fault Refusal}
    (hcall : ∀ j, s.job = some j → j.targetOk s = true)
    (hacc : s.job = none → ∃ t : State, access { s with sched := rest } = .next t) :
    ∃ t : State, s.hostTurn rest access = .next t := by
  unfold State.hostTurn
  split
  · next j hj => exact makeCall_answers s.sched (hcall j hj)
  · next hj => exact hacc hj

/-- Settles O52: by the event at the head of the schedule; the invariant makes every flash call one with a meaning. -/
theorem stepsStopOnlyOnBadAccesses : Obligations.StepsStopOnlyOnBadAccesses := by
  intro s hinv hacc
  simp only [State.inv, Bool.and_eq_true] at hinv
  obtain ⟨⟨⟨hl, -⟩, hstore⟩, -⟩ := hinv
  have hcall : ∀ j, s.job = some j → j.targetOk s = true := fun j => targetOk_of_storeInv hl hstore
  have hlegal : s.job = none → nextAccessLegal s = true := fun hj => by simpa [hj] using hacc
  unfold nextAccessLegal at hlegal
  rw [step_of_legalConfig hl]
  unfold State.turn
  split
  · unfold State.idleTurn
    split
    · next j hj => exact makeCall_answers s.sched (hcall j hj)
    · exact ⟨_, rfl⟩
  · next hs => exact hostTurn_answers hcall fun hj => hostReads_answers (by simpa only [hs] using hlegal hj)
  · next v span rest hs =>
    exact hostTurn_answers hcall fun hj => hostWrites_answers v span (by simpa only [hs] using hlegal hj)
  · exact ⟨_, rfl⟩
  · next rest hs =>
    split
    · next j hj => exact makeCall_answers rest (hcall j hj)
    · exact ⟨_, rfl⟩
  · exact ⟨_, rfl⟩

end Sys2Proof.Proofs
end

/-! PROOFS. `DIAG` is an output only (10_state.md R43, 60_exceptions.md R270): setting bits of it before a command and after
the command come to the same. -/
section
namespace Sys2Proof.Proofs
open Sys2Proof.Machine

/-- The state with the bits of `d` set in `DIAG`. -/
def withDiagBits (s : State) (d : Byte) : State := { s with diag := d ||| s.diag }

/-- Every state is one with `DIAG` clear and its bits set again, and so is the state with any other `DIAG`. -/
theorem withDiagBits_clear (s : State) (d : Byte) : withDiagBits { s with diag := 0 } d = { s with diag := d } := by
  simp [withDiagBits]

/-! ## The operations of a store command -/

section
variable (s : State) (d : Byte)

theorem raiseDiag_withDiagBits (b : DiagBit) : (withDiagBits s d).raiseDiag b = withDiagBits (s.raiseDiag b) d := by
  simp only [withDiagBits, State.raiseDiag, BitVec.or_assoc]

theorem flashErase_withDiagBits : (withDiagBits s d).flashErase = withDiagBits s.flashErase d := by
  unfold State.flashErase
  rw [show (withDiagBits s d).callOk = s.callOk from rfl]
  split
  · rfl
  · exact raiseDiag_withDiagBits { s.drawn with flash := s.flash.writeBytes 0 (s.freeBytes s.cfg.sectorSize) } d _

theorem flashWrite_withDiagBits (off : Nat) (bs : List Byte) :
    (withDiagBits s d).flashWrite off bs = withDiagBits (s.flashWrite off bs) d := by
  unfold State.flashWrite
  rw [show (withDiagBits s d).callOk = s.callOk from rfl]
  split
  · rfl
  · exact raiseDiag_withDiagBits { s.drawn with flash := s.flash.writeBytes off (s.freeBytes bs.length) } d _

theorem flashReadDone_withDiagBits : (withDiagBits s d).flashReadDone = withDiagBits s.flashReadDone d := by
  unfold State.flashReadDone
  rw [show (withDiagBits s d).callOk = s.callOk from rfl]
  split
  · rfl
  · exact raiseDiag_withDiagBits s.drawn d _

theorem nextWrite_withDiagBits (n i off : Nat) :
    (withDiagBits s d).nextWrite n i off = withDiagBits (s.nextWrite n i off) d := by
  unfold State.nextWrite
  split <;> rfl

/-- The end of a CFG_READ that raises a condition. -/
theorem raiseDiag_finishRead_withDiagBits (b : DiagBit) (i : Nat) :
    ((withDiagBits s d).raiseDiag b).finishRead i = withDiagBits ((s.raiseDiag b).finishRead i) d :=
  congrArg (State.finishRead · i) (raiseDiag_withDiagBits s d b)

theorem nextRead_withDiagBits (lim i off : Nat) (m : Int) :
    (withDiagBits s d).nextRead lim i off m = withDiagBits (s.nextRead lim i off m) d := by
  unfold State.nextRead State.closeRead
  rw [show (withDiagBits s d).cfg = s.cfg from rfl]
  split <;> split
  · exact raiseDiag_finishRead_withDiagBits s d _ i
  · rfl
  · exact raiseDiag_finishRead_withDiagBits s d _ i
  · rfl

theorem discardItem_withDiagBits (i : Nat) (id : Byte) (ck : BitVec 16) :
    (withDiagBits s d).discardItem i id ck = withDiagBits (s.discardItem i id ck) d :=
  raiseDiag_withDiagBits { s.advanced with
    items := s.items.set i { alloc := false, id := id, len := 0, cksum := ck, data := s.freeData } } d .cksumFail

theorem verifyItem_withDiagBits (lim i off : Nat) (m : Int) (id len : Byte) (ck : BitVec 16) (data : List Byte) :
    (withDiagBits s d).verifyItem lim i off m id len ck data =
      withDiagBits (s.verifyItem lim i off m id len ck data) d := by
  unfold State.verifyItem
  rw [show (withDiagBits s d).cfg = s.cfg from rfl]
  dsimp only
  split
  · exact nextRead_withDiagBits (s.fillItem i id len ck (data.take len.toNat)) d _ _ _ _
  · exact congrArg (State.finishRead · i) (discardItem_withDiagBits s d i id ck)

theorem afterMain_withDiagBits (lim : Nat) (h : List Byte) :
    (withDiagBits s d).afterMain lim h = withDiagBits (s.afterMain lim h) d := by
  unfold State.afterMain
  split
  · exact nextRead_withDiagBits { s with rdEmpty := false } d _ _ _ _
  · rfl

theorem afterHeader_withDiagBits (lim i off : Nat) (m : Int) (h : List Byte) :
    (withDiagBits s d).afterHeader lim i off m h = withDiagBits (s.afterHeader lim i off m h) d := by
  unfold State.afterHeader
  rw [show (withDiagBits s d).cfg = s.cfg from rfl]
  dsimp only
  split
  · exact raiseDiag_finishRead_withDiagBits s d _ i
  · split
    · rfl
    · exact verifyItem_withDiagBits s d _ _ _ _ _ _ _ _

/-- A micro-step adds to `DIAG` and reads nothing of it. -/
theorem microStep_withDiagBits (j : Job) : (withDiagBits s d).microStep j = withDiagBits (s.microStep j) d := by
  cases j with
  | writeErase n =>
    exact congrArg (fun t : State => { t with job := some (.writeMain n) }) (flashErase_withDiagBits s d)
  | writeMain n =>
    have hw := flashWrite_withDiagBits s d 0 (Job.program s (.writeMain n))
    exact (congrArg (State.nextWrite · n 0 4) hw).trans (nextWrite_withDiagBits _ d _ _ _)
  | writeHeader n i off =>
    have hw := flashWrite_withDiagBits (s.latchChecksum i) d off (Job.program s (.writeHeader n i off))
    have hlatch : (withDiagBits s d).latchChecksum i = withDiagBits (s.latchChecksum i) d := rfl
    have hitem : (withDiagBits s d).item i = s.item i := rfl
    have hprog : Job.program (withDiagBits s d) (.writeHeader n i off) = Job.program s (.writeHeader n i off) := rfl
    simp only [State.microStep, hlatch, hitem, hprog, hw]
    split
    · rfl
    · exact nextWrite_withDiagBits _ d _ _ _
  | writeData n i off =>
    have hw := flashWrite_withDiagBits s d (off + 4) (Job.program s (.writeData n i off))
    exact (congrArg (State.nextWrite · n (i + 1) (off + itemSize (s.item i).len.toNat)) hw).trans
      (nextWrite_withDiagBits _ d _ _ _)
  | readMain lim =>
    exact (congrArg (State.afterMain · lim (s.flashReadBytes 0 4)) (flashReadDone_withDiagBits s d)).trans
      (afterMain_withDiagBits _ d _ _)
  | readHeader lim i off m =>
    exact (congrArg (State.afterHeader · lim i off m (s.flashReadBytes off 4)) (flashReadDone_withDiagBits s d)).trans
      (afterHeader_withDiagBits _ d _ _ _ _ _)
  | readData lim i off m id len ck =>
    exact (congrArg (State.verifyItem · lim i off m id len ck (s.flashReadBytes (off + 4) (alignUp len.toNat)))
      (flashReadDone_withDiagBits s d)).trans (verifyItem_withDiagBits _ d _ _ _ _ _ _ _ _)

end

/-- A store command run on adds to `DIAG` and reads nothing of it. -/
theorem drain_withDiagBits (s : State) (d : Byte) (k : Nat) : (withDiagBits s d).drain k = withDiagBits (s.drain k) d := by
  induction k generalizing s with
  | zero => rfl
  | succ k ih =>
    cases h : s.job with
    | none => rw [State.drain_none h, State.drain_none (s := withDiagBits s d) h]
    | some j => rw [State.drain_succ h, State.drain_succ (s := withDiagBits s d) h, microStep_withDiagBits, ih]

/-! ## Commands -/

theorem refuseWrite_withDiagBits (s : State) (d : Byte) : (withDiagBits s d).refuseWrite = withDiagBits s.refuseWrite d :=
  raiseDiag_withDiagBits { s with wrErr := true } d .wrRefused

theorem refuseRead_withDiagBits (s : State) (d : Byte) : (withDiagBits s d).refuseRead = withDiagBits s.refuseRead d :=
  raiseDiag_withDiagBits { s with rdCount := 0, rdEmpty := false } d .rdBusy

theorem startWrite_withDiagBits (s : State) (d : Byte) (arg : Word) :
    (withDiagBits s d).startWrite arg = withDiagBits (s.startWrite arg) d := by
  unfold State.startWrite
  rw [show writeAccepted (withDiagBits s d) (countOperand arg) = writeAccepted s (countOperand arg) from rfl]
  split
  · rfl
  · exact refuseWrite_withDiagBits s d

theorem startRead_withDiagBits (s : State) (d : Byte) (arg : Word) :
    (withDiagBits s d).startRead arg = withDiagBits (s.startRead arg) d := by
  unfold State.startRead
  rw [show readBusy (withDiagBits s d) (limitCount (withDiagBits s d).cfg arg) = readBusy s (limitCount s.cfg arg) from rfl]
  split
  · exact refuseRead_withDiagBits s d
  · rfl

/-- Sending a DeviceState commutes with setting bits of `DIAG`. -/
theorem mutateAndSend_withDiagBits (s : State) (d : Byte) (v : DeviceState) :
    (withDiagBits s d).mutateAndSend v = withDiagBits (s.mutateAndSend v) d := by
  rw [State.mutateAndSend_eq, State.mutateAndSend_eq]
  rfl

/-- Every command commutes with setting bits of `DIAG`. -/
theorem exec_withDiagBits {i : Instr} {s t : State} (h : exec i s = .next t) (d : Byte) :
    exec i (withDiagBits s d) = .next (withDiagBits t d) := by
  have hsend := mutateAndSend_withDiagBits s d
  cases i with
  | fanLevel arg =>
    simp only [exec, execFanLevel] at h ⊢
    split at h <;> cases h
    · exact congrArg _ (hsend _)
    · exact congrArg _ (raiseDiag_withDiagBits s d _)
  | cfgWrite arg =>
    have hacc : writeAccepted (withDiagBits s d) (countOperand arg) = writeAccepted s (countOperand arg) := rfl
    simp only [exec, execCfgWrite, hacc, startWrite_withDiagBits, drain_withDiagBits, refuseWrite_withDiagBits] at h ⊢
    split at h <;> cases h
    · next hok => exact if_pos hok
    · next hok => exact if_neg hok
  | cfgRead arg =>
    have hbusy : readBusy (withDiagBits s d) (limitCount (withDiagBits s d).cfg arg) =
        readBusy s (limitCount s.cfg arg) := rfl
    simp only [exec, execCfgRead, hbusy, startRead_withDiagBits, drain_withDiagBits, refuseRead_withDiagBits] at h ⊢
    split at h <;> cases h
    · next hno => exact if_pos hno
    · next hno => exact if_neg hno
  | on | off | auto | cool | heat | temp arg => cases h; exact congrArg _ (hsend _)
  | send => cases h; exact congrArg _ (hsend s.dev)
  | unrecognised op => cases h; exact congrArg _ (raiseDiag_withDiagBits s d _)
  | move | encode | cfgFree arg | cfgFreeAll => cases h; rfl

/-- Settles O60: both runs are the run from a clear `DIAG` with other bits set, so the bits added are the ones of that run. -/
theorem diagnosticsInfluenceNothing : Obligations.DiagnosticsInfluenceNothing := by
  intro i s t d h
  obtain ⟨u, hu⟩ := exec_answers i { s with diag := 0 }
  have hrun : ∀ e : Byte, exec i { s with diag := e } = .next (withDiagBits u e) := fun e => by
    rw [← withDiagBits_clear]
    exact exec_withDiagBits hu e
  obtain rfl : t = withDiagBits u s.diag := Host.Outcome.next.inj (h.symm.trans (hrun s.diag))
  exact ⟨withDiagBits u d, u.diag, hrun d, rfl, rfl⟩

end Sys2Proof.Proofs
end

/-! PROOFS. The memories and the store command in flight (20_memory.md R70 to R93, 42_config_store.md R200 to R221): what a
command begins, what a step keeps, and a command run call by call. -/
section
namespace Sys2Proof.Proofs
open Sys2Proof.Machine

/-! ## What a command begins -/

/-- `t` has the configuration, both memories, the job and the schedule of `s`. -/
structure SameMemories (s t : State) : Prop where
  cfg   : t.cfg = s.cfg
  flash : t.flash = s.flash
  items : t.items = s.items
  job   : t.job = s.job
  sched : t.sched = s.sched

theorem sameMemories_raiseDiag (s : State) (b : DiagBit) : SameMemories s (s.raiseDiag b) := ⟨rfl, rfl, rfl, rfl, rfl⟩

/-- What a command does to the memories and the job up to its first flash call: nothing, or the first slots are freed, or an
accepted CFG_WRITE or CFG_READ comes to its first call (42_config_store.md R200, R209, R220, R221). -/
inductive BeginCase (i : Instr) (s t : State) : Prop where
  | same (h : SameMemories s t)
  | free (n : Nat) (ht : t = { s with items := freeSlots n s.items })
  | write (arg : Word) (n : Nat) (hi : i = .cfgWrite arg) (hacc : writeAccepted s n = true)
      (ht : t = { s with job := some (.writeErase n) })
  | read (arg : Word) (lim : Nat) (hi : i = .cfgRead arg) (hlim : lim ≤ s.cfg.maxItems) (hfree : slotsFree s 0 lim = true)
      (ht : t = { s with job := some (.readMain lim) })

/-- No slot that CFG_READ may fill holds an unfreed blob, unless it is refused (R209). -/
theorem slotsFree_of_not_readBusy {s : State} {lim : Nat} (h : ¬ readBusy s lim = true) : slotsFree s 0 lim = true := by
  simpa [readBusy, slotsFree] using h

/-- Everything a command can do to the memories and the job up to its first flash call. -/
theorem beginCommand_beginCase {i : Instr} {s t : State} (h : beginCommand i s = .next t) : BeginCase i s t := by
  have hsend : ∀ d, SameMemories s (s.mutateAndSend d) := fun d => by
    rw [State.mutateAndSend_eq]
    exact ⟨rfl, rfl, rfl, rfl, rfl⟩
  cases i with
  | on | off | auto | cool | heat | temp arg => cases h; exact .same (hsend _)
  | fanLevel arg =>
    simp only [beginCommand, exec, execFanLevel] at h
    split at h <;> cases h
    · exact .same (hsend _)
    · exact .same (sameMemories_raiseDiag s _)
  | send => cases h; exact .same (hsend s.dev)
  | move | encode => cases h; exact .same ⟨rfl, rfl, rfl, rfl, rfl⟩
  | unrecognised op => cases h; exact .same (sameMemories_raiseDiag s _)
  | cfgFree arg | cfgFreeAll => cases h; exact .free _ rfl
  | cfgWrite arg =>
    cases h
    unfold State.startWrite
    split
    · next hacc => exact .write arg _ rfl hacc rfl
    · exact .same ⟨rfl, rfl, rfl, rfl, rfl⟩
  | cfgRead arg =>
    cases h
    unfold State.startRead
    split
    · exact .same ⟨rfl, rfl, rfl, rfl, rfl⟩
    · next hfree => exact .read arg _ rfl (Nat.min_le_right _ _) (slotsFree_of_not_readBusy hfree) rfl

/-- Beginning a command changes neither the configuration nor the schedule. -/
theorem BeginCase.cfg_sched {i : Instr} {s t : State} (h : BeginCase i s t) : t.cfg = s.cfg ∧ t.sched = s.sched := by
  cases h with
  | same h => exact ⟨h.cfg, h.sched⟩
  | free n ht => exact ht ▸ ⟨rfl, rfl⟩
  | write arg n hi hacc ht => exact ht ▸ ⟨rfl, rfl⟩
  | read arg lim hi hlim hfree ht => exact ht ▸ ⟨rfl, rfl⟩

/-- Every command can be begun. -/
theorem beginCommand_answers (i : Instr) (s : State) : ∃ t : State, beginCommand i s = .next t := by
  unfold beginCommand
  split
  · exact ⟨_, rfl⟩
  · exact ⟨_, rfl⟩
  · exact exec_answers _ s

/-- A command run whole is the command begun and then run on to its end (20_memory.md R93). -/
theorem exec_eq_drain {i : Instr} {s t : State} (hj : s.job = none) (h : beginCommand i s = .next t) :
    exec i s = .next (t.drain (storeFuel s.cfg)) := by
  have hcase := beginCommand_beginCase h
  unfold beginCommand at h
  split at h
  · next arg =>
    cases h
    simp only [exec, execCfgWrite]
    split
    · rfl
    · next hno => rw [State.startWrite, if_neg hno, State.drain_none (s.refuseWrite_job.trans hj)]
  · next arg =>
    cases h
    simp only [exec, execCfgRead]
    split
    · next hbusy => rw [State.startRead, if_pos hbusy, State.drain_none (s.refuseRead_job.trans hj)]
    · rfl
  · next hwrite hread =>
    have hjob : t.job = none := by
      cases hcase with
      | same hs => exact hs.job.trans hj
      | free n ht => exact ht ▸ hj
      | write arg n hi => exact (hwrite arg hi).elim
      | read arg lim hi => exact (hread arg hi).elim
    rw [State.drain_none hjob, h]

/-- A command that ran whole was begun first. -/
theorem exists_begin_of_exec {i : Instr} {s t : State} (hj : s.job = none) (h : exec i s = .next t) :
    ∃ u : State, beginCommand i s = .next u ∧ t = u.drain (storeFuel s.cfg) := by
  obtain ⟨u, hu⟩ := beginCommand_answers i s
  exact ⟨u, hu, Host.Outcome.next.inj (h.symm.trans (exec_eq_drain hj hu))⟩

/-! ## The store's invariant -/

/-- The store's invariant speaks of the configuration, the two memories and the job only. -/
theorem storeInv_congr {s t : State} (hc : t.cfg = s.cfg) (hf : t.flash = s.flash) (hi : t.items = s.items)
    (hj : t.job = s.job) : storeInv t = storeInv s := by
  obtain ⟨⟩ := s
  obtain ⟨⟩ := t
  dsimp only at hc hf hi hj
  subst hc hf hi hj
  rfl

/-- With no command in flight the store's invariant is the memories' part of it. -/
theorem storeInv_iff_of_idle {s : State} (hj : s.job = none) : storeInv s = true ↔ MemoriesOk s := by
  rw [storeInv_iff, and_iff_left]
  simp only [jobInv, hj]

/-- Freeing slots changes no data (42_config_store.md R220). -/
theorem map_data_freeSlots (n : Nat) (items : List Item) : (freeSlots n items).map Item.data = items.map Item.data := by
  induction items generalizing n with
  | nil => cases n <;> rfl
  | cons it rest ih =>
    cases n with
    | zero => rfl
    | succ n => simp only [freeSlots, List.map_cons, ih, Item.freed]

/-- Of a slot only its data matter to the memories. -/
theorem memoriesOk_of_map_data {s t : State} (h : MemoriesOk s) (hc : t.cfg = s.cfg) (hf : t.flash = s.flash)
    (hd : t.items.map Item.data = s.items.map Item.data) : MemoriesOk t := by
  have hfrom : ∀ it ∈ t.items, ∃ it' ∈ s.items, it'.data = it.data := fun it hit =>
    List.mem_map.mp (hd ▸ List.mem_map_of_mem hit)
  refine ⟨hf ▸ h.flashWf, by rw [hf, hc]; exact h.flashIn, ?_, fun it hit => ?_, fun it hit => ?_⟩
  · rw [hc, ← h.length]
    simpa using congrArg List.length hd
  · obtain ⟨it', hit', heq⟩ := hfrom it hit
    exact heq ▸ h.dataWf it' hit'
  · obtain ⟨it', hit', heq⟩ := hfrom it hit
    exact heq ▸ h.dataIn it' hit'

/-- Beginning a command keeps the store's invariant. -/
theorem storeInv_of_beginCase {i : Instr} {s t : State} (hinv : storeInv s = true) (hj : s.job = none)
    (h : BeginCase i s t) : storeInv t = true := by
  have hm := (storeInv_iff.mp hinv).1
  cases h with
  | same h => rw [storeInv_congr h.cfg h.flash h.items h.job, hinv]
  | free n ht =>
    subst ht
    exact (storeInv_iff_of_idle (s := { s with items := freeSlots n s.items }) hj).mpr
      (memoriesOk_of_map_data hm rfl rfl (map_data_freeSlots n s.items))
  | write arg n hi hacc ht =>
    subst ht
    exact storeInv_iff.mpr ⟨hm.of rfl rfl rfl, hacc⟩
  | read arg lim hi hlim hfree ht =>
    subst ht
    refine storeInv_iff.mpr ⟨hm.of rfl rfl rfl, ?_⟩
    simp only [jobInv, Bool.and_eq_true, decide_eq_true_eq]
    exact ⟨hlim, hfree⟩

/-- A command issued, whole or split, keeps the store's invariant. -/
theorem storeInv_writePort {s t : State} {v : Word} {span : Span} (hl : legalConfig s.cfg = true)
    (hinv : storeInv s = true) (hj : s.job = none) (h : s.writePort v span = .next t) : storeInv t = true := by
  cases span with
  | split => exact storeInv_of_beginCase hinv hj (beginCommand_beginCase h)
  | whole =>
    obtain ⟨u, hu, rfl⟩ := exists_begin_of_exec hj h
    have hcase := beginCommand_beginCase hu
    obtain ⟨hcfg, -⟩ := hcase.cfg_sched
    exact storeInv_drain (hcfg ▸ hl) (storeInv_of_beginCase hinv hj hcase) _

/-! ## Host writes -/

/-- The data window of the item table is the only place of its words (10_state.md R40). -/
theorem lt_of_regOfOffset_eq_itemData {off k : Nat} (h : regOfOffset off = .itemData k) : k < 64 := by
  by_cases hwin : 0x100 ≤ off ∧ off < 0x200
  · simp (disch := omega) only [regOfOffset, if_neg, if_pos hwin, Reg.itemData.injEq] at h
    omega
  · simp only [regOfOffset, hwin, if_false] at h
    refine absurd h ?_
    iterate 22 refine ite_ne nofun ?_
    nofun

/-- A write to the item window keeps the memories in order when it does so for each slot's data. -/
theorem memoriesOk_writeItemField {s : State} {f : Item → Item} (h : MemoriesOk s)
    (hf : ∀ it : Item, it.data.wf = true → it.data.within 256 = true →
      (f it).data.wf = true ∧ (f it).data.within 256 = true) : MemoriesOk (s.writeItemField f) := by
  unfold State.writeItemField
  split
  · next hsel =>
    have hmem : s.selectedItem ∈ s.items := State.item_mem (by rw [h.length]; exact of_decide_eq_true hsel)
    obtain ⟨hwf, hin⟩ := hf s.selectedItem (h.dataWf _ hmem) (h.dataIn _ hmem)
    exact h.set rfl rfl rfl hwf hin
  · exact h

/-- A host write that the map accepts keeps the memories in order (R46). -/
theorem memoriesOk_writeReg {s : State} {c : Config} {addr : Nat} {r : Reg} (h : MemoriesOk s)
    (hr : decodeAccess c addr 32 = .ok r) (v : Word) : MemoriesOk (s.writeReg r v) := by
  cases r with
  | ctrl =>
    rw [State.writeReg]
    split
    · exact h.of rfl rfl rfl
    · exact h
  | itemId | itemLen =>
    rw [State.writeReg]
    exact memoriesOk_writeItemField h fun _ hwf hin => ⟨hwf, hin⟩
  | itemData k =>
    obtain ⟨-, -, -, -, hoff⟩ := decodeAccess_ok hr
    have hk : k < 64 := lt_of_regOfOffset_eq_itemData hoff.symm
    rw [State.writeReg]
    refine memoriesOk_writeItemField h fun it hwf hin =>
      ⟨Memory.writeBytes_wf hwf _ _, Memory.writeBytes_within hin ?_⟩
    simp only [List.length_cons, List.length_nil]
    omega
  | _ => exact h.of rfl rfl rfl

/-- A host write to a register leaves the job alone. -/
theorem writeReg_job (s : State) (r : Reg) (v : Word) : (s.writeReg r v).job = s.job := by
  have hitem : ∀ f, (s.writeItemField f).job = s.job := fun f => by
    unfold State.writeItemField
    split <;> rfl
  cases r with
  | ctrl =>
    rw [State.writeReg]
    split <;> rfl
  | itemId | itemLen | itemData k => exact hitem _
  | _ => rfl

/-! ## Reset and loss of power -/

/-- A flash write inside the sector that loses power keeps the memories in order (70_reset_and_hazards.md R305). -/
theorem memoriesOk_flashWriteTorn {s : State} {off : Nat} {bs : List Byte} (h : MemoriesOk s)
    (hb : off + bs.length ≤ s.cfg.sectorSize) (words : Nat) : MemoriesOk (s.flashWriteTorn off bs words) := by
  have hput : ∀ new : List Byte, new.length = bs.length →
      MemoriesOk ({ s.drawn with flash := s.flash.writeBytes off new } : State) := fun new hnew =>
    ⟨Memory.writeBytes_wf h.flashWf _ _, Memory.writeBytes_within h.flashIn (hnew ▸ hb), h.length, h.dataWf, h.dataIn⟩
  unfold State.flashWriteTorn
  dsimp only
  split
  · exact hput _ (Memory.length_tornBytes _ _ _ _ _)
  · exact hput _ (s.length_freeBytes _)

/-- A flash call with a meaning that loses power keeps the memories in order. -/
theorem memoriesOk_tearCall {s : State} {j : Job} (h : MemoriesOk s) (hok : j.targetOk s = true) (words : Nat) :
    MemoriesOk (s.tearCall j words) := by
  obtain ⟨-, -, -, hin⟩ := flashCallOk_iff.mp hok
  cases j with
  | writeErase n =>
    refine ⟨Memory.writeBytes_wf h.flashWf _ _, Memory.writeBytes_within h.flashIn ?_, h.length, h.dataWf, h.dataIn⟩
    rw [s.length_freeBytes, Nat.zero_add]
    rfl
  | writeMain n => exact memoriesOk_flashWriteTorn h hin words
  | writeHeader n i off => exact memoriesOk_flashWriteTorn h hin words
  | writeData n i off =>
    refine memoriesOk_flashWriteTorn h ?_ words
    rw [Job.program, length_paddedBlob]
    exact hin
  | readMain lim | readHeader lim i off m | readData lim i off m id len ck => exact h

/-- What an interrupted command leaves has its memories in order. -/
theorem memoriesOk_interrupted {s : State} (hl : legalConfig s.cfg = true) (hinv : storeInv s = true) (torn : Option Nat) :
    MemoriesOk (s.interrupted torn) := by
  have hm := (storeInv_iff.mp hinv).1
  unfold State.interrupted
  split
  · next j words hj => exact memoriesOk_tearCall hm (targetOk_of_storeInv hl hinv hj) words
  · exact hm

/-- Any data a slot can hold after a reset are in canonical form and 256 bytes long (R304). -/
theorem resetData_ok (s : State) (i : Nat) : (s.resetData i).wf = true ∧ (s.resetData i).within 256 = true :=
  ⟨Memory.writeBytes_wf rfl _ _, Memory.writeBytes_within rfl (by simp)⟩

/-- The reset values keep the flash and give every slot data of the right form (R300, R301). -/
theorem storeInv_restart {s : State} (h : MemoriesOk s) : storeInv s.restart = true := by
  have hitems : s.restart.items =
      (List.range s.cfg.maxItems).map (fun i => { Item.reset with data := s.resetData i }) := rfl
  have hlen : s.restart.items.length = s.cfg.maxItems := by rw [hitems, List.length_map, List.length_range]
  have hdata : ∀ it ∈ s.restart.items, it.data.wf = true ∧ it.data.within 256 = true := fun it hit => by
    rw [hitems] at hit
    obtain ⟨i, -, rfl⟩ := List.mem_map.mp hit
    dsimp only
    exact resetData_ok s i
  exact (storeInv_iff_of_idle rfl).mpr ⟨h.flashWf, h.flashIn, hlen, fun it hit => (hdata it hit).1,
    fun it hit => (hdata it hit).2⟩

/-! ## Every step -/

/-- The schedule is no part of the store's invariant. -/
theorem storeInv_sched (s : State) (rest : List Event) : storeInv { s with sched := rest } = storeInv s :=
  storeInv_congr rfl rfl rfl rfl

/-- Settles O56: by what a step can do; a flash call keeps the invariant by `storeInv_microStep`, a command by what it begins,
and a reset because the call it interrupts lies in the sector. -/
theorem stepKeepsTheStoreInvariant : Obligations.StepKeepsTheStoreInvariant := by
  intro s t hinv h
  obtain ⟨hl, hcase⟩ := step_cases h
  have hrest : ∀ rest, storeInv { s with sched := rest } = true := fun rest => (storeInv_sched s rest).trans hinv
  cases hcase with
  | call j rest hj hok ht => rw [ht, storeInv_sched, storeInv_microStep hl hinv hj]
  | read r addr rest hj hs hr ht => exact ht ▸ (storeInv_congr rfl rfl rfl rfl).trans hinv
  | command v span rest hj hs ht =>
    exact storeInv_writePort (s := { s with sched := rest }) hl (hrest rest) hj ht
  | write r addr v span rest hj hs hr ht =>
    rw [ht, storeInv_iff_of_idle ((writeReg_job { s with sched := rest } r v).trans hj)]
    exact memoriesOk_writeReg (storeInv_iff.mp (hrest rest)).1 hr v
  | timer rest ht =>
    rw [State.timerFires_eq] at ht
    exact ht ▸ (storeInv_congr rfl rfl rfl rfl).trans hinv
  | idle rest ht => exact ht ▸ hrest rest
  | reset torn rest hs ht =>
    exact ht ▸ storeInv_restart (memoriesOk_interrupted (s := { s with sched := rest }) hl (hrest rest) torn)

/-! ## Who changes the flash -/

/-- `t` has the flash of `s`, and its job, if any, reads next. -/
def Reading (s t : State) : Prop := t.flash = s.flash ∧ ∀ j, t.job = some j → j.reads = true

/-- A read that has ended. -/
theorem reading_of_idle {s t : State} (hf : t.flash = s.flash) (hj : t.job = none) : Reading s t :=
  ⟨hf, fun j h => by rw [hj] at h; cases h⟩

/-- A read that goes on. -/
theorem reading_of_job {s t : State} {j : Job} (hf : t.flash = s.flash) (hj : t.job = some j) (hr : j.reads = true) :
    Reading s t :=
  ⟨hf, fun k h => by obtain rfl : j = k := Option.some.inj (hj.symm.trans h); exact hr⟩

theorem reading_nextRead (s : State) (lim i off : Nat) (m : Int) : Reading s (s.nextRead lim i off m) := by
  unfold State.nextRead State.closeRead
  split <;> split
  · exact reading_of_idle rfl rfl
  · exact reading_of_job rfl rfl rfl
  · exact reading_of_idle rfl rfl
  · exact reading_of_idle rfl rfl

theorem reading_verifyItem (s : State) (lim i off : Nat) (m : Int) (id len : Byte) (ck : BitVec 16) (data : List Byte) :
    Reading s (s.verifyItem lim i off m id len ck data) := by
  unfold State.verifyItem
  dsimp only
  split
  · exact reading_nextRead (s.fillItem i id len ck (data.take len.toNat)) _ _ _ _
  · exact reading_of_idle rfl rfl

theorem reading_afterMain (s : State) (lim : Nat) (h : List Byte) : Reading s (s.afterMain lim h) := by
  unfold State.afterMain
  split
  · exact reading_nextRead { s with rdEmpty := false } _ _ _ _
  · exact reading_of_idle rfl rfl

theorem reading_afterHeader (s : State) (lim i off : Nat) (m : Int) (h : List Byte) :
    Reading s (s.afterHeader lim i off m h) := by
  unfold State.afterHeader
  dsimp only
  split
  · exact reading_of_idle rfl rfl
  · split
    · exact reading_of_job rfl rfl rfl
    · exact reading_verifyItem s _ _ _ _ _ _ _ _

/-- A read leaves the flash alone, and a read or nothing comes after it (20_memory.md R84). -/
theorem reading_microStep (s : State) {j : Job} (h : j.reads = true) : Reading s (s.microStep j) := by
  have hdone : ∀ t, Reading s.flashReadDone t → Reading s t := fun t ht =>
    ⟨ht.1.trans (sameStore_flashReadDone s).flash, ht.2⟩
  cases j with
  | writeErase | writeMain | writeHeader | writeData => cases h
  | readMain lim => exact hdone _ (reading_afterMain _ _ _)
  | readHeader lim i off m => exact hdone _ (reading_afterHeader _ _ _ _ _ _)
  | readData lim i off m id len ck => exact hdone _ (reading_verifyItem _ _ _ _ _ _ _ _ _)

/-- CFG_READ run to its end leaves the flash alone. -/
theorem reading_drain {s t : State} (h : Reading s t) (k : Nat) : Reading s (t.drain k) := by
  induction k generalizing t with
  | zero => exact h
  | succ k ih =>
    obtain ⟨hf, hreads⟩ := h
    cases hj : t.job with
    | none =>
      rw [State.drain_none hj]
      exact ⟨hf, hreads⟩
    | some j =>
      obtain ⟨hf', hreads'⟩ := reading_microStep t (hreads j hj)
      rw [State.drain_succ hj]
      exact ih ⟨hf'.trans hf, hreads'⟩

/-- What any command but CFG_WRITE begins leaves the flash alone and goes on, if at all, with reads. -/
theorem reading_of_beginCase {i : Instr} {s t : State} (hj : s.job = none) (h : BeginCase i s t)
    (hno : ¬ ∃ n : Word, i = .cfgWrite n) : Reading s t := by
  cases h with
  | same h => exact reading_of_idle h.flash (h.job.trans hj)
  | free n ht => exact ht ▸ reading_of_idle rfl hj
  | write arg n hi => exact (hno ⟨arg, hi⟩).elim
  | read arg lim hi hlim hfree ht => exact ht ▸ reading_of_job rfl rfl rfl

/-- Settles O49: a command but CFG_WRITE begins as a read or as nothing, and runs on by reads. -/
theorem onlyCfgWriteChangesFlash : Obligations.OnlyCfgWriteChangesFlash := by
  intro i s t hj h hne
  by_contra hno
  obtain ⟨u, hu, rfl⟩ := exists_begin_of_exec hj h
  exact hne (reading_drain (reading_of_beginCase hj (beginCommand_beginCase hu) hno) _).1

/-! ## A command call by call -/

/-- Settles O50: a TICK step replaces the waveform generator, which a flash call neither reads nor writes. -/
theorem ticksCommuteWithFlashCalls : Obligations.TicksCommuteWithFlashCalls := by
  intro s j
  have hout := s.microStep_outside j
  have hcomm := s.microStep_withOthers (if s.gen.timerEn then s.gen.tick s.cfg.nSub else s.gen) s.sched s.rdata j
  rw [s.timerFires_eq, State.timerFires_eq, hout.gen, hout.cfg]
  refine Eq.trans ?_ hcomm.symm
  rw [State.withOthers, ← hout.sched, ← hout.rdata, ← hout.cfg]

/-- The parts of the block's invariant that flash calls rest on. -/
theorem storeInv_of_inv {s : State} (h : s.inv = true) : legalConfig s.cfg = true ∧ storeInv s = true := by
  simp only [State.inv, Bool.and_eq_true] at h
  obtain ⟨⟨⟨hl, -⟩, hstore⟩, -⟩ := h
  exact ⟨hl, hstore⟩

/-- With nothing left in the schedule a step is the next flash call of the command in flight (20_memory.md R93). -/
theorem step_flashCall {s : State} {j : Job} (hl : legalConfig s.cfg = true) (hinv : storeInv s = true)
    (hs : s.sched = []) (hj : s.job = some j) : step s = .next (s.microStep j) := by
  simp only [step_of_legalConfig hl, State.turn, hs, State.idleTurn, hj, State.makeCall,
    targetOk_of_storeInv hl hinv hj, if_true]

/-- Left alone, a command in flight runs on to its end step by step. -/
theorem run_eq_drain {s : State} (hl : legalConfig s.cfg = true) (hinv : storeInv s = true) (hs : s.sched = [])
    (fuel : Nat) : ∃ k : Nat, k ≤ fuel ∧ core.run k s = .next (s.drain fuel) := by
  induction fuel generalizing s with
  | zero => exact ⟨0, Nat.le_refl 0, rfl⟩
  | succ fuel ih =>
    cases hj : s.job with
    | none => exact ⟨0, Nat.zero_le _, by rw [State.drain_none hj]; rfl⟩
    | some j =>
      have hout := s.microStep_outside j
      obtain ⟨k, hk, hrun⟩ :=
        ih (s := s.microStep j) (hout.cfg ▸ hl) (storeInv_microStep hl hinv hj) (hout.sched.trans hs)
      refine ⟨k + 1, Nat.succ_le_succ hk, ?_⟩
      rw [core_run_succ (step_flashCall hl hinv hs hj), hrun, State.drain_succ hj]

/-- Settles O51: the first step begins the command, and the following ones run it on as `exec` does. -/
theorem splitCommandEndsLikeTheWhole : Obligations.SplitCommandEndsLikeTheWhole := by
  intro s t v hinv hj hs h
  obtain ⟨hl, hstore⟩ := storeInv_of_inv hinv
  obtain ⟨u, hu, rfl⟩ := exists_begin_of_exec (s := { s with sched := [] }) hj h
  have hcase := beginCommand_beginCase hu
  obtain ⟨hcfg, hsched⟩ := hcase.cfg_sched
  have hstore' : storeInv u = true := storeInv_of_beginCase ((storeInv_sched s []).trans hstore) hj hcase
  obtain ⟨k, hk, hrun⟩ := run_eq_drain (hcfg ▸ hl) hstore' hsched (storeFuel s.cfg)
  have hstep : step s = .next u := (step_commandWrite hl hj hs).trans hu
  exact ⟨k + 1, Nat.succ_le_succ hk, by rw [core_run_succ hstep, hrun]⟩

/-- Settles O53: `targetOk_of_storeInv`, read as the list of R74 and R75. -/
theorem flashCallsAreAlignedAndInside : Obligations.FlashCallsAreAlignedAndInside := by
  intro s j hinv hj
  obtain ⟨hl, hstore⟩ := storeInv_of_inv hinv
  exact flashCallOk_iff.mp (targetOk_of_storeInv hl hstore hj)

end Sys2Proof.Proofs
end

/-! PROOFS. The command word and its record (30_encoding.md R100 to R105): decoder and encoder undo each other, and two host
writes issue a command word. -/
section
namespace Sys2Proof.Proofs
open Sys2Proof.Machine

/-! ## The opcode map -/

/-- An opcode outside the map selects the default row (R104). -/
theorem decodeCommand_of_undefined {op : Byte} (h : op ∉ definedOpcodes) (arg : Word) :
    decodeCommand op arg = .unrecognised op := by
  simp only [definedOpcodes, List.mem_cons, List.not_mem_nil, or_false, not_or] at h
  simp only [decodeCommand, h, if_false]

/-- A property of the opcodes of the map, row by row (R102). -/
theorem forall_definedOpcodes {P : Byte → Prop} : (∀ op ∈ definedOpcodes, P op) ↔
    P 0x01 ∧ P 0x02 ∧ P 0x03 ∧ P 0x04 ∧ P 0x05 ∧ P 0x06 ∧ P 0x07 ∧ P 0x08 ∧ P 0x10 ∧ P 0x11 ∧ P 0x20 ∧ P 0x21 ∧
      P 0x22 ∧ P 0x23 := by
  simp only [definedOpcodes, List.forall_mem_cons, List.not_mem_nil, false_imp_iff, implies_true, and_true]

/-- Whatever the opcode, the map selects a well-formed command (R104). -/
theorem wf_decodeCommand (op : Byte) (arg : Word) : (decodeCommand op arg).wf = true := by
  by_cases h : op ∈ definedOpcodes
  · revert op
    exact forall_definedOpcodes.mpr ⟨rfl, rfl, rfl, rfl, rfl, rfl, rfl, rfl, rfl, rfl, rfl, rfl, rfl, rfl⟩
  · simp [decodeCommand_of_undefined h, Instr.wf, h]

/-- Five commands read the operand; the others carry none (R101, log 13). -/
theorem operand_decodeCommand (op : Byte) (arg : Word) :
    (decodeCommand op arg).operand = if op ∈ [0x06, 0x07, 0x20, 0x21, 0x22] then arg else 0 := by
  by_cases h : op ∈ definedOpcodes
  · revert op
    exact forall_definedOpcodes.mpr ⟨rfl, rfl, rfl, rfl, rfl, rfl, rfl, rfl, rfl, rfl, rfl, rfl, rfl, rfl⟩
  · have hsub : [0x06, 0x07, 0x20, 0x21, 0x22] ⊆ definedOpcodes := by decide
    rw [decodeCommand_of_undefined h, if_neg fun hm => h (hsub hm)]
    rfl

/-- The map selects a well-formed command by its own opcode and operand (R102). -/
theorem decodeCommand_opcode_operand {i : Instr} (h : i.wf = true) : decodeCommand i.opcode i.operand = i := by
  cases i
  case unrecognised op =>
    have hundef : op ∉ definedOpcodes := by simpa [Instr.wf] using h
    exact decodeCommand_of_undefined hundef 0
  all_goals rfl

/-! ## Records -/

/-- The record of a command decodes by the opcode and the operand it was made of (R105). -/
theorem decode_encode_append (i : Instr) (rest : List Byte) :
    decode (encode i ++ rest) = .ok (decodeCommand i.opcode i.operand, rest) := by
  simp only [encode, List.cons_append, List.nil_append, decode, wordOfBytes_byteOfWord]

/-- Settles O1: the record decodes by its opcode and its operand, and these select the command it was made from. -/
theorem decodeOfEncodeIsIdentity : Obligations.DecodeOfEncodeIsIdentity := by
  intro i rest h
  rw [decode_encode_append, decodeCommand_opcode_operand h]

/-- Settles O2: the decoded command has the opcode of the record and, where it reads one, its operand. -/
theorem encodeOfDecodeKeepsTheRecord : Obligations.EncodeOfDecodeKeepsTheRecord := by
  intro op a0 a1 a2 a3 rest
  refine ⟨decodeCommand op (wordOfBytes a0 a1 a2 a3), rfl, wf_decodeCommand _ _, ?_⟩
  obtain ⟨h0, h1, h2, h3⟩ := byteOfWord_wordOfBytes a0 a1 a2 a3
  rw [encode, opcode_decodeCommand, operand_decodeCommand]
  split
  · rw [h0, h1, h2, h3]
  · rfl

/-- Settles O3: the map, evaluated on the words of the table. -/
theorem tableWordsDecodeToTheirRows : Obligations.TableWordsDecodeToTheirRows := by
  unfold Obligations.TableWordsDecodeToTheirRows
  decide

/-! ## Issuing a command word -/

/-- A run of one step is that step. -/
theorem core_run_one (s : State) : core.run 1 s = step s := by
  have h : core.step s = step s := rfl
  simp only [Host.Core.run, h]
  cases step s <;> rfl

/-- Settles O6: the first write leaves the operand in `CMD_ARG`, and the second runs the command with it. -/
theorem operandThenOpcodeIssuesTheCommand : Obligations.OperandThenOpcodeIssuesTheCommand := by
  intro s op arg rest hl hj hs
  have harg := step_registerWrite (off := 0x00C) hl hj (by decide) (by decide) (by decide) hs
  have hop : (op.setWidth 32).setWidth 8 = op := by simp
  rw [core_run_succ harg, core_run_one]
  refine Eq.trans (step_commandWrite hl hj rfl) ?_
  rw [State.writePort, hop]
  rfl

end Sys2Proof.Proofs
end

/-! PROOFS. The encoder's frames and the pulse code (30_encoding.md R109, R110; 41_waveform_generator.md R150 to R153). -/
section
namespace Sys2Proof.Proofs
open Sys2Proof.Machine

/-- Settles O23: a frame is a packet with its complement between the bytes, whose first is the magic byte. -/
theorem framesCarryTwentyFourOnes : Obligations.FramesCarryTwentyFourOnes := by
  intro c d
  have hmagic : ~~~Config.magic = 0x4D := by decide
  exact ⟨rfl, rfl, hmagic, rfl, rfl, rfl, rfl, Frame.length_bits _, count_bits_frameOf (encodePacket c d)⟩

/-- The high slots of the pulse code: the start condition's 8, one in each of the 48 bit cells, and the stop marker's (R151). -/
theorem count_high_pulseSlots (c : Config) (f : Frame) : ((pulseSlots c f).filter id).length = 57 := by
  simp [pulseSlots, count_high_flatMap_bitCell, Config.startHigh, Config.startLow, Config.stopHighSlots]

/-- Settles O24: the code is the spec's picture; its length, its high slots and the 48 bits bound it. -/
theorem buildWritesThePulseCode : Obligations.BuildWritesThePulseCode := by
  intro c f g
  have hones : (f.bits.filter id).length ≤ 48 := (List.length_filter_le id f.bits).trans_eq f.length_bits
  rw [← pulseSlots_eq, ← Frame.bits_eq_wireBits, length_pulseSlots]
  refine ⟨by rw [Generator.build, length_pulseSlots], by omega, count_high_pulseSlots c f, fun hl => ?_⟩
  obtain ⟨-, -, -, hcap, -⟩ := legalConfig_iff.mp hl
  omega

end Sys2Proof.Proofs
end

/-! PROOFS. The packet that ENCODE latches (40_protocol_encoder.md R131 to R136). -/
section
namespace Sys2Proof.Proofs
open Sys2Proof.Machine

/-- Shift and mask put the two nibbles side by side (R134). -/
theorem packByte_eq_append (hi lo : BitVec 4) : packByte hi lo = hi ++ lo := by
  have hmask (x : BitVec 4) : x.setWidth 8 &&& 0x0F = x.setWidth 8 := by decide +revert
  rw [packByte, hmask, hmask, BitVec.append_def, BitVec.shiftLeftZeroExtend_eq, BitVec.setWidth'_eq]

/-- Inside 17..30 the nibble holds the offset from 17 °C without wrapping (R132). -/
theorem toNat_tempNibble {temp : Word} (hlo : 17 ≤ temp.toInt) (hhi : temp.toInt ≤ 30) :
    ((tempNibble temp).toNat : Int) = temp.toInt - 17 := by
  rw [tempNibble, if_pos ⟨hlo, hhi⟩, BitVec.toNat_ofInt, Config.tempMin]
  omega

/-- Outside 17..30 the nibble is the fallback (R132). -/
theorem tempNibble_of_outside {temp : Word} (h : temp.toInt < 17 ∨ 30 < temp.toInt) : tempNibble temp = 7 := by
  have hout : ¬(Config.tempMin ≤ temp.toInt ∧ temp.toInt ≤ Config.tempMax) := by
    rw [Config.tempMin, Config.tempMax]
    omega
  rw [tempNibble, if_neg hout, Config.tempFallback]

/-- ENCODE latches the nibbles of the DeviceState in the places of R134 and, between the bytes, their complements (R135). -/
theorem exec_encode_eq (s : State) {n : Nibbles} (h : nibblesOf s.cfg s.dev = n) :
    exec .encode s = .next { s with
      packet := ⟨0xB2, n.state ++ n.fan, n.command ++ n.temp⟩
      frame := ⟨0xB2, 0x4D, n.state ++ n.fan, ~~~(n.state ++ n.fan), n.command ++ n.temp, ~~~(n.command ++ n.temp)⟩ } := by
  have hpacket : encodePacket s.cfg s.dev = ⟨0xB2, n.state ++ n.fan, n.command ++ n.temp⟩ := by
    rw [encodePacket, h, pack, packByte_eq_append, packByte_eq_append, Config.magic]
  have hmagic : ~~~(0xB2 : Byte) = 0x4D := by decide
  have hexec : exec .encode s = .next s.latchFrame := rfl
  rw [hexec, State.latchFrame, hpacket, frameOf, hmagic]

/-- Settles O21: the nibbles of R131, with the temperature nibble of R132. -/
theorem encodeLatchesTheEnabledPacket : Obligations.EncodeLatchesTheEnabledPacket := by
  intro s hen
  exact ⟨tempNibble s.dev.temp, toNat_tempNibble, tempNibble_of_outside, exec_encode_eq s (if_pos hen)⟩

/-- Settles O22: the nibbles of R133 read the configuration alone. -/
theorem encodeLatchesTheOffPattern : Obligations.EncodeLatchesTheOffPattern := by
  intro s hoff
  exact exec_encode_eq s (if_neg (by simp [hoff]))

end Sys2Proof.Proofs
end

/-! PROOFS. SEND in its two modes (41_waveform_generator.md R154 to R176). -/
section
namespace Sys2Proof.Proofs
open Sys2Proof.Machine

/-- Settles O25: the second case of everything SEND does. -/
theorem sendStartsAnEmission : Obligations.SendStartsAnEmission := by
  intro s hblk
  have hexec : exec .send s = .next s.send := rfl
  simp only [hexec, s.send_eq, hblk, Bool.false_eq_true, if_false]

/-- Settles O26: the first case of everything SEND does. -/
theorem blockingSendEmitsItsIntervals : Obligations.BlockingSendEmitsItsIntervals := by
  intro s hblk
  have hexec : exec .send s = .next s.send := rfl
  simp only [hexec, s.send_eq, hblk, if_true]

/-- Two intervals for each of the 48 bits, and the stop bit (R170). -/
theorem length_blockingBits (c : Config) (f : Frame) : (blockingBits c f).length = 97 := by
  simp [blockingBits, ← f.bits_eq_wireBits, List.length_flatMap]

/-- A 0 bit lasts two units, a 1 bit four and the stop bit one (R170). -/
theorem sum_duration_blockingBits (c : Config) (f : Frame) :
    ((blockingBits c f).map Emission.duration).sum =
      (2 * f.bits.length + 2 * (f.bits.filter id).length + 1) * c.tUs := by
  rw [blockingBits, ← f.bits_eq_wireBits]
  induction f.bits with
  | nil => simp [Emission.duration]
  | cons b bits ih => cases b <;> simp [Emission.duration] at ih ⊢ <;> linarith

/-- Settles O27: the 24 ones of an encoder frame fix the length of its 48 bits (R109). -/
theorem blockingTransmissionLasts306Units : Obligations.BlockingTransmissionLasts306Units := by
  intro c d
  have hones : ((frameOf (encodePacket c d)).bits.filter id).length = 24 := count_bits_frameOf _
  constructor
  · simp [blockingEmissions, length_blockingBits]
  · simp [blockingEmissions, sum_duration_blockingBits, hones, Emission.duration]
    omega

end Sys2Proof.Proofs
end

/-! PROOFS. The sequencer (10_state.md R31 to R37; 41_waveform_generator.md R157, R160, R161): a TICK step in each of its cases,
and the invariant that every step keeps. -/
section
namespace Sys2Proof.Proofs
open Sys2Proof.Machine

/-! ## The TICK step -/

section
variable {n : Nat} {g : Generator}

/-- A TICK step at the end of a pass that is not the last. -/
theorem tick_endFirstPass (hn : n < 65536) (hsub : g.curSub.toNat + 1 = n) (hslot : g.curSlot.toNat + 1 = g.pbLen.toNat)
    (hrep : g.repeatCnt = 2) :
    g.tick n = { g with out := g.out ++ [.tick g.level], curSub := 0, curSlot := 0, repeatCnt := 1, pin := g.level } := by
  simp [Generator.tick_endPass hn hsub hslot, hrep]

/-- A TICK step at the end of the last pass. -/
theorem tick_endLastPass (hn : n < 65536) (hsub : g.curSub.toNat + 1 = n) (hslot : g.curSlot.toNat + 1 = g.pbLen.toNat)
    (hrep : g.repeatCnt = 1) :
    g.tick n = { g with
      out := g.out ++ [.tick g.level], curSub := 0, curSlot := g.pbLen, repeatCnt := 0, timerEn := false, pin := false } := by
  simp [Generator.tick_endPass hn hsub hslot, hrep]

end

/-- The step in which the carrier timer fires. -/
theorem step_tick {s : State} {rest : List Event} (hl : legalConfig s.cfg = true) (hs : s.sched = .tick :: rest) :
    step s = .next { s with sched := rest, gen := if s.gen.timerEn then s.gen.tick s.cfg.nSub else s.gen } := by
  simp only [step_of_legalConfig hl, State.turn, hs, State.timerFires_eq]

/-- Settles O28: a firing is a TICK step while the timer is enabled, and the counters tell its four cases apart. -/
theorem tickStepByItsCases : Obligations.TickStepByItsCases := by
  intro s rest level hl hs hdrive
  obtain ⟨-, -, hn, -⟩ := legalConfig_iff.mp hl
  have hlevel : s.gen.level = level := hdrive.symm
  rw [step_tick hl hs]
  refine ⟨fun ht => ?_, fun ht hin => ?_, fun ht hsub hslot => ?_, fun ht hsub hslot hrep => ?_,
    fun ht hsub hslot hrep => ?_⟩
  · simp only [ht, Bool.false_eq_true, if_false]
  · simp only [ht, if_true, Generator.tick_inside hn hin, hlevel]
  · simp only [ht, if_true, Generator.tick_endSlot hn hsub hslot, hlevel]
  · simp only [ht, if_true, tick_endFirstPass hn hsub hslot hrep, hlevel]
  · simp only [ht, if_true, tick_endLastPass hn hsub hslot hrep, hlevel]

/-! ## The invariant -/

/-- The invariant as a list of its parts. -/
theorem seqInv_iff {c : Config} {g : Generator} : seqInv c g = true ↔
    g.pb.length = c.pbCap ∧ g.pbLen.toNat ≤ c.pbCap ∧ g.curSlot.toNat ≤ g.pbLen.toNat ∧ g.curSub.toNat < c.nSub ∧
      g.repeatCnt.toNat ≤ 2 ∧ g.pwmGate = false ∧
      (g.timerEn = true → g.curSlot.toNat < g.pbLen.toNat ∧ 1 ≤ g.repeatCnt.toNat) ∧
      (g.timerEn = false → g.pin = false) := by
  cases h : g.timerEn <;> simp [seqInv, h, and_assoc]

section
variable {c : Config} {g : Generator}

/-- The invariant while the timer runs (R157). -/
theorem seqInv_of_running (ht : g.timerEn = true) (hpb : g.pb.length = c.pbCap) (hlen : g.pbLen.toNat ≤ c.pbCap)
    (hslot : g.curSlot.toNat < g.pbLen.toNat) (hsub : g.curSub.toNat < c.nSub) (hrep1 : 1 ≤ g.repeatCnt.toNat)
    (hrep2 : g.repeatCnt.toNat ≤ 2) (hgate : g.pwmGate = false) : seqInv c g = true :=
  seqInv_iff.mpr ⟨hpb, hlen, hslot.le, hsub, hrep2, hgate, fun _ => ⟨hslot, hrep1⟩, fun hoff => by simp [ht] at hoff⟩

/-- A TICK step keeps the invariant, in each of its cases (R160). -/
theorem seqInv_tick (hl : legalConfig c = true) (hg : seqInv c g = true) (ht : g.timerEn = true) :
    seqInv c (g.tick c.nSub) = true := by
  obtain ⟨-, hpos, hn, -⟩ := legalConfig_iff.mp hl
  obtain ⟨hpb, hlen, -, hsub, hrep2, hgate, hrun, -⟩ := seqInv_iff.mp hg
  obtain ⟨hslot, hrep1⟩ := hrun ht
  have hzero : 0 < c.nSub := Nat.zero_lt_of_lt hpos
  rcases Nat.lt_or_eq_of_le (Nat.succ_le_of_lt hsub) with hin | hend
  · have hsub' : (g.curSub + 1).toNat < c.nSub := by bv_omega
    rw [Generator.tick_inside hn hin]
    exact seqInv_of_running ht hpb hlen hslot hsub' hrep1 hrep2 hgate
  · rcases Nat.lt_or_eq_of_le (Nat.succ_le_of_lt hslot) with hmid | hlast
    · have hslot' : (g.curSlot + 1).toNat < g.pbLen.toNat := by bv_omega
      rw [Generator.tick_endSlot hn hend hmid]
      exact seqInv_of_running ht hpb hlen hslot' hzero hrep1 hrep2 hgate
    · have hcases : g.repeatCnt = 2 ∨ g.repeatCnt = 1 := by bv_omega
      rcases hcases with h2 | h1
      · rw [tick_endFirstPass hn hend hlast h2]
        exact seqInv_of_running ht hpb hlen (Nat.zero_lt_of_lt hslot) hzero le_rfl one_le_two hgate
      · rw [tick_endLastPass hn hend hlast h1]
        exact seqInv_iff.mpr ⟨hpb, hlen, le_rfl, hzero, Nat.zero_le 2, hgate, nofun, fun _ => rfl⟩

/-- An interrupt-driven SEND of an encoder frame begins an emission that fits the buffer (R155). -/
theorem seqInv_emissionStarted (hl : legalConfig c = true) (hg : seqInv c g = true) (p : Packet) :
    seqInv c (emissionStarted c g (frameOf p)) = true := by
  obtain ⟨-, hpos, -, hcap, hmax, -⟩ := legalConfig_iff.mp hl
  obtain ⟨hpb, -, -, -, -, hgate, -⟩ := seqInv_iff.mp hg
  have hpb' : (emissionStarted c g (frameOf p)).pb.length = c.pbCap := by
    simp only [emissionStarted, ← pulseSlots_eq, List.length_append, length_pulseSlots_frameOf, List.length_drop, hpb]
    omega
  have hlen' : (emissionStarted c g (frameOf p)).pbLen.toNat = 161 + c.stopLowSlots := Nat.mod_eq_of_lt (by omega)
  refine seqInv_of_running rfl hpb' (by omega) ?_ (Nat.zero_lt_of_lt hpos) one_le_two le_rfl hgate
  rw [hlen']
  exact Nat.add_pos_left (by decide) _

/-- A blocking SEND leaves the timer, the pin and the gate off, and the buffer and the indices alone (R170, R173). -/
theorem seqInv_transmissionDone (hg : seqInv c g = true) (f : Frame) : seqInv c (transmissionDone c g f) = true := by
  obtain ⟨hpb, hlen, hslot, hsub, hrep, -⟩ := seqInv_iff.mp hg
  exact seqInv_iff.mpr ⟨hpb, hlen, hslot, hsub, hrep, rfl, nofun, fun _ => rfl⟩

end

/-- Sending a DeviceState keeps the invariant, in either mode. -/
theorem seqInv_sentAs {s : State} (hl : legalConfig s.cfg = true) (hg : seqInv s.cfg s.gen = true) (d : DeviceState) :
    seqInv (sentAs s d).cfg (sentAs s d).gen = true := by
  unfold sentAs
  dsimp only
  split
  · exact seqInv_transmissionDone hg _
  · exact seqInv_emissionStarted hl hg _

/-- A reset gives the invariant, whatever the buffer then holds (R50, R55). -/
theorem seqInv_restart {s : State} (hl : legalConfig s.cfg = true) : seqInv s.restart.cfg s.restart.gen = true := by
  obtain ⟨-, hpos, -⟩ := legalConfig_iff.mp hl
  have hpb : s.restart.gen.pb.length = s.restart.cfg.pbCap := by simp [State.restart, State.powerUp]
  exact seqInv_iff.mpr ⟨hpb, Nat.zero_le _, le_rfl, Nat.zero_lt_of_lt hpos, Nat.zero_le _, rfl, nofun, fun _ => rfl⟩

/-- Settles O54: of what a step can do to the transmitter, only a TICK step, a transmission and a reset touch the sequencer. -/
theorem stepKeepsTheSequencerInvariant : Obligations.StepKeepsTheSequencerInvariant := by
  intro s t hg h
  obtain ⟨hl, -⟩ := step_cases h
  cases step_transmitterCase h with
  | same h => rw [h.cfg, h.gen, hg]
  | timer rest ht =>
    rw [ht, State.timerFires_eq]
    dsimp only
    split
    · next hen => exact seqInv_tick hl hg hen
    · exact hg
  | encode rest ht => exact ht ▸ hg
  | send v span rest d hs hd ht => exact ht ▸ seqInv_sentAs (s := { s with sched := rest }) hl hg d
  | reset torn rest hs ht =>
    have hc : (({ s with sched := rest } : State).interrupted torn).cfg = s.cfg :=
      resetBlock_cfg { s with sched := rest } torn
    exact ht ▸ seqInv_restart ((congrArg legalConfig hc).trans hl)

end Sys2Proof.Proofs
end

/-! PROOFS. Slots, passes and the whole transmission (41_waveform_generator.md R160 to R164), tick by tick. -/
section
namespace Sys2Proof.Proofs
open Sys2Proof.Machine

/-! ## The ticks of a slot -/

/-- The first `k` ticks of a slot: 1, 0, 1, 0, ... for a high one and zeros for a low one (R162). -/
def slotTicks (k : Nat) (high : Bool) : List Emission := (List.range k).map fun i => .tick (i % 2 == 0 && high)

/-- The next tick of a slot: high only on an even sub-tick of a high slot (R160). -/
theorem slotTicks_succ (k : Nat) (high : Bool) :
    slotTicks (k + 1) high = slotTicks k high ++ [.tick (k % 2 == 0 && high)] := by
  simp [slotTicks, List.range_succ]

/-- A pass is one slot after another. -/
theorem passTicks_eq (n : Nat) (slots : List Bool) : passTicks n slots = slots.flatMap (slotTicks n) := rfl

/-- A pass has `N_SUB` ticks for each slot. -/
theorem length_passTicks (n : Nat) (slots : List Bool) : (passTicks n slots).length = slots.length * n := by
  simp [passTicks, List.length_flatMap]

/-- One slot more of a pass. -/
theorem passTicks_take_succ (n : Nat) {pb : List Bool} {j : Nat} (hj : j < pb.length) :
    passTicks n (pb.take (j + 1)) = passTicks n (pb.take j) ++ slotTicks n (pb.getD j false) := by
  rw [passTicks_eq, passTicks_eq, List.take_add_one, List.getElem?_eq_getElem hj, List.flatMap_append]
  simp [hj]

/-- `g`, which stands at the head of a slot, after `k` ticks inside that slot, the last of which drove `pin`. -/
def insideSlot (g : Generator) (k : Nat) (pin : Bool) : Generator :=
  { g with
    curSub := BitVec.ofNat 16 k
    pin := pin
    out := g.out ++ slotTicks k (g.pb.getD g.curSlot.toNat false) }

section
variable {c : Config} {g : Generator}

/-- The level the next tick of the slot drives. -/
theorem level_insideSlot (g : Generator) {k : Nat} (hk : k < 65536) (pin : Bool) :
    (insideSlot g k pin).level = (k % 2 == 0 && g.pb.getD g.curSlot.toNat false) := by
  have hsub : (BitVec.ofNat 16 k).toNat = k := Nat.mod_eq_of_lt hk
  simp only [Generator.level, insideSlot, hsub]

/-- Before its last tick a slot goes on. -/
theorem iterate_tick_insideSlot (hl : legalConfig c = true) (hsub : g.curSub = 0) {k : Nat} (hk : k < c.nSub) :
    ∃ pin, (Generator.tick c.nSub)^[k] g = insideSlot g k pin := by
  obtain ⟨-, -, hn, -⟩ := legalConfig_iff.mp hl
  induction k with
  | zero =>
    refine ⟨g.pin, ?_⟩
    have hzero : BitVec.ofNat 16 0 = g.curSub := hsub.symm
    simp [insideSlot, slotTicks, hzero]
  | succ k ih =>
    obtain ⟨pin, ih⟩ := ih (by omega)
    have hsub' : (insideSlot g k pin).curSub.toNat = k := Nat.mod_eq_of_lt (by omega)
    refine ⟨(insideSlot g k pin).level, ?_⟩
    rw [Function.iterate_succ_apply', ih, Generator.tick_inside hn (by omega), level_insideSlot g (by omega)]
    simp [insideSlot, slotTicks_succ, BitVec.ofNat_add]

/-- The last tick of a slot comes after `N_SUB` - 1 others. -/
theorem iterate_tick_nSub (hl : legalConfig c = true) (hsub : g.curSub = 0) :
    ∃ pin, (Generator.tick c.nSub)^[c.nSub] g = (insideSlot g (c.nSub - 1) pin).tick c.nSub := by
  obtain ⟨-, hpos, -⟩ := legalConfig_iff.mp hl
  obtain ⟨pin, hpin⟩ := iterate_tick_insideSlot hl hsub (k := c.nSub - 1) (by omega)
  have hsucc := Function.iterate_succ_apply' (Generator.tick c.nSub) (c.nSub - 1) g
  rw [Nat.succ_eq_add_one, Nat.sub_add_cancel (by omega)] at hsucc
  exact ⟨pin, by rw [hsucc, hpin]⟩

/-- The last tick of a slot drives 0, since `N_SUB` is even, and completes the slot's ticks (R162). -/
theorem insideSlot_last (hl : legalConfig c = true) (g : Generator) (pin : Bool) :
    (insideSlot g (c.nSub - 1) pin).curSub.toNat + 1 = c.nSub ∧ (insideSlot g (c.nSub - 1) pin).level = false ∧
      (insideSlot g (c.nSub - 1) pin).out ++ [.tick false] =
        g.out ++ slotTicks c.nSub (g.pb.getD g.curSlot.toNat false) := by
  obtain ⟨heven, hpos, hn, -⟩ := legalConfig_iff.mp hl
  obtain ⟨k, hk⟩ : ∃ k, c.nSub = k + 1 := ⟨c.nSub - 1, by omega⟩
  have hsub : (BitVec.ofNat 16 k).toNat = k := Nat.mod_eq_of_lt (by omega)
  have hodd : k % 2 = 1 := by omega
  rw [hk, Nat.add_sub_cancel, level_insideSlot g (by omega), slotTicks_succ]
  simp [insideSlot, hsub, hodd]

/-- A slot that is not the last, from its first tick to the next slot. -/
theorem iterate_tick_slot (hl : legalConfig c = true) (hsub : g.curSub = 0) (hslot : g.curSlot.toNat + 1 < g.pbLen.toNat) :
    (Generator.tick c.nSub)^[c.nSub] g = { g with
      curSlot := g.curSlot + 1
      pin := false
      out := g.out ++ slotTicks c.nSub (g.pb.getD g.curSlot.toNat false) } := by
  obtain ⟨-, -, hn, -⟩ := legalConfig_iff.mp hl
  obtain ⟨pin, h⟩ := iterate_tick_nSub hl hsub
  obtain ⟨hend, hlevel, hout⟩ := insideSlot_last hl g pin
  rw [h, Generator.tick_endSlot hn hend hslot, hlevel, hout]
  simp only [insideSlot, hsub]

/-- The last slot of a pass, with the end of the pass. -/
theorem iterate_tick_lastSlot (hl : legalConfig c = true) (hsub : g.curSub = 0)
    (hslot : g.curSlot.toNat + 1 = g.pbLen.toNat) :
    (Generator.tick c.nSub)^[c.nSub] g = { g with
      curSlot := if g.repeatCnt - 1 = 0 then g.pbLen else 0
      repeatCnt := g.repeatCnt - 1
      timerEn := if g.repeatCnt - 1 = 0 then false else g.timerEn
      pin := false
      out := g.out ++ slotTicks c.nSub (g.pb.getD g.curSlot.toNat false) } := by
  obtain ⟨-, -, hn, -⟩ := legalConfig_iff.mp hl
  obtain ⟨pin, h⟩ := iterate_tick_nSub hl hsub
  obtain ⟨hend, hlevel, hout⟩ := insideSlot_last hl g pin
  rw [h, Generator.tick_endPass hn hend hslot, hlevel, hout]
  simp [insideSlot, hsub]

end

/-- Settles O29: the ticks of a slot that is not the last. -/
theorem slotLastsSubTicks : Obligations.SlotLastsSubTicks := fun _ _ hl hsub hslot => iterate_tick_slot hl hsub hslot

/-! ## The ticks of a pass -/

/-- The generator at the beginning of a pass over the first `PB_LEN` slots of the buffer. -/
structure PassStart (g : Generator) : Prop where
  slot : g.curSlot = 0
  sub  : g.curSub = 0
  pin  : g.pin = false
  pos  : 0 < g.pbLen.toNat
  fits : g.pbLen.toNat ≤ g.pb.length

/-- `g`, which stands at the beginning of a pass, after the ticks of `j` slots. -/
def afterSlots (n : Nat) (g : Generator) (j : Nat) : Generator :=
  { g with curSlot := BitVec.ofNat 12 j, out := g.out ++ passTicks n (g.pb.take j) }

/-- The slot index is a 12-bit number, and so is the number of slots. -/
theorem toNat_curSlot_afterSlots (n : Nat) {g : Generator} {j : Nat} (hj : j < g.pbLen.toNat) :
    (afterSlots n g j).curSlot.toNat = j := Nat.mod_eq_of_lt (hj.trans g.pbLen.isLt)

section
variable {c : Config} {g : Generator}

/-- The slots of a pass, one after another. -/
theorem iterate_tick_slots (hl : legalConfig c = true) (hg : PassStart g) {j : Nat} (hj : j < g.pbLen.toNat) :
    (Generator.tick c.nSub)^[j * c.nSub] g = afterSlots c.nSub g j := by
  have hfits := hg.fits
  induction j with
  | zero =>
    have hzero : BitVec.ofNat 12 0 = g.curSlot := hg.slot.symm
    simp [afterSlots, passTicks, hzero]
  | succ j ih =>
    have hslot := toNat_curSlot_afterSlots c.nSub (Nat.lt_of_succ_lt hj)
    rw [Nat.succ_mul, Nat.add_comm, Function.iterate_add_apply, ih (by omega),
      iterate_tick_slot (g := afterSlots c.nSub g j) hl hg.sub (hslot.symm ▸ hj), hslot]
    simp [afterSlots, passTicks_take_succ c.nSub (show j < g.pb.length by omega), hg.pin, BitVec.ofNat_add]

/-- Until the last tick of a pass the timer stays as it is. -/
theorem timerEn_iterate_tick (hl : legalConfig c = true) (hg : PassStart g) {k : Nat} (hk : k < g.pbLen.toNat * c.nSub) :
    ((Generator.tick c.nSub)^[k] g).timerEn = g.timerEn := by
  obtain ⟨-, hpos, -⟩ := legalConfig_iff.mp hl
  have hj : k / c.nSub < g.pbLen.toNat := (Nat.div_lt_iff_lt_mul (by omega)).mpr hk
  obtain ⟨pin, hpin⟩ := iterate_tick_insideSlot (g := afterSlots c.nSub g (k / c.nSub)) hl hg.sub
    (Nat.mod_lt k (by omega))
  rw [← Nat.mod_add_div' k c.nSub, Function.iterate_add_apply, iterate_tick_slots hl hg hj, hpin]
  rfl

/-- A whole pass (R162, R164). -/
theorem iterate_tick_pass (hl : legalConfig c = true) (hg : PassStart g) :
    (Generator.tick c.nSub)^[g.pbLen.toNat * c.nSub] g = { g with
      curSlot := if g.repeatCnt - 1 = 0 then g.pbLen else 0
      repeatCnt := g.repeatCnt - 1
      timerEn := if g.repeatCnt - 1 = 0 then false else g.timerEn
      out := g.out ++ passTicks c.nSub (g.pb.take g.pbLen.toNat) } := by
  have hpos := hg.pos
  have hfits := hg.fits
  obtain ⟨j, hj⟩ : ∃ j, g.pbLen.toNat = j + 1 := ⟨g.pbLen.toNat - 1, by omega⟩
  have hslot := toNat_curSlot_afterSlots c.nSub (g := g) (j := j) (by omega)
  rw [hj, Nat.succ_mul, Nat.add_comm, Function.iterate_add_apply, iterate_tick_slots hl hg (by omega),
    iterate_tick_lastSlot (g := afterSlots c.nSub g j) hl hg.sub (hslot.symm ▸ hj.symm), hslot]
  simp [afterSlots, passTicks_take_succ c.nSub (show j < g.pb.length by omega), hg.pin]

/-- `g`, which stands at the beginning of the first pass of two, at the beginning of the second. -/
def afterFirstPass (n : Nat) (g : Generator) : Generator :=
  { g with repeatCnt := 1, out := g.out ++ passTicks n (g.pb.take g.pbLen.toNat) }

/-- The second pass emits the same slots. -/
theorem PassStart.afterFirstPass (hg : PassStart g) (n : Nat) : PassStart (afterFirstPass n g) :=
  ⟨hg.slot, hg.sub, hg.pin, hg.pos, hg.fits⟩

/-- The first pass of two leads to the second (R164). -/
theorem iterate_tick_firstPass (hl : legalConfig c = true) (hg : PassStart g) (hrep : g.repeatCnt = 2) :
    (Generator.tick c.nSub)^[g.pbLen.toNat * c.nSub] g = afterFirstPass c.nSub g := by
  rw [iterate_tick_pass hl hg]
  simp [afterFirstPass, hrep, hg.slot]

/-- The second pass leads to IDLE (R160, R164). -/
theorem iterate_tick_bothPasses (hl : legalConfig c = true) (hg : PassStart g) (hrep : g.repeatCnt = 2) :
    (Generator.tick c.nSub)^[2 * g.pbLen.toNat * c.nSub] g = { g with
      curSlot := g.pbLen
      repeatCnt := 0
      timerEn := false
      out := g.out ++ passTicks c.nSub (g.pb.take g.pbLen.toNat) ++ passTicks c.nSub (g.pb.take g.pbLen.toNat) } := by
  have hsecond := iterate_tick_pass hl (hg.afterFirstPass c.nSub)
  rw [Nat.mul_assoc, Nat.two_mul, Function.iterate_add_apply, iterate_tick_firstPass hl hg hrep]
  exact hsecond.trans (by simp [afterFirstPass])

/-- The timer runs until the last tick of the second pass (R164). -/
theorem timerEn_iterate_bothPasses (hl : legalConfig c = true) (hg : PassStart g) (hrep : g.repeatCnt = 2) {k : Nat}
    (hk : k < 2 * g.pbLen.toNat * c.nSub) : ((Generator.tick c.nSub)^[k] g).timerEn = g.timerEn := by
  rcases Nat.lt_or_ge k (g.pbLen.toNat * c.nSub) with hfirst | hsecond
  · exact timerEn_iterate_tick hl hg hfirst
  · rw [Nat.mul_assoc, Nat.two_mul] at hk
    obtain ⟨i, rfl⟩ := Nat.exists_eq_add_of_le' hsecond
    rw [Function.iterate_add_apply, iterate_tick_firstPass hl hg hrep]
    exact timerEn_iterate_tick hl (hg.afterFirstPass c.nSub) (Nat.lt_of_add_lt_add_right hk)

end

/-! ## The whole transmission -/

/-- With the host silent and no command in flight, a step is a firing of the timer (log 5). -/
theorem step_silent {s : State} (hl : legalConfig s.cfg = true) (hj : s.job = none) (hs : s.sched = []) :
    step s = .next { s with gen := if s.gen.timerEn then s.gen.tick s.cfg.nSub else s.gen } := by
  simp only [step_of_legalConfig hl, State.turn, hs, State.idleTurn, hj, State.timerFires_eq]

/-- With the timer off as well, nothing changes (70_reset_and_hazards.md R300). -/
theorem step_idle {s : State} (hl : legalConfig s.cfg = true) (hj : s.job = none) (hs : s.sched = [])
    (hoff : s.gen.timerEn = false) : step s = .next s := by
  simp only [step_silent hl hj hs, hoff, Bool.false_eq_true, if_false]

/-- As long as the timer is enabled, the steps of a silent block are TICK steps. -/
theorem run_eq_ticks {s : State} (hl : legalConfig s.cfg = true) (hj : s.job = none) (hs : s.sched = []) {k : Nat}
    (hen : ∀ i < k, ((Generator.tick s.cfg.nSub)^[i] s.gen).timerEn = true) :
    core.run k s = .next { s with gen := (Generator.tick s.cfg.nSub)^[k] s.gen } := by
  induction k generalizing s with
  | zero => exact core_run_zero s
  | succ k ih =>
    have hfirst : s.gen.timerEn = true := hen 0 k.succ_pos
    rw [core_run_succ (step_silent hl hj hs), hfirst, if_pos rfl,
      ih (s := { s with gen := s.gen.tick s.cfg.nSub }) hl hj hs fun i hi => hen (i + 1) (Nat.succ_lt_succ hi)]
    rfl

/-- The generator that an interrupt-driven SEND leaves begins a pass (R155). -/
theorem passStart_emissionStarted {c : Config} {g : Generator} (hl : legalConfig c = true) (hg : seqInv c g = true)
    (p : Packet) : PassStart (emissionStarted c g (frameOf p)) := by
  obtain ⟨hpb, hlen, -, -, -, -, hrun, -⟩ := seqInv_iff.mp (seqInv_emissionStarted hl hg p)
  exact ⟨rfl, rfl, rfl, (hrun rfl).1, hpb.symm ▸ hlen⟩

/-- Settles O30: while the timer runs the steps are the ticks of the two passes, and after them it is off. -/
theorem wholeTransmissionTakesItsTicks : Obligations.WholeTransmissionTakesItsTicks := by
  intro s t hl hg hblk hj hs hsend
  have ht := Host.Outcome.next.inj (hsend.symm.trans (sendStartsAnEmission s hblk))
  obtain ⟨htl, htj, hts, hstart, hrep, hen⟩ : legalConfig t.cfg = true ∧ t.job = none ∧ t.sched = [] ∧
      PassStart t.gen ∧ t.gen.repeatCnt = 2 ∧ t.gen.timerEn = true :=
    ht ▸ ⟨hl, hj, hs, passStart_emissionStarted hl hg _, rfl, rfl⟩
  have hrunning : ∀ k < 2 * t.gen.pbLen.toNat * t.cfg.nSub, ((Generator.tick t.cfg.nSub)^[k] t.gen).timerEn = true :=
    fun k hk => (timerEn_iterate_bothPasses htl hstart hrep hk).trans hen
  have hrun : ∀ k ≤ 2 * t.gen.pbLen.toNat * t.cfg.nSub,
      core.run k t = .next { t with gen := (Generator.tick t.cfg.nSub)^[k] t.gen } :=
    fun k hk => run_eq_ticks htl htj hts fun i hi => hrunning i (hi.trans_le hk)
  have hfirst : t.gen.pbLen.toNat * t.cfg.nSub ≤ 2 * t.gen.pbLen.toNat * t.cfg.nSub :=
    Nat.mul_le_mul_right _ (Nat.le_mul_of_pos_left _ Nat.two_pos)
  have hlast := hrun _ le_rfl
  rw [iterate_tick_bothPasses htl hstart hrep] at hlast
  refine ⟨fun k hk => ⟨_, hrun k hk.le, hrunning k hk⟩, ⟨_, hrun _ hfirst, ?_⟩, _, hlast, ?_, ?_, ?_⟩
  · rw [iterate_tick_firstPass htl hstart hrep]
    exact ⟨rfl, hstart.slot, hstart.sub, rfl⟩
  · simp only [hstart.sub, hstart.pin]
  · simp [length_passTicks, Nat.min_eq_left hstart.fits]
    ring
  · exact step_idle htl htj hts rfl

end Sys2Proof.Proofs
end

/-! PROOFS. The Configuration Store: its layout, the refusals of CFG_WRITE and CFG_READ, and freeing (42_config_store.md R190,
R200, R209, R220, R221). -/
section
namespace Sys2Proof.Proofs
open Sys2Proof.Machine

/-- Settles O37: a multiple of 4 below `align_up(n)` is at most `align_up(n) - 4`, which is below `n`. -/
theorem alignUpIsTheLeastMultiple : Obligations.AlignUpIsTheLeastMultiple := by
  refine fun n => ⟨alignUp_mod n, le_alignUp n, fun m hm hnm => ?_⟩
  have hmod := alignUp_mod n
  have hle := alignUp_le n
  omega

/-! ## Refusals -/

/-- A CFG_WRITE that fails a check of R200 is refused. -/
theorem exec_cfgWrite_of_not_accepted {s : State} {arg : Word} (h : ¬ writeAccepted s arg.toNat = true) :
    exec (.cfgWrite arg) s = .next s.refuseWrite := if_neg h

/-- Settles O38: each of the three conditions denies a check of R200. -/
theorem cfgWriteRefusesWhatCannotBeStored : Obligations.CfgWriteRefusesWhatCannotBeStored := by
  intro s arg hbad
  refine exec_cfgWrite_of_not_accepted fun hacc => ?_
  obtain ⟨hcount, hlen, hfit⟩ := writeAccepted_iff.mp hacc
  rcases hbad with hcount' | ⟨it, hit, hlen'⟩ | hfit'
  · exact hcount'.not_ge hcount
  · exact hlen'.not_ge (hlen it hit)
  · exact hfit'.not_ge hfit

/-- CFG_READ is refused exactly over an unfreed blob (R209). -/
theorem readBusy_iff {s : State} {lim : Nat} : readBusy s lim = true ↔ ∃ it ∈ s.items.take lim, it.alloc = true := by
  rw [readBusy, List.any_eq_true]

/-- Settles O41: the blob makes the read busy. -/
theorem cfgReadRefusesUnfreedSlots : Obligations.CfgReadRefusesUnfreedSlots := fun _ _ h => if_pos (readBusy_iff.mpr h)

/-! ## Freeing -/

/-- The first slots are freed and the others stay (R220). -/
theorem freeSlots_eq (n : Nat) (items : List Item) :
    freeSlots n items = (items.take n).map Item.freed ++ items.drop n := by
  induction items generalizing n with
  | nil => simp [freeSlots]
  | cons it rest ih =>
    cases n with
    | zero => rfl
    | succ n => simp only [freeSlots, ih, List.take_succ_cons, List.map_cons, List.drop_succ_cons, List.cons_append]

/-- A count past the end of the table is the whole table. -/
theorem freeSlots_min_length (n : Nat) (items : List Item) : freeSlots (min n items.length) items = freeSlots n items := by
  rw [freeSlots_eq, freeSlots_eq, ← List.take_eq_take_min]
  rcases Nat.le_total n items.length with h | h
  · rw [Nat.min_eq_left h]
  · rw [Nat.min_eq_right h, List.drop_length, List.drop_of_length_le h]

/-- CFG_FREE, its limit forgotten (R220). -/
theorem exec_cfgFree {s : State} (h : s.items.length = s.cfg.maxItems) (arg : Word) :
    exec (.cfgFree arg) s = .next { s with items := freeSlots arg.toNat s.items } := by
  simp only [exec, execCfgFree, limitCount, countOperand, ← h, freeSlots_min_length]

/-- Settles O47: the table has `MAX_ITEMS` slots, so that neither limit cuts any off. -/
theorem freeClearsAllocAndLength : Obligations.FreeClearsAllocAndLength := by
  intro s arg hsized
  simp only [memoriesSized, Bool.and_eq_true, beq_iff_eq] at hsized
  obtain ⟨⟨-, hlen⟩, -⟩ := hsized
  constructor
  · rw [exec_cfgFree hlen, freeSlots_eq]
    rfl
  · simp only [exec, execCfgFreeAll, ← hlen, freeSlots_eq, List.take_length, List.drop_length, List.append_nil]
    rfl

end Sys2Proof.Proofs
end

/-! PROOFS. CFG_WRITE run to its end: what it leaves whatever ENV draws, and the flash image when no call fails
(42_config_store.md R200, R201). -/
section
namespace Sys2Proof.Proofs
open Sys2Proof.Machine

/-- The state in which an accepted CFG_WRITE of `n` items has made its calls: the erase, the main header, and the items
(R201). -/
def writtenImage (s : State) (n : Nat) : State :=
  (s.flashErase.flashWrite 0 (mainHeader (imageTotal s.items n))).writeItems n 0 4

/-- An erase forgets which job there was. -/
theorem flashErase_job (s : State) (j : Option Job) :
    ({ s with job := j } : State).flashErase = { s.flashErase with job := j } := by
  unfold State.flashErase
  rw [show ({ s with job := j } : State).callOk = s.callOk from rfl]
  split <;> rfl

/-- An erase is a flash call and changes no slot. -/
theorem wroteTo_flashErase (s : State) : WroteTo s s.flashErase 0 1 := by
  obtain ⟨m, he, -⟩ := s.flashErase_cases
  rw [WroteTo, he, stampTo_zero]

/-- The two calls before the items. -/
theorem wroteTo_mainHeader (s : State) (bytes : List Byte) : WroteTo s (s.flashErase.flashWrite 0 bytes) 0 2 :=
  (wroteTo_flashErase s).flashWrite 0 bytes

section
variable {s : State} {arg : Word} (hm : MemoriesOk s) (hacc : writeAccepted s arg.toNat = true)
include hm hacc

/-- An accepted CFG_WRITE makes all its calls and ends (R201). -/
theorem exec_cfgWrite_of_accepted : exec (.cfgWrite arg) s = .next (writtenImage s arg.toNat).finishWrite := by
  obtain ⟨hcount, -⟩ := writeAccepted_iff.mp hacc
  have hitems : s.flashErase.items = s.items := by simpa using congrArg State.items (wroteTo_flashErase s)
  have hrun : (s.startWrite arg).drain (storeFuel s.cfg) =
      ((s.flashErase.flashWrite 0 (mainHeader (imageTotal s.items arg.toNat))).nextWrite arg.toNat 0 4).drain
        (2 * s.cfg.maxItems) := by
    rw [State.startWrite, countOperand, if_pos hacc, storeFuel, State.drain_succ rfl, State.drain_succ rfl, State.microStep,
      State.microStep, flashErase_job, State.flashWrite_job, State.nextWrite_job, State.flashWrite_job, State.nextWrite_job]
    simp only [Job.program, hitems]
  refine (if_pos hacc).trans (congrArg _ (hrun.trans ?_))
  exact (drain_writeItems (wroteTo_mainHeader s _) (hm.length ▸ hcount) (Nat.zero_add _) (by omega)).1

/-- Its calls stamp the slots and touch, besides, the flash, `DIAG.FLASH_IO` and ENV's draws only. -/
theorem wroteTo_writtenImage :
    WroteTo s (writtenImage s arg.toNat) arg.toNat (writeCalls (s.items.take arg.toNat)) := by
  obtain ⟨hcount, -⟩ := writeAccepted_iff.mp hacc
  rw [writeCalls_eq]
  exact (drain_writeItems (wroteTo_mainHeader s _) (hm.length ▸ hcount) (Nat.zero_add _) le_rfl).2

/-- The state an accepted CFG_WRITE leaves, whatever ENV draws. -/
theorem finishWrite_writtenImage (hj : s.job = none) :
    (writtenImage s arg.toNat).finishWrite = { s with
      flash := (writtenImage s arg.toNat).flash
      items := stampTo s.cfg arg.toNat s.items
      wrErr := false
      diag := s.diag ||| s.ioBits (writeCalls (s.items.take arg.toNat))
      draws := s.draws.drop (writeCalls (s.items.take arg.toNat))
      drawCount := s.drawCount + writeCalls (s.items.take arg.toNat) } := by
  refine (congrArg State.finishWrite (wroteTo_writtenImage hm hacc)).trans ?_
  rw [State.finishWrite, hj]

end

/-- Settles O40: CFG_WRITE runs through all its items, each of whose calls draws once. -/
theorem cfgWriteAlwaysCompletes : Obligations.CfgWriteAlwaysCompletes := by
  intro s arg _ hinv hj hcount hlen hfit
  have hm := (storeInv_iff.mp hinv).1
  have hacc : writeAccepted s arg.toNat = true := writeAccepted_iff.mpr ⟨hcount, hlen, hfit⟩
  exact ⟨_, exec_cfgWrite_of_accepted hm hacc, finishWrite_writtenImage hm hacc hj⟩

/-- A sector erased by a call that succeeds holds nothing. -/
theorem flashHolds_flashErase {s : State} (hm : MemoriesOk s) (hok : s.callOk = true) : FlashHolds s.flashErase [] := by
  have hflash : s.flashErase.flash = [] := by rw [State.flashErase_of_ok hok]; exact Memory.eraseBelow_eq_nil hm.flashIn
  rw [FlashHolds, hflash]
  exact ⟨rfl, fun _ => rfl⟩

/-- With no failed call the flash holds the spec's picture of the image (30_encoding.md R111, R112). -/
theorem flashHolds_writtenImage {s : State} {n : Nat} (hm : MemoriesOk s) (hn : n ≤ s.items.length)
    (hok : callsSucceed s (writeCalls (s.items.take n)) = true) :
    FlashHolds (writtenImage s n) (flashImage s.cfg (s.items.take n)) := by
  rw [writeCalls_eq] at hok
  have hmain := wroteTo_mainHeader s (mainHeader (imageTotal s.items n))
  have herase : s.callOk = true := State.callOk_of_callsSucceed (k := 0) (callsSucceed_le hok (by omega))
  have hwrite : s.flashErase.callOk = true :=
    State.callOk_of_callsSucceed (k := 0) (callsSucceed_drop (j := 1) (callsSucceed_le hok (by omega)) s.flashErase_draws)
  have hheader := (flashHolds_flashErase hm herase).append (new := mainHeader (imageTotal s.items n)) hwrite rfl
  exact (writeItems_ok hheader hmain (by omega) (callsSucceed_drop hok (congrArg State.draws hmain))).1

/-- Calls that all succeed leave `DIAG` as it was. -/
theorem diag_of_callsSucceed {s : State} {k : Nat} (h : callsSucceed s k = true) (d : Byte) : d ||| s.ioBits k = d := by
  rw [State.ioBits_of_callsSucceed h]
  exact BitVec.or_zero

/-- The state an accepted CFG_WRITE leaves when no call fails. -/
theorem exec_cfgWrite_of_callsSucceed {s : State} {arg : Word} (hm : MemoriesOk s) (hacc : writeAccepted s arg.toNat = true)
    (hj : s.job = none) (hok : callsSucceed s (writeCalls (s.items.take arg.toNat)) = true) :
    exec (.cfgWrite arg) s = .next { s with
      flash := (writtenImage s arg.toNat).flash
      items := stampTo s.cfg arg.toNat s.items
      wrErr := false
      draws := s.draws.drop (writeCalls (s.items.take arg.toNat))
      drawCount := s.drawCount + writeCalls (s.items.take arg.toNat) } := by
  rw [exec_cfgWrite_of_accepted hm hacc, finishWrite_writtenImage hm hacc hj, diag_of_callsSucceed hok]

/-- Settles O39: the state of O40 with no diagnostic bit, and the image that the calls leave one after the other. -/
theorem cfgWriteLeavesTheImage : Obligations.CfgWriteLeavesTheImage := by
  intro s arg _ hinv hj hcount hlen hfit hok
  have hm := (storeInv_iff.mp hinv).1
  have hacc : writeAccepted s arg.toNat = true := writeAccepted_iff.mpr ⟨hcount, hlen, hfit⟩
  obtain ⟨-, hread⟩ := flashHolds_writtenImage hm (hm.length ▸ hcount) hok
  exact ⟨_, exec_cfgWrite_of_callsSucceed hm hacc hj hok, rfl, hread⟩

end Sys2Proof.Proofs
end

/-! PROOFS. CFG_READ run to its end: an empty store, and how every read ends whatever ENV draws (42_config_store.md R209 to
R216). -/
section
namespace Sys2Proof.Proofs
open Sys2Proof.Machine

/-- After the main header it does not matter which job there was. -/
theorem afterMain_job (s : State) (j : Option Job) (lim : Nat) (h : List Byte) :
    ({ s with job := j } : State).afterMain lim h = s.afterMain lim h := by
  unfold State.afterMain
  split
  · exact State.nextRead_job { s with rdEmpty := false } j lim 0 4 _
  · rfl

/-- A CFG_READ that is not refused reads the main header and goes on from there (R210). -/
theorem exec_cfgRead_of_free {s : State} {arg : Word}
    (hfree : ∀ it ∈ s.items.take (min arg.toNat s.cfg.maxItems), it.alloc = false) :
    exec (.cfgRead arg) s = .next ((s.flashReadDone.afterMain (min arg.toNat s.cfg.maxItems) (s.flashReadBytes 0 4)).drain
      (2 * s.cfg.maxItems + 1)) := by
  have hbusy : ¬ readBusy s (limitCount s.cfg arg) = true := fun h => by
    obtain ⟨it, hit, halloc⟩ := readBusy_iff.mp h
    exact Bool.false_ne_true ((hfree it hit).symm.trans halloc)
  refine (if_neg hbusy).trans (congrArg _ ?_)
  rw [State.startRead, if_neg hbusy, storeFuel, State.drain_succ rfl, State.microStep, State.flashReadDone_job, afterMain_job]
  rfl

/-- The state after `k` flash reads that succeed (20_memory.md R84, R86). -/
def afterCalls (s : State) (k : Nat) : State := { s with draws := s.draws.drop k, drawCount := s.drawCount + k }

/-- One flash read that succeeds. -/
theorem flashReadDone_of_callsSucceed {s : State} (h : callsSucceed s 1 = true) : s.flashReadDone = afterCalls s 1 := by
  rw [State.flashReadDone_eq, diag_of_callsSucceed h, afterCalls]

/-- The bytes of a flash read that succeeds. -/
theorem flashReadBytes_of_callsSucceed {s : State} (h : callsSucceed s 1 = true) (off n : Nat) :
    s.flashReadBytes off n = s.flash.readBytes off n :=
  State.flashReadBytes_of_ok (State.callOk_of_callsSucceed h) off n

/-! ## The head of the item loop (R211, R212, R215) -/

section
variable {s : State} {lim i off : Nat} {m : Int}

/-- The loop goes on with the next header. -/
theorem nextRead_header (hm : 0 < m) (hi : i < lim) (hin : off + 4 ≤ s.cfg.sectorSize) :
    s.nextRead lim i off m = { s with job := some (.readHeader lim i off m) } := by
  rw [State.nextRead, if_pos ⟨hm, hi⟩, if_neg hin.not_gt]

/-- The next header would pass the end of the sector. -/
theorem nextRead_bounds (hm : 0 < m) (hi : i < lim) (hout : s.cfg.sectorSize < off + 4) :
    s.nextRead lim i off m = (s.raiseDiag .bounds).finishRead i := by
  rw [State.nextRead, if_pos ⟨hm, hi⟩, if_pos hout]

/-- No declared byte is left, or the limit is reached. -/
theorem nextRead_close (h : m ≤ 0 ∨ lim ≤ i) :
    s.nextRead lim i off m =
      { s with diag := s.diag ||| (if m = 0 then 0 else 0x10), rdCount := BitVec.ofNat 8 i, job := none } := by
  rw [State.nextRead, if_neg (by omega), State.closeRead]
  by_cases hm : m = 0
  · rw [if_neg (not_not_intro hm), if_pos hm, show s.diag ||| 0 = s.diag from BitVec.or_zero]
    rfl
  · rw [if_pos hm, if_neg hm]
    rfl

end

/-! ## An empty store -/

/-- The two signature bytes, low byte first (20_memory.md R71). -/
theorem halfOf_eq_signature {lo hi : Byte} : halfOf lo hi = Config.signature ↔ lo = 0x55 ∧ hi = 0xAA := by
  refine ⟨fun h => ⟨?_, ?_⟩, fun ⟨hlo, hhi⟩ => hlo ▸ hhi ▸ rfl⟩
  · exact BitVec.extractLsb'_append_eq_right.symm.trans (congrArg (BitVec.extractLsb' 0 8) h)
  · exact BitVec.extractLsb'_append_eq_left.symm.trans (congrArg (BitVec.extractLsb' 8 8) h)

/-- Without the signature the store is empty (R210). -/
theorem afterMain_of_no_signature {s : State} {h : List Byte} (hsig : ¬ (h.getD 0 0 = 0x55 ∧ h.getD 1 0 = 0xAA))
    (lim : Nat) :
    s.afterMain lim h = { s with rdEmpty := true, rdCount := 0, job := none } := if_neg (mt halfOf_eq_signature.mp hsig)

/-- With it the item loop begins (R210, R211). -/
theorem afterMain_of_signature {s : State} {h : List Byte} (hsig : h.getD 0 0 = 0x55 ∧ h.getD 1 0 = 0xAA) (lim : Nat) :
    s.afterMain lim h =
      ({ s with rdEmpty := false } : State).nextRead lim 0 4 ((halfOf (h.getD 2 0) (h.getD 3 0)).toNat : Nat) :=
  if_pos (halfOf_eq_signature.mpr hsig)

/-- Settles O42: the main header ends the read, by its signature or by the head of the loop. -/
theorem cfgReadFindsAnEmptyStore : Obligations.CfgReadFindsAnEmptyStore := by
  intro s arg declared hj hfree hok hdecl
  rw [exec_cfgRead_of_free hfree, flashReadDone_of_callsSucceed hok, flashReadBytes_of_callsSucceed hok]
  constructor
  · intro hsig
    rw [afterMain_of_no_signature (h := s.flash.readBytes 0 4) hsig, State.drain_none rfl, afterCalls, hj]
  · intro hsig hnone
    have hzero : (declared.toNat : Int) = 0 ↔ declared = 0 := by
      rw [Int.natCast_eq_zero, BitVec.toNat_eq]
      rfl
    have hstop : (declared.toNat : Int) ≤ 0 ∨ min arg.toNat s.cfg.maxItems ≤ 0 := by
      rcases hnone with h | h
      · exact .inl (hzero.mpr h).le
      · exact .inr h.le
    have hend : (afterCalls s 1).afterMain (min arg.toNat s.cfg.maxItems) (s.flash.readBytes 0 4) =
        ({ afterCalls s 1 with rdEmpty := false } : State).nextRead (min arg.toNat s.cfg.maxItems) 0 4 declared.toNat := by
      rw [afterMain_of_signature (h := s.flash.readBytes 0 4) hsig, hdecl]
      rfl
    rw [hend, nextRead_close hstop, State.drain_none rfl]
    simp only [hzero, afterCalls, hj]
    rfl

/-! ## Every read -/

/-- However the main header reads, the read ends as its item loop does, and `RD_EMPTY` says which it was (R210). -/
theorem readEnd_afterMain {s : State} {lim fuel : Nat} (hl : lim ≤ 255) (hn : lim ≤ s.items.length)
    (hf : slotsFree s 0 lim = true) (hfuel : 2 * lim ≤ fuel) (h : List Byte) :
    ∃ b : Bool, ReadEnd { s with rdEmpty := b } ((s.afterMain lim h).drain fuel) 0 lim (2 * lim) := by
  by_cases hsig : h.getD 0 0 = 0x55 ∧ h.getD 1 0 = 0xAA
  · rw [afterMain_of_signature hsig]
    exact ⟨false, readEnd_nextRead (s := { s with rdEmpty := false }) (Nat.zero_add lim) hfuel hl hn hf⟩
  · rw [afterMain_of_no_signature hsig, State.drain_none rfl]
    refine ⟨true, readEnd_finish (SameStore.refl { s with rdEmpty := true }) (Nat.zero_le lim) hl hn hf
      (readCalls_end (e := 0) (by decide) ?_ rfl rfl _)⟩
    exact BitVec.or_zero.symm

/-- How a CFG_READ that is not refused ends: like its item loop after the flash read of the main header. -/
theorem exec_cfgRead_readEnd {s : State} {arg : Word} (hl : legalConfig s.cfg = true) (hm : MemoriesOk s)
    (hfree : ∀ it ∈ s.items.take (min arg.toNat s.cfg.maxItems), it.alloc = false) :
    ∃ (t : State) (b : Bool), exec (.cfgRead arg) s = .next t ∧
      ReadEnd { s.flashReadDone with rdEmpty := b } t 0 (min arg.toNat s.cfg.maxItems)
        (2 * min arg.toNat s.cfg.maxItems) := by
  have hlim : min arg.toNat s.cfg.maxItems ≤ s.cfg.maxItems := Nat.min_le_right _ _
  obtain ⟨-, -, -, -, -, -, -, -, -, hmax⟩ := legalConfig_bounds hl
  have hitems : s.flashReadDone.items = s.items := (sameStore_flashReadDone s).items
  have hslots : slotsFree s.flashReadDone 0 (min arg.toNat s.cfg.maxItems) = true := by
    simpa [slotsFree, hitems] using hfree
  obtain ⟨b, hend⟩ := readEnd_afterMain (fuel := 2 * s.cfg.maxItems + 1) (hlim.trans hmax)
    (hitems ▸ hm.length ▸ hlim) hslots (by omega) (s.flashReadBytes 0 4)
  exact ⟨_, b, exec_cfgRead_of_free hfree, hend⟩

/-- Settles O43: `ReadEnd` says how the item loop ends, and the main header is one call before it. -/
theorem cfgReadAlwaysCompletes : Obligations.CfgReadAlwaysCompletes := by
  intro s arg hl hinv hj hfree
  obtain ⟨t, b, ht, hend⟩ := exec_cfgRead_readEnd hl (storeInv_iff.mp hinv).1 hfree
  rw [State.flashReadDone_eq] at hend
  obtain ⟨k, ended, hk, hended, hdiag, hdraws, hcount⟩ := hend.calls
  refine ⟨t, 1 + k, ended, ht, ?_, by omega, by omega, hended, hend.le_lim, fun i hi => hend.alloc i (Nat.zero_le i) hi,
    hend.above⟩
  have hframe := hend.outside.eq
  rw [hend.flash, hend.wrErr, hend.job, hdiag, hdraws, hcount, List.drop_drop, Nat.add_assoc s.drawCount,
    BitVec.or_assoc s.diag, ← State.ioBits_add rfl rfl] at hframe
  rw [hj]
  exact hframe

end Sys2Proof.Proofs
end

/-! PROOFS. One item of CFG_READ (42_config_store.md R211 to R215): from its data header to the checksum test, and what the test
leads to. -/
section
namespace Sys2Proof.Proofs
open Sys2Proof.Machine

/-! ## Up to the checksum test -/

/-- The checksum test forgets which job there was. -/
theorem verifyItem_job (s : State) (j : Option Job) (lim i off : Nat) (m : Int) (id len : Byte) (ck : BitVec 16)
    (data : List Byte) :
    ({ s with job := j } : State).verifyItem lim i off m id len ck data = s.verifyItem lim i off m id len ck data := by
  unfold State.verifyItem
  dsimp only
  split
  · exact State.nextRead_job (s.fillItem i id len ck (data.take len.toNat)) j lim _ _ _
  · rfl

/-- Two calls that succeed, one after the other. -/
theorem afterCalls_afterCalls (s : State) (j k : Nat) : afterCalls (afterCalls s j) k = afterCalls s (j + k) := by
  simp only [afterCalls, List.drop_drop, Nat.add_assoc]

/-- Calls that succeed are the same whichever job makes them. -/
theorem afterCalls_job (s : State) (j : Option Job) (k : Nat) :
    afterCalls { s with job := j } k = { afterCalls s k with job := j } := rfl

section
variable {s : State} {lim i off calls : Nat} {m : Int} {id len : Byte} {ck : BitVec 16}
  (hl : legalConfig s.cfg = true) (hinv : storeInv s = true) (hj : s.job = some (.readHeader lim i off m)) (hs : s.sched = [])
  (hid : s.flash.read off = id) (hlen : s.flash.read (off + 1) = len)
  (hck : halfOf (s.flash.read (off + 2)) (s.flash.read (off + 3)) = ck)
include hl hinv hj hs hid hlen hck

/-- The flash call of a data header, when it succeeds. -/
theorem step_readHeader (hok : callsSucceed s 1 = true) :
    step s = .next
      (if s.cfg.sectorSize < off + itemSize len.toNat then ((afterCalls s 1).raiseDiag .bounds).finishRead i
      else if 0 < alignUp len.toNat then { afterCalls s 1 with job := some (.readData lim i off m id len ck) }
      else (afterCalls s 1).verifyItem lim i off m id len ck []) := by
  rw [step_flashCall hl hinv hs hj, State.microStep, flashReadDone_of_callsSucceed hok, flashReadBytes_of_callsSucceed hok]
  subst hid hlen hck
  rfl

/-- An item that fits the sector comes to the checksum test of its aligned data after one flash call, or two if it is not
empty. -/
theorem run_readItem (hin : off + itemSize len.toNat ≤ s.cfg.sectorSize) (hcalls : calls = if len = 0 then 1 else 2)
    (hok : callsSucceed s calls = true) :
    core.run calls s = .next ((afterCalls s calls).verifyItem lim i off m id len ck
      (s.flash.readBytes (off + 4) (alignUp len.toNat))) := by
  have hfirst := step_readHeader hl hinv hj hs hid hlen hck (callsSucceed_le hok (by split at hcalls <;> omega))
  rw [if_neg hin.not_gt] at hfirst
  by_cases hzero : len = 0
  · rw [if_pos hzero] at hcalls
    subst hcalls hzero
    rw [core_run_one, hfirst]
    rfl
  · rw [if_neg hzero] at hcalls
    have hpos : 0 < len.toNat := by bv_omega
    rw [if_pos (alignUp_pos.mpr hpos)] at hfirst
    subst hcalls
    have hok' : callsSucceed { afterCalls s 1 with job := some (.readData lim i off m id len ck) } 1 = true :=
      callsSucceed_drop (j := 1) hok rfl
    have hinv' : storeInv { afterCalls s 1 with job := some (.readData lim i off m id len ck) } = true := by
      rw [step_flashCall hl hinv hs hj] at hfirst
      exact Host.Outcome.next.inj hfirst ▸ storeInv_microStep hl hinv hj
    rw [core_run_succ hfirst, core_run_one, step_flashCall (s := { afterCalls s 1 with job := _ }) hl hinv' hs rfl,
      State.microStep, flashReadDone_of_callsSucceed hok', flashReadBytes_of_callsSucceed hok', afterCalls_job, verifyItem_job,
      afterCalls_afterCalls]
    rfl

end

/-- The data of an item are its aligned data without the padding (R211). -/
theorem take_readBytes (m : Memory) (off : Nat) {k n : Nat} (h : k ≤ n) : (m.readBytes off n).take k = m.readBytes off k := by
  simp only [Memory.readBytes, ← List.map_take, List.take_range, Nat.min_eq_left h]

/-! ## What the test leads to -/

/-- A checksum that does not match (R213). -/
theorem verifyItem_of_mismatch {s : State} {lim i off : Nat} {m : Int} {id len : Byte} {ck : BitVec 16} {data : List Byte}
    (h : checksum s.cfg.cksum (data.take len.toNat) ≠ ck) :
    s.verifyItem lim i off m id len ck data = (s.discardItem i id ck).finishRead i := if_neg h

/-- A checksum that matches (R214). -/
theorem verifyItem_of_match {s : State} {lim i off : Nat} {m : Int} {id len : Byte} {ck : BitVec 16} {data : List Byte}
    (h : checksum s.cfg.cksum (data.take len.toNat) = ck) :
    s.verifyItem lim i off m id len ck data = (s.fillItem i id len ck (data.take len.toNat)).nextRead lim (i + 1)
      (off + itemSize len.toNat) (m - (itemSize len.toNat : Nat)) := if_pos h

/-- Settles O44: the item comes to the checksum test, which discards it. -/
theorem checksumMismatchStopsTheRead : Obligations.ChecksumMismatchStopsTheRead := by
  intro s lim i off calls remaining id len ck hl hinv hj hs hid hlen hck hin hcalls hok hne
  rw [Nat.add_assoc] at hin
  rw [← take_readBytes _ _ (le_alignUp len.toNat)] at hne
  refine ⟨_, (afterCalls s calls).freeData, run_readItem hl hinv hj hs hid hlen hck hin hcalls hok, ?_⟩
  rw [verifyItem_of_mismatch (s := afterCalls s calls) hne]
  rfl

/-- The head of the loop leaves everything but `DIAG`, `RD_COUNT` and the job (R211, R212, R215). -/
theorem nextRead_frame (s : State) (lim i off : Nat) (m : Int) :
    s.nextRead lim i off m =
      { s with diag := (s.nextRead lim i off m).diag, rdCount := (s.nextRead lim i off m).rdCount
               job := (s.nextRead lim i off m).job } := by
  unfold State.nextRead State.closeRead
  split <;> split <;> rfl

/-- The bytes of one memory copied to the start of another (R214). -/
theorem read_writeBytes_readBytes {m : Memory} (h : m.wf = true) (f : Memory) (a n k : Nat) :
    (m.writeBytes 0 (f.readBytes a n)).read k = if k < n then f.read (a + k) else m.read k := by
  rw [Memory.read_writeBytes h, Memory.length_readBytes, Nat.sub_zero, Nat.zero_add]
  by_cases hk : k < n
  · rw [if_pos ⟨Nat.zero_le k, hk⟩, if_pos hk, Memory.getD_readBytes hk]
  · rw [if_neg fun h => hk h.2, if_neg hk]

/-- The slot that CFG_READ fills next is one of the table's. -/
theorem lt_length_of_readHeader {s : State} {lim i off : Nat} {m : Int} (hinv : storeInv s = true)
    (hj : s.job = some (.readHeader lim i off m)) : i < s.items.length := by
  obtain ⟨hm, hjob⟩ := storeInv_iff.mp hinv
  simp only [jobInv, hj, Bool.and_eq_true, decide_eq_true_eq] at hjob
  obtain ⟨⟨⟨⟨hlim, hi⟩, -⟩, -⟩, -⟩ := hjob
  exact hm.length ▸ hi.trans_le hlim

/-- Settles O45: past the sector the header's call ends the read; else the item comes to the checksum test, which fills the
slot, and the head of the loop decides what comes next. -/
theorem verifiedItemFillsItsSlot : Obligations.VerifiedItemFillsItsSlot := by
  intro s lim i off calls remaining left id len ck hl hinv hj hs hid hlen hck hcalls hleft
  have hsize : 4 + alignUp len.toNat = itemSize len.toNat := rfl
  rw [hsize] at hleft
  rw [Nat.add_assoc off 4, hsize]
  constructor
  · intro hout hok
    rw [core_run_one, step_readHeader hl hinv hj hs hid hlen hck hok, if_pos hout]
    rfl
  · intro hin hok hmatch
    rw [← take_readBytes _ _ (le_alignUp len.toNat)] at hmatch
    have hwf := (storeInv_iff.mp hinv).1.dataWf _ (State.item_mem (lt_length_of_readHeader hinv hj))
    have hrun := run_readItem hl hinv hj hs hid hlen hck hin hcalls hok
    rw [verifyItem_of_match (s := afterCalls s calls) hmatch, take_readBytes _ _ (le_alignUp len.toNat), ← hleft] at hrun
    refine ⟨_, _, hrun, nextRead_frame _ _ _ _ _, fun k => ?_, fun hpos hlt hnext => ?_, fun hpos hlt hnext => ?_,
      fun hend => ?_⟩
    · exact read_writeBytes_readBytes hwf s.flash (off + 4) len.toNat k
    · rw [nextRead_header hpos hlt]
      · exact ⟨rfl, rfl, rfl⟩
      · exact hnext
    · rw [nextRead_bounds hpos hlt]
      · exact ⟨rfl, rfl, rfl⟩
      · exact hnext
    · rw [nextRead_close hend]
      exact ⟨rfl, rfl, rfl⟩

end Sys2Proof.Proofs
end

/-! PROOFS. The round trip of a configuration: CFG_READ of the image that CFG_WRITE left (42_config_store.md R223). -/
section
namespace Sys2Proof.Proofs
open Sys2Proof.Machine

/-! ## The items of an image taken from the flash -/

/-- The slots from `i` on filled with the items of an image, their flash calls made. -/
def tookItems : List Item → State → Nat → State
  | [], s, _ => s
  | it :: rest, s, i => tookItems rest (s.tookItem i it) (i + 1)

/-- The flash bytes of some items, headers and padding included (R191). -/
def itemsSize (items : List Item) : Nat := (items.map fun it => itemSize it.len.toNat).sum

theorem itemsSize_cons (it : Item) (rest : List Item) :
    itemsSize (it :: rest) = itemSize it.len.toNat + itemsSize rest := by
  rw [itemsSize, List.map_cons, List.sum_cons, itemsSize]

/-- CFG_READ of an image takes all its items, with every call succeeding, and ends with no byte left (R211, R214, R215). -/
theorem drain_tookItems {items : List Item} {s : State} {lim i off fuel : Nat} (hlim : i + items.length ≤ lim)
    (hlen : ∀ it ∈ items, it.len.toNat ≤ 255) (hend : off + itemsSize items ≤ s.cfg.sectorSize)
    (hread : s.flash.readBytes off (itemsSize items) = items.flatMap (itemImage s.cfg))
    (hok : callsSucceed s (items.map itemCalls).sum = true) (hfuel : 2 * items.length ≤ fuel) :
    (s.nextRead lim i off (itemsSize items : Nat)).drain fuel = (tookItems items s i).finishRead (i + items.length) := by
  induction items generalizing s i off fuel with
  | nil =>
    rw [nextRead_close (.inl (show ((itemsSize [] : Nat) : Int) ≤ 0 from le_rfl)), State.drain_none rfl]
    show ({ s with diag := s.diag ||| 0, rdCount := BitVec.ofNat 8 i, job := none } : State) = s.finishRead i
    rw [show s.diag ||| 0 = s.diag from BitVec.or_zero, State.finishRead]
  | cons it rest ih =>
    rw [itemsSize_cons] at hend hread ⊢
    rw [List.map_cons, List.sum_cons] at hok
    rw [List.length_cons] at hlim hfuel ⊢
    obtain ⟨f, rfl⟩ : ∃ f, fuel = f + 2 := ⟨fuel - 2, by omega⟩
    rw [Memory.readBytes_append] at hread
    obtain ⟨hfirst, hrest⟩ := List.append_inj hread (by simp)
    have hsize : 0 < itemSize it.len.toNat := Nat.add_pos_left (by decide) _
    have hleft : ((itemSize it.len.toNat + itemsSize rest : Nat) : Int) - (itemSize it.len.toNat : Nat) =
        (itemsSize rest : Nat) := by omega
    rw [drain_readItem (by omega) (by omega) (hlen it List.mem_cons_self) (by omega) hfirst (callsSucceed_le hok (by omega)),
      hleft, ih (s := s.tookItem i it) (i := i + 1) (off := off + itemSize it.len.toNat) (by omega)
        (fun x hx => hlen x (List.mem_cons_of_mem _ hx)) ((Nat.add_assoc ..).trans_le hend) hrest (callsSucceed_drop hok rfl)
        (by split <;> omega), tookItems, Nat.add_right_comm, Nat.add_assoc]

/-- Taking items changes neither `DIAG` nor `RD_EMPTY`. -/
theorem tookItems_status (items : List Item) (s : State) (i : Nat) :
    (tookItems items s i).rdEmpty = s.rdEmpty ∧ (tookItems items s i).diag = s.diag := by
  induction items generalizing s i with
  | nil => exact ⟨rfl, rfl⟩
  | cons it rest ih => exact ih (s.tookItem i it) (i + 1)

/-! ## What is in the slots -/

/-- A slot of the table is one of the items. -/
theorem item_eq_getElem {s : State} {i : Nat} (h : i < s.items.length) : s.item i = s.items[i] := by
  rw [State.item, List.getD_eq_getElem?_getD, List.getElem?_eq_getElem h, Option.getD_some]

/-- A slot past the end of the table reads as a reset slot (log 14). -/
theorem item_of_length_le {s : State} {i : Nat} (h : s.items.length ≤ i) : s.item i = Item.reset := by
  rw [State.item, List.getD_eq_getElem?_getD, List.getElem?_eq_none h, Option.getD_none]

/-- Slots of a table in order have their data in canonical form, and so has the reset slot that is read past its end. -/
theorem wf_data_item {s : State} (h : ∀ it ∈ s.items, it.data.wf = true) (i : Nat) : (s.item i).data.wf = true := by
  rcases Nat.lt_or_ge i s.items.length with hi | hi
  · exact h _ (State.item_mem hi)
  · rw [item_of_length_le hi]
    rfl

/-- Taking an item fills its own slot only. -/
theorem item_tookItem_of_ne {s : State} {i j : Nat} (h : j ≠ i) (it : Item) : (s.tookItem i it).item j = s.item j := by
  simp only [State.item, State.tookItem, State.fillItem_items, List.getD_eq_getElem?_getD, List.getElem?_set_ne h.symm]

/-- Slots below the first one stay. -/
theorem item_tookItems_of_lt {items : List Item} {s : State} {i j : Nat} (h : j < i) :
    (tookItems items s i).item j = s.item j := by
  induction items generalizing s i with
  | nil => rfl
  | cons it rest ih => rw [tookItems, ih (by omega), item_tookItem_of_ne (by omega)]

/-- Slot `x` holds the item `it` as a CFG_READ restores it (R223). -/
def Restores (it x : Item) : Prop := x.alloc = true ∧ x.id = it.id ∧ x.len = it.len ∧ x.blob = it.blob

/-- The slot of an item just taken holds it. -/
theorem restores_tookItem {s : State} {i : Nat} {it : Item} (hi : i < s.items.length) (hwf : (s.item i).data.wf = true)
    (hlen : it.len.toNat ≤ 255) : Restores it ((s.tookItem i it).item i) := by
  have hwidth : (it.len.setWidth 8).setWidth 16 = it.len := by bv_omega
  have hslot : (s.tookItem i it).item i = { alloc := true, id := it.id, len := it.len, cksum := checksum s.cfg.cksum it.blob
                                            data := (s.item i).data.writeBytes 0 it.blob } := by
    rw [← hwidth]
    simp [State.item, State.tookItem, List.getD_eq_getElem?_getD, hi]
  rw [hslot]
  refine ⟨rfl, rfl, rfl, List.map_congr_left fun k hk => ?_⟩
  simp only [Item.blob, read_writeBytes_readBytes hwf, Nat.zero_add]
  exact if_pos (List.mem_range.mp hk)

/-- Every slot of the items taken holds its item. -/
theorem restores_tookItems {items : List Item} {s : State} {i j k : Nat} {it : Item} (hk : items[k]? = some it)
    (hj : i + k = j) (hin : i + items.length ≤ s.items.length) (hwf : ∀ j, i ≤ j → (s.item j).data.wf = true)
    (hlen : ∀ it ∈ items, it.len.toNat ≤ 255) : Restores it ((tookItems items s i).item j) := by
  induction items generalizing s i k with
  | nil => cases hk
  | cons x rest ih =>
    rw [List.length_cons] at hin
    rw [tookItems]
    cases k with
    | zero =>
      obtain rfl : x = it := Option.some.inj hk
      obtain rfl : i = j := hj
      rw [item_tookItems_of_lt (Nat.lt_succ_self i)]
      exact restores_tookItem (by omega) (hwf i le_rfl) (hlen x List.mem_cons_self)
    | succ k =>
      refine ih (s := s.tookItem i x) (i := i + 1) hk (by omega) ?_ (fun j hj => ?_) fun y hy =>
        hlen y (List.mem_cons_of_mem _ hy)
      · rw [State.tookItem, State.fillItem_items, List.length_set]
        omega
      · rw [item_tookItem_of_ne (by omega)]
        exact hwf j (by omega)

/-! ## The image read back -/

/-- The bytes of the flash where it holds the second part of some. -/
theorem readBytes_of_flashHolds {s : State} {a b : List Byte} (h : FlashHolds s (a ++ b)) :
    s.flash.readBytes a.length b.length = b := by
  obtain ⟨-, hread⟩ := h
  refine List.ext_getElem (Memory.length_readBytes _ _ _) fun k _ hk => ?_
  simp [Memory.readBytes, hread, List.getD_eq_getElem?_getD, hk]

/-- The two bytes of a field give it back (20_memory.md R71). -/
theorem halfOf_halfBytes (v : BitVec 16) : halfOf (v.extractLsb' 0 8) (v.extractLsb' 8 8) = v := by
  obtain ⟨-, -, h⟩ := dataHeader_fields Item.reset v
  exact h

theorem length_flatMap_itemImage (c : Config) (items : List Item) : (items.flatMap (itemImage c)).length = itemsSize items := by
  simp only [List.length_flatMap, length_itemImage, itemsSize]

section
variable {s : State} {items : List Item}

/-- The main header of an image starts the item loop with the bytes of its items (R210). -/
theorem afterMain_of_flashHolds (h : FlashHolds s (flashImage s.cfg items)) (hsize : itemsSize items < 65536) (t : State)
    (lim : Nat) :
    t.afterMain lim (s.flash.readBytes 0 4) =
      ({ t with rdEmpty := false } : State).nextRead lim 0 4 (itemsSize items : Nat) := by
  obtain ⟨-, hread⟩ := h
  rw [afterMain_of_signature (h := s.flash.readBytes 0 4) ⟨hread 0, hread 1⟩]
  have hdecl : halfOf (s.flash.read 2) (s.flash.read 3) = BitVec.ofNat 16 (itemsSize items) := by
    rw [hread 2, hread 3]
    exact halfOf_halfBytes _
  have hnat : (halfOf (s.flash.read 2) (s.flash.read 3)).toNat = itemsSize items := by
    rw [hdecl, BitVec.toNat_ofNat, Nat.mod_eq_of_lt hsize]
  rw [← hnat]
  rfl

/-- CFG_READ of an image, with every call succeeding, takes its items and ends (R210 to R215). -/
theorem exec_cfgRead_of_flashHolds {arg : Word} (hl : legalConfig s.cfg = true) (hfree : ∀ it ∈ s.items, it.alloc = false)
    (hholds : FlashHolds s (flashImage s.cfg items)) (hcount : items.length ≤ min arg.toNat s.cfg.maxItems)
    (hlen : ∀ it ∈ items, it.len.toNat ≤ 255) (hfit : 4 + itemsSize items ≤ s.cfg.sectorSize)
    (hok : callsSucceed s (1 + (items.map itemCalls).sum) = true) :
    exec (.cfgRead arg) s =
      .next ((tookItems items { afterCalls s 1 with rdEmpty := false } 0).finishRead items.length) := by
  have hok1 : callsSucceed s 1 = true := callsSucceed_le hok (Nat.le_add_right _ _)
  obtain ⟨-, -, -, -, -, -, -, hsector, -, -⟩ := legalConfig_bounds hl
  have hread : s.flash.readBytes 4 (itemsSize items) = items.flatMap (itemImage s.cfg) :=
    length_flatMap_itemImage s.cfg items ▸ readBytes_of_flashHolds hholds
  rw [exec_cfgRead_of_free fun it hit => hfree it (List.mem_of_mem_take hit), flashReadDone_of_callsSucceed hok1,
    flashReadBytes_of_callsSucceed hok1, afterMain_of_flashHolds hholds (by omega),
    drain_tookItems (s := { afterCalls s 1 with rdEmpty := false }) (by omega) hlen hfit hread (callsSucceed_drop hok rfl)
      (by omega), Nat.zero_add]

end

/-- Storing checksums keeps every other field of every slot. -/
theorem map_stampTo {α : Type} {f : Item → α} {c : Config} (hf : ∀ it, f (it.stamped c) = f it) (n : Nat)
    (items : List Item) : (stampTo c n items).map f = items.map f := by
  have hcomp : f ∘ Item.stamped c = f := funext hf
  rw [stampTo, List.map_append, List.map_map, hcomp, ← List.map_append, List.take_append_drop]

/-- What holds of a field of every slot still does after checksums were stored. -/
theorem forall_stampTo {α : Type} {f : Item → α} {c : Config} (hf : ∀ it, f (it.stamped c) = f it) {P : α → Prop}
    (n : Nat) {items : List Item} (h : ∀ it ∈ items, P (f it)) : ∀ it ∈ stampTo c n items, P (f it) := by
  rw [← List.forall_mem_map] at h ⊢
  rwa [map_stampTo hf]

/-- CFG_WRITE makes at most two calls for each item. -/
theorem sum_itemCalls_le (items : List Item) : (items.map itemCalls).sum ≤ 2 * items.length := by
  refine (List.sum_le_card_nsmul _ 2 fun k hk => ?_).trans_eq (by simp [Nat.mul_comm])
  obtain ⟨it, -, rfl⟩ := List.mem_map.mp hk
  unfold itemCalls
  split <;> decide

/-- Settles O46: CFG_WRITE leaves an image of its items, and CFG_READ fills the slots with the items of an image. -/
theorem configurationRoundTrip : Obligations.ConfigurationRoundTrip := by
  intro s t n m hl hinv hj hfree hacc hnm hok hwrite
  have hm := (storeInv_iff.mp hinv).1
  obtain ⟨hcount, hlen, hfit⟩ := writeAccepted_iff.mp hacc
  have hn : n.toNat ≤ s.items.length := hm.length ▸ hcount
  have hlength : (s.items.take n.toNat).length = n.toNat := List.length_take_of_le hn
  have hcalls := sum_itemCalls_le (s.items.take n.toNat)
  have hokw : callsSucceed s (writeCalls (s.items.take n.toNat)) = true :=
    callsSucceed_le hok (by rw [writeCalls_eq]; omega)
  have hokr : callsSucceed s (writeCalls (s.items.take n.toNat) + (1 + ((s.items.take n.toNat).map itemCalls).sum)) = true :=
    callsSucceed_le hok (by rw [writeCalls_eq]; omega)
  have hholds := flashHolds_writtenImage hm hn hokw
  cases hwrite.symm.trans (exec_cfgWrite_of_callsSucceed hm hacc hj hokw)
  have hfree' := forall_stampTo (c := s.cfg) (f := Item.alloc) (P := (· = false)) (fun _ => rfl) n.toNat hfree
  have hwf' := forall_stampTo (c := s.cfg) (f := Item.data) (P := (·.wf = true)) (fun _ => rfl) n.toNat hm.dataWf
  refine ⟨_, exec_cfgRead_of_flashHolds hl hfree' hholds (hlength.trans_le (le_min hnm hcount)) hlen hfit
    (callsSucceed_drop hokr rfl), ?_, ?_, ?_, fun i hi => ?_⟩
  · have hmax := legalConfig_bounds hl
    rw [State.finishRead_rdCount, hlength, BitVec.toNat_ofNat, Nat.mod_eq_of_lt (by omega)]
  · exact (tookItems_status _ _ _).1
  · exact (tookItems_status _ _ _).2
  · have hslot : (s.items.take n.toNat)[i]? = some (s.item i) := by
      rw [List.getElem?_take_of_lt hi, List.getElem?_eq_getElem (hi.trans_le hn), item_eq_getElem]
    have hin : 0 + (s.items.take n.toNat).length ≤ (stampTo s.cfg n.toNat s.items).length := by
      rw [hlength, length_stampTo, Nat.zero_add]
      exact hn
    exact restores_tookItems hslot (Nat.zero_add i) hin (fun j _ => wf_data_item hwf' j) hlen

end Sys2Proof.Proofs
end

/-! PROOFS. Who owns the blobs of the item table (42_config_store.md R222). -/
section
namespace Sys2Proof.Proofs
open Sys2Proof.Machine

/-- What a command does to the item table, run to its end: nothing, or it frees slots, or it stores checksums, or it fills
slots that held no blob (42_config_store.md R201, R209 to R222). -/
inductive ItemsCase (i : Instr) (s t : State) : Prop where
  | same (h : t.items = s.items)
  | free (arg : Word) (hi : i = .cfgFree arg) (ht : t.items = freeSlots arg.toNat s.items)
  | freeAll (hi : i = .cfgFreeAll)
  | stamp (n : Nat) (ht : t.items = stampTo s.cfg n s.items)
  | fill (lim : Nat) (hfree : slotsFree s 0 lim = true) (ht : ∀ k, lim ≤ k → t.item k = s.item k)

/-- Everything a command can do to the item table. -/
theorem exec_itemsCase {i : Instr} {s t : State} (hl : legalConfig s.cfg = true) (hinv : storeInv s = true)
    (hj : s.job = none) (h : exec i s = .next t) : ItemsCase i s t := by
  have hm := (storeInv_iff.mp hinv).1
  have hsend : ∀ d, (s.mutateAndSend d).items = s.items := fun d => by
    rw [State.mutateAndSend_eq]
    rfl
  cases i with
  | on | off | auto | cool | heat | temp arg => cases h; exact .same (hsend _)
  | fanLevel arg =>
    simp only [exec, execFanLevel] at h
    split at h <;> cases h
    · exact .same (hsend _)
    · exact .same rfl
  | send => cases h; exact .same (hsend s.dev)
  | move | encode | unrecognised op => cases h; exact .same rfl
  | cfgFreeAll => exact .freeAll rfl
  | cfgFree arg =>
    rw [exec_cfgFree hm.length] at h
    cases h
    exact .free arg rfl rfl
  | cfgWrite arg =>
    by_cases hacc : writeAccepted s arg.toNat = true
    · rw [exec_cfgWrite_of_accepted hm hacc] at h
      cases h
      exact .stamp arg.toNat (congrArg State.items (finishWrite_writtenImage hm hacc hj))
    · rw [exec_cfgWrite_of_not_accepted hacc] at h
      cases h
      exact .same rfl
  | cfgRead arg =>
    by_cases hbusy : readBusy s (min arg.toNat s.cfg.maxItems) = true
    · cases h.symm.trans (cfgReadRefusesUnfreedSlots s arg (readBusy_iff.mp hbusy))
      exact .same rfl
    · have hfree := slotsFree_of_not_readBusy hbusy
      obtain ⟨u, k, ended, hu, -, -, -, -, -, -, habove⟩ := cfgReadAlwaysCompletes s arg hl hinv hj
        (by simpa [readBusy] using hbusy)
      cases h.symm.trans hu
      exact .fill _ hfree habove

/-- Whether a slot holds a blob, read from the table's fields. -/
theorem alloc_item (s : State) (k : Nat) : (s.item k).alloc = (s.items.map Item.alloc).getD k false :=
  (List.getD_map s.items Item.reset Item.alloc).symm

/-- Slots past those that are freed stay (R220). -/
theorem getD_freeSlots_of_le {items : List Item} {n k : Nat} (h : n ≤ k) (d : Item) :
    (freeSlots n items).getD k d = items.getD k d := by
  induction items generalizing n k with
  | nil => rw [freeSlots]
  | cons it rest ih =>
    cases n with
    | zero => rfl
    | succ n =>
      cases k with
      | zero => cases h
      | succ k => rw [freeSlots, List.getD_cons_succ, List.getD_cons_succ, ih (Nat.le_of_succ_le_succ h)]

/-- Settles O48: checksums and reads leave a blob with its owner, and freeing takes it from the slots it names. -/
theorem blobsAreFreedOnlyByTheirOwner : Obligations.BlobsAreFreedOnlyByTheirOwner := by
  intro i s t k hl hinv hj h hbefore hafter
  have hkept : ¬ (t.item k).alloc = (s.item k).alloc := by simp [hbefore, hafter]
  have hk : k < s.items.length := by
    by_contra hk
    rw [item_of_length_le (not_lt.mp hk)] at hbefore
    cases hbefore
  cases exec_itemsCase hl hinv hj h with
  | same ht => exact (hkept (by rw [State.item, ht]; rfl)).elim
  | free arg hi ht =>
    refine .inr ⟨arg, hi, not_le.mp fun hle => hkept ?_⟩
    rw [State.item, ht, getD_freeSlots_of_le hle]
    rfl
  | freeAll hi => exact .inl hi
  | stamp n ht => exact (hkept (by rw [alloc_item, ht, map_stampTo fun _ => rfl, alloc_item])).elim
  | fill lim hfree ht =>
    rcases Nat.lt_or_ge k lim with hlt | hge
    · cases hbefore.symm.trans (slotsFree_iff.mp hfree k (Nat.zero_le k) hlt hk)
    · exact (hkept (by rw [ht k hge])).elim

end Sys2Proof.Proofs
end

/-! PROOFS. The Command Interpreter: vocabulary commands, rejected operands and undefined opcodes
(43_command_interpreter.md R241 to R251). -/
section
namespace Sys2Proof.Proofs
open Sys2Proof.Machine

/-! ## Undefined opcodes -/

/-- The opcodes of the map fill two ranges and stand at two single places (30_encoding.md R102). -/
theorem mem_definedOpcodes {op : Byte} : op ∈ definedOpcodes ↔
    0x01 ≤ op.toNat ∧ op.toNat ≤ 0x08 ∨ op = 0x10 ∨ op = 0x11 ∨ 0x20 ≤ op.toNat ∧ op.toNat ≤ 0x23 := by
  simp only [definedOpcodes, List.mem_cons, List.not_mem_nil, or_false, ← BitVec.toNat_inj, BitVec.ofNat_eq_ofNat,
    BitVec.toNat_ofNat]
  omega

/-- Only an opcode outside the map selects the default row (R104). -/
theorem decodeCommand_eq_unrecognised {op : Byte} {arg : Word} :
    decodeCommand op arg = .unrecognised op ↔ op ∉ definedOpcodes := by
  refine ⟨fun h => ?_, fun h => decodeCommand_of_undefined h arg⟩
  have hwf := wf_decodeCommand op arg
  rw [h] at hwf
  simpa [Instr.wf] using hwf

/-- Settles O4: the default row is selected outside the map, and its command raises a diagnostic. -/
theorem undefinedOpcodesOnlySetADiagnostic : Obligations.UndefinedOpcodesOnlySetADiagnostic :=
  ⟨fun _ _ => decodeCommand_eq_unrecognised.trans (not_congr mem_definedOpcodes), fun _ _ => rfl⟩

/-! ## Commands that write the DeviceState -/

/-- The answer of a command that mutates the DeviceState and then sends it (R249). -/
theorem next_mutateAndSend (s : State) (d : DeviceState) :
    (.next (s.mutateAndSend d) : Host.Outcome State Fault Refusal) = .next (sentAs s d) :=
  congrArg _ (s.mutateAndSend_eq d)

/-- TEMP stores all the bits of its operand: reading them as a signed integer loses none (R246). -/
theorem exec_temp_eq (s : State) (v : Word) : exec (.temp v) s = .next (sentAs s { s.dev with temp := v }) := by
  rw [exec, execTemp, signedOperand, BitVec.ofInt_toInt, next_mutateAndSend]

/-- Settles O31: each of the six is a mutation of the DeviceState and then SEND. -/
theorem vocabularyCommandsMutateAndSend : Obligations.VocabularyCommandsMutateAndSend := fun s v =>
  ⟨next_mutateAndSend s _, next_mutateAndSend s _, next_mutateAndSend s _, next_mutateAndSend s _,
    next_mutateAndSend s _, exec_temp_eq s v⟩

/-- The ordinal of a level selects it (R103). -/
theorem fanOfOrdinal_fanOrdinal (l : FanLevel) : fanOfOrdinal (fanOrdinal l).toNat = some l := by
  cases l <;> rfl

/-- The ordinals of the levels are 0..4 (10_state.md R25). -/
theorem exists_fanOrdinal_eq {v : Int} (hlo : 0 ≤ v) (hhi : v ≤ 4) :
    ∃ l : FanLevel, ((fanOrdinal l).toNat : Int) = v := by
  interval_cases v
  · exact ⟨.low, rfl⟩
  · exact ⟨.medium, rfl⟩
  · exact ⟨.high, rfl⟩
  · exact ⟨.auto, rfl⟩
  · exact ⟨.off, rfl⟩

/-- Outside 0..4 there is no level (R103). -/
theorem fanOfOrdinal_of_outside {v : Int} (h : v < 0 ∨ 4 < v) : fanOfOrdinal v = none := by
  have hne : v ≠ 0 ∧ v ≠ 1 ∧ v ≠ 2 ∧ v ≠ 3 ∧ v ≠ 4 := by omega
  simp only [fanOfOrdinal, hne, if_false]

/-- Settles O32: the operand is the ordinal of a level, or there is no level for it. -/
theorem fanLevelStoresOrRejects : Obligations.FanLevelStoresOrRejects := by
  refine fun s v => ⟨fun hlo hhi => ?_, fun hout => ?_⟩
  · obtain ⟨l, hl⟩ := exists_fanOrdinal_eq hlo hhi
    have hlevel : fanOfOrdinal (signedOperand v) = some l := by rw [signedOperand, ← hl, fanOfOrdinal_fanOrdinal]
    refine ⟨l, hl, ?_⟩
    rw [exec, execFanLevel, hlevel, ← next_mutateAndSend]
  · have hlevel : fanOfOrdinal (signedOperand v) = none := fanOfOrdinal_of_outside hout
    rw [exec, execFanLevel, hlevel]
    rfl

/-- Settles O33: the meaning of MOVE is the state it is given. -/
theorem moveChangesNothing : Obligations.MoveChangesNothing := fun _ => rfl

/-! ## The end-to-end scenario -/

/-- The packet of an enabled DeviceState: its nibbles side by side, behind the magic byte
(40_protocol_encoder.md R131, R134). -/
theorem encodePacket_of_enabled (c : Config) {d : DeviceState} (h : d.en = true) :
    encodePacket c d = ⟨0xB2, c.stateOnCode ++ fanNibble c d.fan, modeNibble c d.mode ++ tempNibble d.temp⟩ := by
  rw [encodePacket, nibblesOf, if_pos h, pack, packByte_eq_append, packByte_eq_append, Config.magic]

/-- A sent DeviceState starts the timer where `CTRL.BLK` is 0 (41_waveform_generator.md R155). -/
theorem sentAs_timerEn {s : State} (h : s.ctrlBlk = false) (d : DeviceState) : (sentAs s d).gen.timerEn = true := by
  simp [sentAs, h, emissionStarted]

/-- Settles O34: the three commands send the DeviceState one after the other, each from the state the last one left. -/
theorem endToEndScenario : Obligations.EndToEndScenario := by
  intro s
  have hlast : (encodePacket s.cfg { s.dev with en := true, mode := .cool, temp := 19 }).p2 =
      s.cfg.modeCode.cool ++ 2#4 := by
    have hnibble : tempNibble 19 = 2 := by decide
    rw [encodePacket_of_enabled _ rfl, hnibble]
    rfl
  refine ⟨_, _, _, exec_temp_eq s 19, next_mutateAndSend _ _, next_mutateAndSend _ _, rfl, hlast, hlast,
    congrArg (~~~·) hlast, fun hblk => ?_, fun hcfg hdev => ?_⟩
  · refine ⟨sentAs_timerEn ?_ _, sentAs_timerEn ?_ _, sentAs_timerEn ?_ _⟩ <;> exact hblk
  · simp only [sentAs, hcfg, hdev]
    decide

end Sys2Proof.Proofs
end

/-! PROOFS. No command clears a bit of `DIAG` (60_exceptions.md R270, 10_state.md R43). -/
section
namespace Sys2Proof.Proofs
open Sys2Proof.Machine

/-- Settles O59: by O60, `DIAG` after a command is `DIAG` before it with some bits added. -/
theorem diagnosticsAreSticky : Obligations.DiagnosticsAreSticky := by
  intro i s t k h hk
  obtain ⟨_, added, _, hdiag, _⟩ := diagnosticsInfluenceNothing i s t s.diag h
  rw [hdiag, BitVec.getLsbD_or, hk, Bool.true_or]

end Sys2Proof.Proofs
end

/-! PROOFS. Reset and loss of power (70_reset_and_hazards.md R300 to R307): what is left of an interrupted flash call, and
what the block holds after the reset. -/
section
namespace Sys2Proof.Proofs
open Sys2Proof.Machine

/-! ## A flash call cut short -/

/-- A canonical flash is part of canonical memories. -/
theorem flashWf_of_memoriesWf {s : State} (h : memoriesWf s = true) : s.flash.wf = true :=
  (Bool.and_eq_true_iff.mp h).1

/-- One of the any-value bytes of a call. -/
theorem getD_freeBytes (s : State) {n q : Nat} (h : q < n) : (s.freeBytes n).getD q 0 = Config.freeByte s.drawCount q := by
  simp [State.freeBytes, List.getD_eq_getElem?_getD, h]

/-- One byte left by a programming call that lost power: its word is programmed, in progress or untouched (R305). -/
theorem getD_tornBytes {m : Memory} {off words q : Nat} {new free : List Byte} (h : q < new.length) :
    (m.tornBytes off new words free).getD q 0 =
      if q / 4 < words then m.read (off + q) &&& new.getD q 0
      else if q / 4 = words then free.getD q 0
      else m.read (off + q) := by
  rw [← Memory.getD_programmed h]
  simp [Memory.tornBytes, List.getD_eq_getElem?_getD, h]

/-- A flash write that loses power makes one draw and writes as many bytes as it was given (R305). -/
theorem flashWriteTorn_eq (s : State) (off : Nat) (bs : List Byte) (words : Nat) :
    s.flashWriteTorn off bs words = { s.drawn with
      flash := s.flash.writeBytes off (if s.callOk then s.flash.tornBytes off bs words (s.freeBytes bs.length)
        else s.freeBytes bs.length) } := by
  unfold State.flashWriteTorn
  dsimp only
  split <;> rfl

/-- Outside its target a flash write that lost power leaves the flash as it was (R305). -/
theorem read_flashWriteTorn_outside {s : State} (h : s.flash.wf = true) {off a : Nat} {bs : List Byte}
    (ha : a < off ∨ off + bs.length ≤ a) (words : Nat) :
    (s.flashWriteTorn off bs words).flash.read a = s.flash.read a := by
  rw [flashWriteTorn_eq, Memory.read_writeBytes h, if_neg]
  split
  · rw [Memory.length_tornBytes]; omega
  · rw [s.length_freeBytes]; omega

/-- Inside its target it leaves programmed words, a free one and untouched ones, or, where ENV draws a failure, free bytes
only (R305; log 19). -/
theorem read_flashWriteTorn_inside {s : State} (h : s.flash.wf = true) (off : Nat) {bs : List Byte} (words : Nat) {q : Nat}
    (hq : q < bs.length) : (s.flashWriteTorn off bs words).flash.read (off + q) =
      if s.callOk then
        if q / 4 < words then s.flash.read (off + q) &&& bs.getD q 0
        else if q / 4 = words then Config.freeByte s.drawCount q
        else s.flash.read (off + q)
      else Config.freeByte s.drawCount q := by
  rw [flashWriteTorn_eq, Memory.read_writeBytes h, if_pos, Nat.add_sub_cancel_left, apply_ite (List.getD · q 0),
    getD_tornBytes hq, getD_freeBytes s hq]
  split
  · rw [Memory.length_tornBytes]; omega
  · rw [s.length_freeBytes]; omega

/-- What the flash holds after an erase that lost power (R305). -/
theorem read_flashEraseTorn {s : State} (h : s.flash.wf = true) (a : Nat) :
    s.flashEraseTorn.flash.read a =
      if a < s.cfg.sectorSize then Config.freeByte s.drawCount a else s.flash.read a := by
  rw [State.flashEraseTorn, Memory.read_writeBytes h, s.length_freeBytes, Nat.zero_add, Nat.sub_zero]
  simp only [Nat.zero_le, true_and]
  exact ite_congr rfl (fun hin => getD_freeBytes s hin) (fun _ => rfl)

/-! ## What is left of the command in flight -/

/-- A call that programs bytes is a flash write at the job's target. -/
theorem tearCall_of_program {s : State} {j : Job} (h : j.program s ≠ []) (words : Nat) :
    s.tearCall j words = s.flashWriteTorn (j.target s).1 (j.program s) words := by
  cases j with
  | writeMain | writeHeader | writeData => rfl
  | writeErase | readMain | readHeader | readData => exact absurd rfl h

/-- Loss of power inside a read changes nothing (R307). -/
theorem tearCall_of_reads (s : State) {j : Job} (h : j.reads = true) (words : Nat) : s.tearCall j words = s := by
  cases j with
  | writeErase | writeMain | writeHeader | writeData => cases h
  | readMain | readHeader | readData => rfl

/-- Loss of power inside a flash call reaches the flash and ENV's draws only. -/
theorem tearCall_frame (s : State) (j : Job) (words : Nat) : ∃ (m : Memory) (ds : List Bool) (k : Nat),
    s.tearCall j words = { s with flash := m, draws := ds, drawCount := s.drawCount + k } := by
  cases j with
  | writeErase => exact ⟨_, _, 1, rfl⟩
  | writeMain | writeHeader | writeData => exact ⟨_, _, 1, flashWriteTorn_eq s _ _ words⟩
  | readMain | readHeader | readData => exact ⟨_, _, 0, rfl⟩

/-- The tear of the command in flight is that of its next call. -/
theorem interrupted_of_job {s : State} {j : Job} (h : s.job = some j) (words : Nat) :
    s.interrupted (some words) = s.tearCall j words := by
  simp only [State.interrupted, h]

/-- A reset with no command in flight, between two flash calls or inside a read finds the flash and ENV's draws as they
were (R305, R307). -/
theorem interrupted_eq_self {s : State} {torn : Option Nat}
    (h : s.job = none ∨ torn = none ∨ ∃ j : Job, s.job = some j ∧ j.reads = true) : s.interrupted torn = s := by
  unfold State.interrupted
  split
  · next j words hj =>
    rcases h with h | h | ⟨k, hk, hreads⟩
    · cases hj.symm.trans h
    · cases h
    · obtain rfl : j = k := Option.some.inj (hj.symm.trans hk)
      exact tearCall_of_reads s hreads words
  · rfl

/-- An interrupted command leaves everything but the flash and ENV's draws. -/
theorem interrupted_frame (s : State) (torn : Option Nat) : ∃ (m : Memory) (ds : List Bool) (k : Nat),
    s.interrupted torn = { s with flash := m, draws := ds, drawCount := s.drawCount + k } := by
  unfold State.interrupted
  split
  · exact tearCall_frame s _ _
  · exact ⟨_, _, 0, rfl⟩

/-! ## The reset -/

/-- Restarting puts everything of the block but the flash at its reset value (R300, R304). -/
theorem afterReset_restart (s : State) : afterReset s s.restart s.sched := by
  refine ⟨rfl, Nat.lt_succ_self _, by simp [State.restart], by simp [State.restart], fun it hit => ?_⟩
  obtain ⟨i, -, rfl⟩ := List.mem_map.mp hit
  dsimp only
  exact ⟨rfl, rfl, rfl, rfl, (resetData_ok s i).1⟩

/-- A reset restarts the block, whatever was in flight: an interrupted command changes nothing that a restart keeps but the
flash and ENV's draws (R305). -/
theorem afterReset_resetBlock (s : State) (torn : Option Nat) : afterReset s (s.resetBlock torn) s.sched := by
  obtain ⟨m, ds, k, hu⟩ := interrupted_frame s torn
  obtain ⟨hreset, hcount, hmemories⟩ :=
    afterReset_restart { s with flash := m, draws := ds, drawCount := s.drawCount + k }
  rw [State.resetBlock, hu]
  exact ⟨hreset, Nat.lt_of_le_of_lt (Nat.le_add_right _ k) hcount, hmemories⟩

/-- The step of a reset (R300). -/
theorem step_reset {s : State} {torn : Option Nat} {rest : List Event} (hl : legalConfig s.cfg = true)
    (hs : s.sched = .reset torn :: rest) : step s = .next (({ s with sched := rest } : State).resetBlock torn) := by
  simp only [step_of_legalConfig hl, State.turn, hs]

/-- Settles O19: the reset restarts what the interrupted command leaves, and that is the flash as it was or, inside the
erase, a sector of free bytes. -/
theorem resetClearsEverythingButFlash : Obligations.ResetClearsEverythingButFlash := by
  intro s torn rest hl hs
  refine ⟨_, step_reset hl hs, afterReset_resetBlock { s with sched := rest } torn, fun hquiet => ?_,
    fun n words hj htorn => ?_⟩
  · rw [State.resetBlock, interrupted_eq_self (s := { s with sched := rest }) hquiet]
    exact ⟨rfl, rfl⟩
  · rw [htorn, State.resetBlock, interrupted_of_job (s := { s with sched := rest }) hj]
    refine ⟨List.drop_one.symm, fun hwf a => ?_⟩
    exact read_flashEraseTorn (s := { s with sched := rest }) (flashWf_of_memoriesWf hwf) a

/-- The schedule matters neither to what a call programs nor to where it goes. -/
theorem program_target_sched (s : State) (j : Job) (rest : List Event) :
    j.program { s with sched := rest } = j.program s ∧ j.target { s with sched := rest } = j.target s := by
  cases j <;> exact ⟨rfl, rfl⟩

/-- A reset inside a write call finds the call torn. -/
theorem interrupted_of_program {s : State} {j : Job} (hj : s.job = some j) (hp : j.program s ≠ []) (words : Nat) :
    s.interrupted (some words) = s.flashWriteTorn (j.target s).1 (j.program s) words := by
  rw [interrupted_of_job hj, tearCall_of_program hp]

/-- Settles O20: the reset restarts what the torn flash write leaves, and `read_flashWriteTorn_inside` says what that is byte
by byte. -/
theorem powerLossTearsAWriteByWords : Obligations.PowerLossTearsAWriteByWords := by
  intro s j words rest hl hwf hj hp hs
  obtain ⟨hprogram, htarget⟩ := program_target_sched s j rest
  have htear := interrupted_of_program (s := { s with sched := rest }) hj (by rwa [hprogram]) words
  rw [hprogram, htarget] at htear
  have hflash := flashWf_of_memoriesWf hwf
  refine ⟨_, step_reset hl hs, afterReset_resetBlock { s with sched := rest } (some words), ?_, fun a => ⟨fun hout => ?_,
    fun q hq ha => ?_⟩⟩
  · rw [State.resetBlock, htear, flashWriteTorn_eq]
    exact List.drop_one.symm
  · rw [State.resetBlock, htear]
    exact read_flashWriteTorn_outside (s := { s with sched := rest }) hflash hout words
  · have hread := read_flashWriteTorn_inside (s := { s with sched := rest }) hflash (j.target s).1 words hq
    rw [State.resetBlock, htear, ha, s.drawAt_zero]
    refine ⟨fun hok hlt => ?_, fun hok heq => ?_, fun hok hgt => ?_, fun hfail => ?_⟩
    · exact hread.trans ((if_pos hok).trans (if_pos hlt))
    · exact hread.trans ((if_pos hok).trans ((if_neg heq.not_lt).trans (if_pos heq)))
    · exact hread.trans ((if_pos hok).trans ((if_neg hgt.not_gt).trans (if_neg hgt.ne')))
    · exact hread.trans (if_neg (Bool.eq_false_iff.mp hfail))

end Sys2Proof.Proofs
end

/-! PROOFS. The mode of the DeviceState (70_reset_and_hazards.md R303, 10_state.md R22): which modes a command can select. -/
section
namespace Sys2Proof.Proofs
open Sys2Proof.Machine

/-- A command that sends a DeviceState leaves that one (43_command_interpreter.md R249). -/
theorem dev_of_mutateAndSend {s t : State} {d : DeviceState}
    (h : (.next (s.mutateAndSend d) : Host.Outcome State Fault Refusal) = .next t) : t.dev = d := by
  obtain rfl := Host.Outcome.next.inj ((next_mutateAndSend s d).symm.trans h)
  rfl

/-- A command outside the seven that write the DeviceState leaves it (10_state.md R28). -/
theorem exec_keeps_dev {i : Instr} {s t : State} (h : exec i s = .next t)
    (hop : ¬ (1 ≤ i.opcode.toNat ∧ i.opcode.toNat ≤ 7)) : t.dev = s.dev := by
  cases exec_cases h with
  | store h => exact h.dev
  | encode ht => rw [ht]; rfl
  | send d hd ht => rw [ht]; exact hd.resolve_right hop

/-- Settles O35: a command that sends keeps the mode or selects AUTO, COOL or HEAT, and the others keep the DeviceState. -/
theorem noCommandSelectsModeFan : Obligations.NoCommandSelectsModeFan := by
  intro i s t h hfan
  cases i with
  | on | off | temp arg => rwa [dev_of_mutateAndSend h] at hfan
  | auto | cool | heat =>
    rw [dev_of_mutateAndSend h] at hfan
    cases hfan
  | fanLevel arg =>
    rw [exec, execFanLevel] at h
    split at h
    · rwa [dev_of_mutateAndSend h] at hfan
    · cases h
      exact hfan
  | move | encode | send | cfgWrite | cfgRead | cfgFree | cfgFreeAll =>
    rwa [exec_keeps_dev h (by simp [Instr.opcode])] at hfan
  | unrecognised op =>
    cases h
    exact hfan

end Sys2Proof.Proofs
end

/-! PROOFS. The canonical form of the byte memories (20_memory.md R70): what keeps it of any state, whatever the sizes of its
memories and the place of a command in flight. -/
section
namespace Sys2Proof.Proofs
open Sys2Proof.Machine

/-! ## What the canonical form rests on -/

/-- The canonical form as a list of its parts. -/
theorem memoriesWf_iff {s : State} :
    memoriesWf s = true ↔ s.flash.wf = true ∧ ∀ it ∈ s.items, it.data.wf = true := by
  simp only [memoriesWf, Bool.and_eq_true, List.all_eq_true]

section
variable {s t : State}

/-- The canonical form speaks of the two memories only. -/
theorem memoriesWf_congr (hf : t.flash = s.flash) (hi : t.items = s.items) : memoriesWf t = memoriesWf s := by
  rw [memoriesWf, memoriesWf, hf, hi]

variable (h : memoriesWf s = true)
include h

/-- A canonical flash in place of the other keeps the form. -/
theorem memoriesWf_of_flash (hf : t.flash.wf = true) (hi : t.items = s.items) : memoriesWf t = true :=
  memoriesWf_iff.mpr ⟨hf, hi ▸ (memoriesWf_iff.mp h).2⟩

/-- A slot with canonical data in place of another keeps the form. -/
theorem memoriesWf_of_set {i : Nat} {it : Item} (hf : t.flash = s.flash) (hi : t.items = s.items.set i it)
    (hwf : it.data.wf = true) : memoriesWf t = true := by
  obtain ⟨hflash, hdata⟩ := memoriesWf_iff.mp h
  refine memoriesWf_iff.mpr ⟨hf ▸ hflash, fun x hx => ?_⟩
  rcases List.mem_or_eq_of_mem_set (hi ▸ hx) with hx | rfl
  · exact hdata x hx
  · exact hwf

/-- The data of any slot are canonical. -/
theorem dataWf_item (i : Nat) : (s.item i).data.wf = true := wf_data_item (memoriesWf_iff.mp h).2 i

/-! ## Flash calls -/

theorem memoriesWf_flashErase : memoriesWf s.flashErase = true := by
  obtain ⟨m, heq, hwf, -⟩ := s.flashErase_cases
  exact heq ▸ memoriesWf_of_flash h (hwf (flashWf_of_memoriesWf h)) rfl

theorem memoriesWf_flashWrite (off : Nat) (bs : List Byte) : memoriesWf (s.flashWrite off bs) = true := by
  obtain ⟨m, heq, hwf, -⟩ := s.flashWrite_cases off bs
  exact heq ▸ memoriesWf_of_flash h (hwf (flashWf_of_memoriesWf h)) rfl

theorem memoriesWf_flashReadDone : memoriesWf s.flashReadDone = true :=
  (memoriesWf_congr (sameStore_flashReadDone s).flash (sameStore_flashReadDone s).items).trans h

theorem memoriesWf_nextWrite (n i off : Nat) : memoriesWf (s.nextWrite n i off) = true := by
  unfold State.nextWrite
  split <;> exact h

theorem memoriesWf_latchChecksum (i : Nat) : memoriesWf (s.latchChecksum i) = true :=
  memoriesWf_of_set h rfl rfl (dataWf_item h i)

theorem memoriesWf_nextRead (lim i off : Nat) (m : Int) : memoriesWf (s.nextRead lim i off m) = true := by
  rw [nextRead_frame]
  exact h

/-- A verified item is written over the slot's old data (42_config_store.md R214). -/
theorem memoriesWf_fillItem (i : Nat) (id len : Byte) (ck : BitVec 16) (blob : List Byte) :
    memoriesWf (s.fillItem i id len ck blob) = true :=
  memoriesWf_of_set h rfl (State.fillItem_items ..) (Memory.writeBytes_wf (dataWf_item h i) _ _)

/-- A discarded item leaves any data, in canonical form (R213). -/
theorem memoriesWf_discardItem (i : Nat) (id : Byte) (ck : BitVec 16) : memoriesWf (s.discardItem i id ck) = true := by
  refine memoriesWf_of_set h rfl (State.discardItem_items ..) ?_
  dsimp only
  exact (freeData_ok s).1

theorem memoriesWf_verifyItem (lim i off : Nat) (m : Int) (id len : Byte) (ck : BitVec 16) (data : List Byte) :
    memoriesWf (s.verifyItem lim i off m id len ck data) = true := by
  unfold State.verifyItem
  dsimp only
  split
  · exact memoriesWf_nextRead (memoriesWf_fillItem h _ _ _ _ _) _ _ _ _
  · exact memoriesWf_discardItem h _ _ _

theorem memoriesWf_afterMain (lim : Nat) (header : List Byte) : memoriesWf (s.afterMain lim header) = true := by
  unfold State.afterMain
  split
  · exact memoriesWf_nextRead (s := { s with rdEmpty := false }) h _ _ _ _
  · exact h

theorem memoriesWf_afterHeader (lim i off : Nat) (m : Int) (header : List Byte) :
    memoriesWf (s.afterHeader lim i off m header) = true := by
  unfold State.afterHeader
  dsimp only
  split
  · exact h
  · split
    · exact h
    · exact memoriesWf_verifyItem h _ _ _ _ _ _ _ _

/-- A flash call of any job, with the work up to the next one, keeps the form (20_memory.md R93). -/
theorem memoriesWf_microStep (j : Job) : memoriesWf (s.microStep j) = true := by
  have hdone := memoriesWf_flashReadDone h
  cases j with
  | writeErase n => exact memoriesWf_flashErase h
  | writeMain n => exact memoriesWf_nextWrite (memoriesWf_flashWrite h _ _) _ _ _
  | writeHeader n i off =>
    have hwritten := memoriesWf_flashWrite (memoriesWf_latchChecksum h i) off (Job.program s (.writeHeader n i off))
    simp only [State.microStep]
    split
    · exact hwritten
    · exact memoriesWf_nextWrite hwritten _ _ _
  | writeData n i off => exact memoriesWf_nextWrite (memoriesWf_flashWrite h _ _) _ _ _
  | readMain lim => exact memoriesWf_afterMain hdone _ _
  | readHeader lim i off m => exact memoriesWf_afterHeader hdone _ _ _ _ _
  | readData lim i off m id len ck => exact memoriesWf_verifyItem hdone _ _ _ _ _ _ _ _

/-- A command run on to its end keeps the form. -/
theorem memoriesWf_drain (k : Nat) : memoriesWf (s.drain k) = true := by
  induction k generalizing s with
  | zero => exact h
  | succ k ih =>
    cases hj : s.job with
    | none => rwa [State.drain_none hj]
    | some j =>
      rw [State.drain_succ hj]
      exact ih (memoriesWf_microStep h j)

/-! ## Commands, host writes and resets -/

/-- Freeing slots keeps the form: it changes no data (42_config_store.md R220). -/
theorem memoriesWf_freeSlots (n : Nat) : memoriesWf { s with items := freeSlots n s.items } = true := by
  obtain ⟨hflash, hdata⟩ := memoriesWf_iff.mp h
  refine memoriesWf_iff.mpr ⟨hflash, fun it hit => ?_⟩
  have hmem : it.data ∈ s.items.map Item.data := map_data_freeSlots n s.items ▸ List.mem_map_of_mem hit
  obtain ⟨old, hold, heq⟩ := List.mem_map.mp hmem
  exact heq ▸ hdata old hold

theorem memoriesWf_of_beginCase {i : Instr} (hcase : BeginCase i s t) : memoriesWf t = true := by
  cases hcase with
  | same hs => rw [memoriesWf_congr hs.flash hs.items, h]
  | free n ht => exact ht ▸ memoriesWf_freeSlots h n
  | write arg n hi hacc ht => exact ht ▸ h
  | read arg lim hi hlim hfree ht => exact ht ▸ h

/-- A command issued, whole or split, keeps the form. -/
theorem memoriesWf_writePort {v : Word} {span : Span} (hj : s.job = none) (ht : s.writePort v span = .next t) :
    memoriesWf t = true := by
  cases span with
  | split => exact memoriesWf_of_beginCase h (beginCommand_beginCase ht)
  | whole =>
    obtain ⟨u, hu, rfl⟩ := exists_begin_of_exec hj ht
    exact memoriesWf_drain (memoriesWf_of_beginCase h (beginCommand_beginCase hu)) _

/-- A write to the item window keeps the form when it does so for each slot's data. -/
theorem memoriesWf_writeItemField {f : Item → Item} (hf : ∀ it : Item, it.data.wf = true → (f it).data.wf = true) :
    memoriesWf (s.writeItemField f) = true := by
  unfold State.writeItemField
  split
  · exact memoriesWf_of_set h rfl rfl (hf _ (dataWf_item h _))
  · exact h

/-- A host write to any register keeps the form (10_state.md R46). -/
theorem memoriesWf_writeReg (r : Reg) (v : Word) : memoriesWf (s.writeReg r v) = true := by
  cases r with
  | ctrl =>
    rw [State.writeReg]
    split <;> exact h
  | itemId | itemLen => exact memoriesWf_writeItemField h fun _ hwf => hwf
  | itemData k => exact memoriesWf_writeItemField h fun _ hwf => Memory.writeBytes_wf hwf _ _
  | _ => exact h

/-- A flash call of any job that loses power keeps the form (70_reset_and_hazards.md R305). -/
theorem memoriesWf_tearCall (j : Job) (words : Nat) : memoriesWf (s.tearCall j words) = true := by
  have hwrite : ∀ off bs, memoriesWf (s.flashWriteTorn off bs words) = true := fun off bs => by
    rw [flashWriteTorn_eq]
    exact memoriesWf_of_flash h (Memory.writeBytes_wf (flashWf_of_memoriesWf h) _ _) rfl
  cases j with
  | writeErase => exact memoriesWf_of_flash h (Memory.writeBytes_wf (flashWf_of_memoriesWf h) _ _) rfl
  | writeMain | writeHeader | writeData => exact hwrite _ _
  | readMain | readHeader | readData => exact h

theorem memoriesWf_interrupted (torn : Option Nat) : memoriesWf (s.interrupted torn) = true := by
  unfold State.interrupted
  split
  · exact memoriesWf_tearCall h _ _
  · exact h

/-- A restart keeps the flash and gives every slot canonical data (R301, R304). -/
theorem memoriesWf_restart : memoriesWf s.restart = true := by
  refine memoriesWf_iff.mpr ⟨flashWf_of_memoriesWf (s := s) h, fun it hit => ?_⟩
  obtain ⟨i, -, rfl⟩ := List.mem_map.mp hit
  dsimp only
  exact (resetData_ok s i).1

end

/-- Settles O55: by what a step can do. Each write to a memory is a `Memory.writeBytes` or an erase of a canonical one, in any
place, so neither the sizes of the memories nor the command's place in the sector matter. -/
theorem stepKeepsTheMemoriesCanonical : Obligations.StepKeepsTheMemoriesCanonical := by
  intro s t h hstep
  obtain ⟨-, hcase⟩ := step_cases hstep
  cases hcase with
  | call j rest hj hok ht => exact ht ▸ memoriesWf_microStep h j
  | read r addr rest hj hs hr ht => exact ht ▸ h
  | command v span rest hj hs ht => exact memoriesWf_writePort (s := { s with sched := rest }) h hj ht
  | write r addr v span rest hj hs hr ht => exact ht ▸ memoriesWf_writeReg (s := { s with sched := rest }) h r v
  | timer rest ht =>
    rw [State.timerFires_eq] at ht
    exact ht ▸ h
  | idle rest ht => exact ht ▸ h
  | reset torn rest hs ht =>
    exact ht ▸ memoriesWf_restart (memoriesWf_interrupted (s := { s with sched := rest }) h torn)

end Sys2Proof.Proofs
end

/-! PROOFS. The state after the first power-up and the block's invariant (10_state.md R55, 70_reset_and_hazards.md R300). -/
section
namespace Sys2Proof.Proofs
open Sys2Proof.Machine

section
variable {c : Config}

/-- The sequencer after power-up is idle, with nothing to emit (10_state.md R31 to R37). -/
theorem seqInv_reset (hl : legalConfig c = true) : seqInv c (Generator.reset c) = true := by
  obtain ⟨-, hsub, -⟩ := legalConfig_iff.mp hl
  exact seqInv_iff.mpr ⟨List.length_replicate, Nat.zero_le _, le_rfl, Nat.zero_lt_of_lt hsub, Nat.zero_le _, rfl, nofun,
    fun _ => rfl⟩

/-- After power-up both memories hold no cell and the table has its slots (R51, R53). -/
theorem memoriesOk_powerUp (c : Config) : MemoriesOk (State.powerUp c) := by
  have hempty : ∀ it ∈ (State.powerUp c).items, it.data = [] := fun it hit => by
    rw [List.eq_of_mem_replicate hit]
    rfl
  exact ⟨rfl, rfl, List.length_replicate, fun it hit => hempty it hit ▸ rfl, fun it hit => hempty it hit ▸ rfl⟩

/-- Under any legal configuration the block powers up in its invariant. -/
theorem inv_powerUp (hl : legalConfig c = true) : (State.powerUp c).inv = true := by
  have hseq : seqInv c (State.powerUp c).gen = true := seqInv_reset hl
  have hstore : storeInv (State.powerUp c) = true := (storeInv_iff_of_idle rfl).mpr (memoriesOk_powerUp c)
  have hlatch : latchInv (State.powerUp c) = true := rfl
  simp only [State.inv, Bool.and_eq_true]
  exact ⟨⟨⟨hl, hseq⟩, hstore⟩, hlatch⟩

end

/-- Settles O18: the reset state is the power-up under the reference configuration, which is legal. -/
theorem resetMeetsTheInvariant : Obligations.ResetMeetsTheInvariant := inv_powerUp (by decide)

end Sys2Proof.Proofs
end
